-- ==== Sys2Proof/Word.lean ====
section
/-! DEFINITION. The machine's words and the two index types of its register files
(00_scope.md R8, 10_state.md R30 and R32, 30_encoding.md R92). -/

namespace Sys2Proof

/-- A byte, and so a field element of GF(2^8) (00_scope.md R6, R8). -/
abbrev Byte := BitVec 8

/-- A scalar register's contents, an address or a length (00_scope.md R8). -/
abbrev Half := BitVec 16

/-- A command word, and the width of a host register (00_scope.md R8, 10_state.md R21). -/
abbrev Word := BitVec 32

/-- A scalar register number `R0`..`R7` (30_encoding.md R92). -/
abbrev RIdx := Fin 8

/-- A polynomial register number `P0`..`P7` (30_encoding.md R92). -/
abbrev PIdx := Fin 8

end Sys2Proof
end

