-- ==== Sys2Proof/Syntax.lean ====
section
/-! DEFINITION. The commands: one constructor for each of the 30 rows of 30_encoding.md R94
(spec/opcode_table.json). The arguments are the operand fields the row has, in the order
`fd`, `fa`, `fb`, `fc`, `imm16`; the type of each says which register file it names. -/

namespace Sys2Proof

inductive Instr where
  /-- `END` (40_control.md R114); `end` is a word of Lean's. -/
  | endRun
  /-- `NOP` (40_control.md R115). -/
  | nop
  /-- `LI Rd, imm16` (40_control.md R116). -/
  | li (fd : RIdx) (imm : Half)
  /-- `CLRF` (40_control.md R117). -/
  | clrf
  /-- `FINIT prim, gb` with `imm16 = gb<<9 | prim` (41_field.md R145). -/
  | finit (imm : Half)
  /-- `GFADD Rd, Ra, Rb` (41_field.md R146). -/
  | gfadd (fd fa fb : RIdx)
  /-- `GFMUL Rd, Ra, Rb` (41_field.md R147). -/
  | gfmul (fd fa fb : RIdx)
  /-- `GFINV Rd, Ra` (41_field.md R148). -/
  | gfinv (fd fa : RIdx)
  /-- `GFEXP Rd, Ra` (41_field.md R149). -/
  | gfexp (fd fa : RIdx)
  /-- `GFLOG Rd, Ra` (41_field.md R150). -/
  | gflog (fd fa : RIdx)
  /-- `PLD Pd, Ra, Rb` (42_polynomial.md R179). -/
  | pld (fd : PIdx) (fa fb : RIdx)
  /-- `PST Pa, Rb, Rc` (42_polynomial.md R180). -/
  | pst (fa : PIdx) (fb fc : RIdx)
  /-- `PCONST Pd, Ra` (42_polynomial.md R181). -/
  | pconst (fd : PIdx) (fa : RIdx)
  /-- `PADD Pd, Pa, Pb` (42_polynomial.md R190). -/
  | padd (fd fa fb : PIdx)
  /-- `PMUL Pd, Pa, Pb` (42_polynomial.md R191). -/
  | pmul (fd fa fb : PIdx)
  /-- `PSCL Pd, Pa, Rb` (42_polynomial.md R192). -/
  | pscl (fd fa : PIdx) (fb : RIdx)
  /-- `PMONO Pd, Pa, Rb, Rc` (42_polynomial.md R193). -/
  | pmono (fd fa : PIdx) (fb fc : RIdx)
  /-- `PDIV Pq, Pr, Pa, Pb` with `fd` = Pq, `fa` = Pa, `fb` = Pb, `fc` = Pr (42_polynomial.md R194). -/
  | pdiv (fd fa fb fc : PIdx)
  /-- `PEVAL Rd, Pa, Rb` (42_polynomial.md R195). -/
  | peval (fd : RIdx) (fa : PIdx) (fb : RIdx)
  /-- `PDEG Rd, Pa` (42_polynomial.md R196). -/
  | pdeg (fd : RIdx) (fa : PIdx)
  /-- `PCOEF Rd, Pa, Rb` (42_polynomial.md R197). -/
  | pcoef (fd : RIdx) (fa : PIdx) (fb : RIdx)
  /-- `PGEN Pd, Ra` (42_polynomial.md R198). -/
  | pgen (fd : PIdx) (fa : RIdx)
  /-- `CINIT Rk, Re` with `fa` = k, `fb` = e (43_coder.md R211). -/
  | cinit (fa fb : RIdx)
  /-- `ENC Rd, Ra, Rb, Rc` (43_coder.md R214). -/
  | enc (fd fa fb fc : RIdx)
  /-- `DEC Rd, Ra, Rb, Rc` (43_coder.md R222). -/
  | dec (fd fa fb fc : RIdx)
  /-- `SYND Pd, Ra` (44_decoder_stages.md R250). -/
  | synd (fd : PIdx) (fa : RIdx)
  /-- `KES Psigma, Psyn, Pomega` with `fd` = sigma, `fa` = syn, `fc` = omega (44_decoder_stages.md R251). -/
  | kes (fd fa fc : PIdx)
  /-- `CHIEN Rd, Psigma, Rc` (44_decoder_stages.md R252). -/
  | chien (fd : RIdx) (fa : PIdx) (fc : RIdx)
  /-- `FORNEY Rd, Pomega, Rb, Rc` (44_decoder_stages.md R253). -/
  | forney (fd : RIdx) (fa : PIdx) (fb fc : RIdx)
  /-- `CORR Rd, Ra, Rb, Rc` (44_decoder_stages.md R254). -/
  | corr (fd fa fb fc : RIdx)
  deriving DecidableEq, Repr

end Sys2Proof
end

