-- ==== Sys2Proof/WellFormed.lean ====
section
/-! DEFINITION. Which terms of `Instr` a command word exists for. The register fields hold their
bound in their type; the one check left is the immediate of `FINIT` (30_encoding.md R92). -/

namespace Sys2Proof

/-- `FINIT` "requires `imm16[15:10] = 0`" (30_encoding.md R92). -/
abbrev Instr.WellFormed : Instr → Prop
  | .finit imm => imm.extractLsb' 10 6 = 0
  | _ => True

end Sys2Proof
end

