-- ==== Sys2Proof/Decode.lean ====
section
/-! DEFINITION. From command words to commands and back: the opcode map of 30_encoding.md R94, the
decoder (total, rejecting by name) and the encoder of R95. -/

namespace Sys2Proof

/-- Why bytes are no command. -/
inductive DecodeReject where
  /-- The opcode is not listed (30_encoding.md R96 (a)). The machine raises `ILLEGAL`. -/
  | unlistedOpcode
  /-- A must-be-zero bit is 1 (30_encoding.md R96 (b)). The machine raises `ILLEGAL`. -/
  | reservedBitSet
  /-- Fewer than the four bytes a command has (30_encoding.md R90). A fetch never meets it. -/
  | tooShort
  deriving DecidableEq, Repr

/-! ### The fields of a word (30_encoding.md R91) -/

/-- `OP`, bits 31:26. -/
def fieldOp (w : Word) : BitVec 6 := w.extractLsb' 26 6
/-- `fd`, bits 25:23. -/
def fieldD (w : Word) : Fin 8 := (w.extractLsb' 23 3).toFin
/-- `fa`, bits 22:20. -/
def fieldA (w : Word) : Fin 8 := (w.extractLsb' 20 3).toFin
/-- `fb`, bits 19:17. -/
def fieldB (w : Word) : Fin 8 := (w.extractLsb' 17 3).toFin
/-- `fc`, bits 16:14. -/
def fieldC (w : Word) : Fin 8 := (w.extractLsb' 14 3).toFin
/-- `imm16`, bits 15:0. -/
def fieldImm (w : Word) : Half := w.extractLsb' 0 16

/-! ### The three formats, put together (30_encoding.md R95) -/

/-- Format N: `OP<<26`. -/
def formatN (op : BitVec 6) : Word := op.setWidth 32 <<< 26

/-- Format I: `OP<<26 | fd<<23 | imm16`. -/
def formatI (op : BitVec 6) (fd : Fin 8) (imm : Half) : Word :=
  op.setWidth 32 <<< 26 ||| BitVec.ofNat 32 fd.val <<< 23 ||| imm.setWidth 32

/-- Format R: `OP<<26 | fd<<23 | fa<<20 | fb<<17 | fc<<14`. -/
def formatR (op : BitVec 6) (fd fa fb fc : Fin 8) : Word :=
  op.setWidth 32 <<< 26 ||| BitVec.ofNat 32 fd.val <<< 23 ||| BitVec.ofNat 32 fa.val <<< 20 |||
    BitVec.ofNat 32 fb.val <<< 17 ||| BitVec.ofNat 32 fc.val <<< 14

/-! ### The opcode map (30_encoding.md R94) -/

/-- The column `OP`. -/
def Instr.opcode : Instr → BitVec 6
  | .endRun => 0x01
  | .nop => 0x02
  | .li _ _ => 0x03
  | .clrf => 0x04
  | .finit _ => 0x08
  | .gfadd _ _ _ => 0x09
  | .gfmul _ _ _ => 0x0A
  | .gfinv _ _ => 0x0B
  | .gfexp _ _ => 0x0C
  | .gflog _ _ => 0x0D
  | .pld _ _ _ => 0x10
  | .pst _ _ _ => 0x11
  | .pconst _ _ => 0x12
  | .padd _ _ _ => 0x13
  | .pmul _ _ _ => 0x14
  | .pscl _ _ _ => 0x15
  | .pmono _ _ _ _ => 0x16
  | .pdiv _ _ _ _ => 0x17
  | .peval _ _ _ => 0x18
  | .pdeg _ _ => 0x19
  | .pcoef _ _ _ => 0x1A
  | .pgen _ _ => 0x1B
  | .cinit _ _ => 0x20
  | .enc _ _ _ _ => 0x21
  | .dec _ _ _ _ => 0x22
  | .synd _ _ => 0x23
  | .kes _ _ _ => 0x24
  | .chien _ _ _ => 0x25
  | .forney _ _ _ _ => 0x26
  | .corr _ _ _ _ => 0x27

/-- The column `mask`: a 1 in every bit that must equal `match`. -/
def Instr.mask : Instr → Word
  | .endRun => 0xFFFFFFFF
  | .nop => 0xFFFFFFFF
  | .li _ _ => 0xFC7F0000
  | .clrf => 0xFFFFFFFF
  | .finit _ => 0xFFFFFC00
  | .gfadd _ _ _ => 0xFC01FFFF
  | .gfmul _ _ _ => 0xFC01FFFF
  | .gfinv _ _ => 0xFC0FFFFF
  | .gfexp _ _ => 0xFC0FFFFF
  | .gflog _ _ => 0xFC0FFFFF
  | .pld _ _ _ => 0xFC01FFFF
  | .pst _ _ _ => 0xFF803FFF
  | .pconst _ _ => 0xFC0FFFFF
  | .padd _ _ _ => 0xFC01FFFF
  | .pmul _ _ _ => 0xFC01FFFF
  | .pscl _ _ _ => 0xFC01FFFF
  | .pmono _ _ _ _ => 0xFC003FFF
  | .pdiv _ _ _ _ => 0xFC003FFF
  | .peval _ _ _ => 0xFC01FFFF
  | .pdeg _ _ => 0xFC0FFFFF
  | .pcoef _ _ _ => 0xFC01FFFF
  | .pgen _ _ => 0xFC0FFFFF
  | .cinit _ _ => 0xFF81FFFF
  | .enc _ _ _ _ => 0xFC003FFF
  | .dec _ _ _ _ => 0xFC003FFF
  | .synd _ _ => 0xFC0FFFFF
  | .kes _ _ _ => 0xFC0E3FFF
  | .chien _ _ _ => 0xFC0E3FFF
  | .forney _ _ _ _ => 0xFC003FFF
  | .corr _ _ _ _ => 0xFC003FFF

/-- The column `match`: the word with every variable field zero. -/
def Instr.pattern (i : Instr) : Word := formatN i.opcode

/-! ### The decoder -/

/-- Accept `i` when `w` is zero in every bit of `reserved`, the must-be-zero bits of the row
(30_encoding.md R91, R92, R96 (b)). -/
def accept (w reserved : Word) (i : Instr) : Except DecodeReject Instr :=
  if w &&& reserved = 0 then .ok i else .error .reservedBitSet

/-- The command a word stands for (30_encoding.md R94, R96). The second argument of `accept` is the
row's `mask` without the six opcode bits. -/
def decode (w : Word) : Except DecodeReject Instr :=
  match (fieldOp w).toNat with
  | 0x01 => accept w 0x03FFFFFF .endRun
  | 0x02 => accept w 0x03FFFFFF .nop
  | 0x03 => accept w 0x007F0000 (.li (fieldD w) (fieldImm w))
  | 0x04 => accept w 0x03FFFFFF .clrf
  | 0x08 => accept w 0x03FFFC00 (.finit (fieldImm w))
  | 0x09 => accept w 0x0001FFFF (.gfadd (fieldD w) (fieldA w) (fieldB w))
  | 0x0A => accept w 0x0001FFFF (.gfmul (fieldD w) (fieldA w) (fieldB w))
  | 0x0B => accept w 0x000FFFFF (.gfinv (fieldD w) (fieldA w))
  | 0x0C => accept w 0x000FFFFF (.gfexp (fieldD w) (fieldA w))
  | 0x0D => accept w 0x000FFFFF (.gflog (fieldD w) (fieldA w))
  | 0x10 => accept w 0x0001FFFF (.pld (fieldD w) (fieldA w) (fieldB w))
  | 0x11 => accept w 0x03803FFF (.pst (fieldA w) (fieldB w) (fieldC w))
  | 0x12 => accept w 0x000FFFFF (.pconst (fieldD w) (fieldA w))
  | 0x13 => accept w 0x0001FFFF (.padd (fieldD w) (fieldA w) (fieldB w))
  | 0x14 => accept w 0x0001FFFF (.pmul (fieldD w) (fieldA w) (fieldB w))
  | 0x15 => accept w 0x0001FFFF (.pscl (fieldD w) (fieldA w) (fieldB w))
  | 0x16 => accept w 0x00003FFF (.pmono (fieldD w) (fieldA w) (fieldB w) (fieldC w))
  | 0x17 => accept w 0x00003FFF (.pdiv (fieldD w) (fieldA w) (fieldB w) (fieldC w))
  | 0x18 => accept w 0x0001FFFF (.peval (fieldD w) (fieldA w) (fieldB w))
  | 0x19 => accept w 0x000FFFFF (.pdeg (fieldD w) (fieldA w))
  | 0x1A => accept w 0x0001FFFF (.pcoef (fieldD w) (fieldA w) (fieldB w))
  | 0x1B => accept w 0x000FFFFF (.pgen (fieldD w) (fieldA w))
  | 0x20 => accept w 0x0381FFFF (.cinit (fieldA w) (fieldB w))
  | 0x21 => accept w 0x00003FFF (.enc (fieldD w) (fieldA w) (fieldB w) (fieldC w))
  | 0x22 => accept w 0x00003FFF (.dec (fieldD w) (fieldA w) (fieldB w) (fieldC w))
  | 0x23 => accept w 0x000FFFFF (.synd (fieldD w) (fieldA w))
  | 0x24 => accept w 0x000E3FFF (.kes (fieldD w) (fieldA w) (fieldC w))
  | 0x25 => accept w 0x000E3FFF (.chien (fieldD w) (fieldA w) (fieldC w))
  | 0x26 => accept w 0x00003FFF (.forney (fieldD w) (fieldA w) (fieldB w) (fieldC w))
  | 0x27 => accept w 0x00003FFF (.corr (fieldD w) (fieldA w) (fieldB w) (fieldC w))
  | _ => .error .unlistedOpcode

/-! ### Words as bytes -/

/-- A word from its four bytes, the first one least significant (20_memory.md R62). -/
def wordOfBytes (b0 b1 b2 b3 : Byte) : Word := b3 ++ b2 ++ b1 ++ b0

/-- The four bytes of a word, in the order they lie in DMEM (20_memory.md R62). -/
def bytesOfWord (w : Word) : List Byte :=
  [w.extractLsb' 0 8, w.extractLsb' 8 8, w.extractLsb' 16 8, w.extractLsb' 24 8]

/-- Decode the command at the head of a byte sequence, and give the bytes after it. Every command is
four bytes long (30_encoding.md R90). -/
def decodeBytes : List Byte → Except DecodeReject (Instr × List Byte)
  | b0 :: b1 :: b2 :: b3 :: rest =>
    match decode (wordOfBytes b0 b1 b2 b3) with
    | .ok i => .ok (i, rest)
    | .error e => .error e
  | _ => .error .tooShort

/-- What the decoder reads from an instruction whose bits are `w`, numbered as spec/opcode_table.json
numbers them; bits from `nbits` up are zero. -/
def decodeTableWord (nbits w : Nat) : Option Instr :=
  match decodeBytes (bytesOfWord (BitVec.ofNat 32 (w % 2 ^ nbits))) with
  | .ok (i, _) => some i
  | .error _ => none

/-! ### The encoder -/

/-- The word of a command (30_encoding.md R94, R95). -/
def encode : Instr → Word
  | .endRun => formatN 0x01
  | .nop => formatN 0x02
  | .li fd imm => formatI 0x03 fd imm
  | .clrf => formatN 0x04
  | .finit imm => formatI 0x08 0 imm
  | .gfadd fd fa fb => formatR 0x09 fd fa fb 0
  | .gfmul fd fa fb => formatR 0x0A fd fa fb 0
  | .gfinv fd fa => formatR 0x0B fd fa 0 0
  | .gfexp fd fa => formatR 0x0C fd fa 0 0
  | .gflog fd fa => formatR 0x0D fd fa 0 0
  | .pld fd fa fb => formatR 0x10 fd fa fb 0
  | .pst fa fb fc => formatR 0x11 0 fa fb fc
  | .pconst fd fa => formatR 0x12 fd fa 0 0
  | .padd fd fa fb => formatR 0x13 fd fa fb 0
  | .pmul fd fa fb => formatR 0x14 fd fa fb 0
  | .pscl fd fa fb => formatR 0x15 fd fa fb 0
  | .pmono fd fa fb fc => formatR 0x16 fd fa fb fc
  | .pdiv fd fa fb fc => formatR 0x17 fd fa fb fc
  | .peval fd fa fb => formatR 0x18 fd fa fb 0
  | .pdeg fd fa => formatR 0x19 fd fa 0 0
  | .pcoef fd fa fb => formatR 0x1A fd fa fb 0
  | .pgen fd fa => formatR 0x1B fd fa 0 0
  | .cinit fa fb => formatR 0x20 0 fa fb 0
  | .enc fd fa fb fc => formatR 0x21 fd fa fb fc
  | .dec fd fa fb fc => formatR 0x22 fd fa fb fc
  | .synd fd fa => formatR 0x23 fd fa 0 0
  | .kes fd fa fc => formatR 0x24 fd fa 0 fc
  | .chien fd fa fc => formatR 0x25 fd fa 0 fc
  | .forney fd fa fb fc => formatR 0x26 fd fa fb fc
  | .corr fd fa fb fc => formatR 0x27 fd fa fb fc

end Sys2Proof
end

