-- ==== Sys2Proof/Config.lean ====
section
/-! DEFINITION. What is fixed for the machine (00_scope.md R7) and the open values: constants
without a body, of which no proof can know more than their type. -/

namespace Sys2Proof.Config

/-- DMEM holds 65536 bytes (00_scope.md R7, 20_memory.md R60). -/
def dmemSize : Nat := 0x10000

/-- A polynomial register holds a degree of at most 255, that is `PCAP = 256` coefficients
(00_scope.md R7, 42_polynomial.md R178). -/
def maxDegree : Nat := 255

/-- The longest block `K + E` (00_scope.md R7 `NMAX`, 43_coder.md R211). -/
def maxBlock : Nat := 255

/-- The length of the failure marker (00_scope.md R7 `MARKER_LEN`, 43_coder.md R217). -/
def markerLen : Nat := 11

/-- OPEN (43_coder.md R217, 92_eei_decisions.md D14): the 11 bytes of `MARKER`.
Seven bits each, because the rule bounds every one of them by `0x7F` and says no more. -/
opaque marker : Fin 11 → BitVec 7

/-- OPEN (43_coder.md R217, 92_eei_decisions.md D14): the byte `FILLER`. -/
opaque filler : Byte

/-- OPEN (93_implementation_defined.md U1): what the `n`-th unspecified host read returns.
The step passes the counter `State.freeCount` and advances it. -/
opaque unspecifiedRead : Nat → Word

/-- OPEN (93_implementation_defined.md U5): whether a reset during a run leaves DMEM as the last
completed step left it. -/
opaque resetKeepsDmem : Nat → Bool

end Sys2Proof.Config
end

