-- ==== Sys2Proof/Machine/State.lean ====
section
/-! DEFINITION. The state of the machine, as plain data: every element of the summary of
10_state.md R37, and the model's own inputs (00_scope.md R17); the reasons a step can stop; reset. -/

namespace Sys2Proof.Machine

/-! ### Errors and decode failures -/

/-- The `SUB` values of the cause `CONFIG` (60_exceptions.md R282). -/
inductive ConfigSub where
  /-- SUB 1: `prim[8] = 0`. Raised by `FINIT`. -/
  | degree
  /-- SUB 2: `exp[0..254]` not pairwise distinct. Raised by `FINIT`. -/
  | notPrimitive
  /-- SUB 3: `k < 11`. Raised by `CINIT`. -/
  | shortBlock
  /-- SUB 4: `e <= 0`. Raised by `CINIT`. -/
  | noParity
  /-- SUB 5: `k + e > 255`. Raised by `CINIT`. -/
  | longBlock
  deriving DecidableEq, Repr

/-- The error causes (60_exceptions.md R280). -/
inductive Cause where
  | illegal
  | config (sub : ConfigSub)
  | notConfigured
  | memRange
  | overlap
  | operand
  | inv0
  | log0
  | div0
  | negDeg
  | capacity
  | length
  deriving DecidableEq, Repr

/-- The decode-failure reasons (44_decoder_stages.md R242). -/
inductive DFReason where
  | kesZero
  | kesDeg
  | kesT0
  | chien
  | corr
  deriving DecidableEq, Repr

/-- How a computation ends early: `raise C` or `fail DF(reason)` (00_scope.md R11). -/
inductive Stop where
  | raise (c : Cause)
  | df (r : DFReason)
  deriving DecidableEq, Repr

/-! ### Registers -/

/-- A polynomial: its coefficients, highest degree first (00_scope.md R12). -/
abbrev Poly := List Byte

/-- `FLAGS` (10_state.md R25). -/
structure Flags where
  z : Bool
  df : Bool
  dfr : BitVec 4
  deriving DecidableEq, Repr

/-- `CTRL` (10_state.md R22). `GO` is a write action and holds nothing. -/
structure Ctrl where
  ieDone : Bool
  ieErr : Bool
  deriving DecidableEq, Repr

/-- `STATUS` (10_state.md R23). -/
structure Status where
  run : Bool
  done : Bool
  err : Bool
  hwe : Bool
  deriving DecidableEq, Repr

/-- `CAUSE` (10_state.md R24). -/
structure CauseReg where
  code : Byte
  sub : Byte
  deriving DecidableEq, Repr

/-- The field: `FIELDCFG` (10_state.md R27) and the two tables (R33), the tuple of 41_field.md R130. -/
structure Field where
  prim : BitVec 9
  gb : Bool
  fieldOk : Bool
  exp : Vector Byte 256
  log : Vector Byte 256
  deriving DecidableEq, Repr

/-- The coder: `CODERCFG` (10_state.md R28, 43_coder.md R210). -/
structure Coder where
  k : Byte
  e : Byte
  coderOk : Bool
  deriving DecidableEq, Repr

/-! ### The host's side -/

/-- The widths of a host access (20_memory.md R64). -/
inductive AccessWidth where
  | byte
  | half
  | word
  deriving DecidableEq, Repr

/-- One host access, at an address of the 17-bit host space (10_state.md R20). -/
inductive HostAccess where
  | read (addr : BitVec 17) (width : AccessWidth)
  | write (addr : BitVec 17) (width : AccessWidth) (value : Word)
  deriving DecidableEq, Repr

/-- What happens next. "A host access happens before a step or after it, never during one"
(70_reset_and_hazards.md R334). -/
inductive Event where
  /-- The sequencer's turn. -/
  | sequencer
  /-- A host access (00_scope.md R16). -/
  | host (access : HostAccess)
  /-- The reset input (70_reset_and_hazards.md R320). -/
  | reset
  deriving DecidableEq, Repr

/-! ### The state -/

/-- The listed bytes of DMEM, in the form `Memory.wf` of Machine/Ops.lean. -/
abbrev Memory := List Host.Cell

/-- The architectural state (10_state.md R37), and below the line the model's own fields. -/
structure State where
  /-- `R0`..`R7` (10_state.md R30). -/
  regs : Vector Half 8
  /-- `P0`..`P7` (10_state.md R32). -/
  polys : Vector Poly 8
  /-- `pc`, the host's `PC` (10_state.md R26). -/
  pc : Half
  /-- `FLAGS` (10_state.md R25). -/
  flags : Flags
  /-- `CTRL` (10_state.md R22). -/
  ctrl : Ctrl
  /-- `STATUS` (10_state.md R23); `STATUS.RUN` is the sequencer's state (R34). -/
  status : Status
  /-- `CAUSE` (10_state.md R24). -/
  cause : CauseReg
  /-- `EPC` (10_state.md R24). -/
  epc : Half
  /-- `INFO` (10_state.md R24). -/
  info : Word
  /-- `FIELDCFG`, `EXP`, `LOG` (10_state.md R27, R33). -/
  field : Field
  /-- `CODERCFG` (10_state.md R28). -/
  coder : Coder
  /-- `DMEM` (20_memory.md R60). -/
  mem : Memory
  /-- MODEL. The parameter `DMEM0` (70_reset_and_hazards.md R321). No step changes it. -/
  dmem0 : Memory
  /-- MODEL. The events to come, oldest first (00_scope.md R17). With none listed it is always the
  sequencer's turn. -/
  inputs : List Event
  /-- MODEL. The value the latest host read returned. -/
  hostData : Word
  /-- MODEL. How many open values have been drawn (93_implementation_defined.md U1, U5). -/
  freeCount : Nat
  deriving DecidableEq, Repr

/-- What stops a step with a fault: nothing. Every error of the spec is an error entry, which is a
next state (60_exceptions.md R281), every other step completes (40_control.md R119), and an idle
sequencer idles (10_state.md R34). -/
inductive Fault where
  deriving DecidableEq, Repr

/-- Why the model has no meaning for a command. -/
inductive Refusal where
  /-- Raised by an arm of `exec` that has no meaning yet; safe. No arm of this model raises it. -/
  | notModelled (mnemonic : String)
  deriving DecidableEq, Repr

/-! ### Reset -/

/-- The state after reset when DMEM holds `dmem0` (70_reset_and_hazards.md R320, R321; 10_state.md R37).
The tables are unspecified there and hold zeros here (log entry 2). -/
def State.resetWith (dmem0 : Memory) : State where
  regs := Vector.replicate 8 0
  polys := Vector.replicate 8 [0]
  pc := 0
  flags := { z := false, df := false, dfr := 0 }
  ctrl := { ieDone := false, ieErr := false }
  status := { run := false, done := false, err := false, hwe := false }
  cause := { code := 0, sub := 0 }
  epc := 0
  info := 0
  field := { prim := 0, gb := false, fieldOk := false,
             exp := Vector.replicate 256 0, log := Vector.replicate 256 0 }
  coder := { k := 0, e := 0, coderOk := false }
  mem := dmem0
  dmem0 := dmem0
  inputs := []
  hostData := 0
  freeCount := 0

/-- The state after reset with nothing listed in DMEM (log entry 1). -/
def State.reset : State := State.resetWith []

end Sys2Proof.Machine
end

