-- ==== Sys2Proof/Machine/Ops.lean ====
section
/-! DEFINITION. The named operations: DMEM, the register files, the checks on memory operands, error
entry, and how every command ends. -/

namespace Sys2Proof.Machine

/-- What a meaning and a step answer. -/
abbrev Result := Host.Outcome State Fault Refusal

/-! ### DMEM (20_memory.md) -/

/-- What an unlisted byte reads as (log entry 1). -/
def Memory.unlisted : Byte := 0

/-- The canonical form: addresses strictly rising and inside DMEM, and no entry equal to what an
unlisted address reads as. -/
abbrev Memory.wf (m : Memory) : Prop :=
  m.Pairwise (fun c d => c.1 < d.1) ∧ ∀ c ∈ m, c.1 < Config.dmemSize ∧ c.2 ≠ Memory.unlisted

/-- The byte at `a`. The search ends at the first higher address. -/
def Memory.read : Memory → Nat → Byte
  | [], _ => Memory.unlisted
  | (b, v) :: m, a => if b < a then Memory.read m a else if b = a then v else Memory.unlisted

/-- Store `v` at `a`, keeping the canonical form. -/
def Memory.write : Memory → Nat → Byte → Memory
  | [], a, v => if v = Memory.unlisted then [] else [(a, v)]
  | (b, w) :: m, a, v =>
    if b < a then (b, w) :: Memory.write m a v
    else if b = a then (if v = Memory.unlisted then m else (a, v) :: m)
    else if v = Memory.unlisted then (b, w) :: m
    else (a, v) :: (b, w) :: m

/-- `MemRead(a, n)` after its check: the `n` bytes from `a` up (00_scope.md R10). -/
def Memory.readBytes (m : Memory) (a : Nat) : Nat → List Byte
  | 0 => []
  | n + 1 => m.read a :: Memory.readBytes m (a + 1) n

/-- `MemWrite(a, n, s)` after its check: the bytes of `s` from `a` up (00_scope.md R10). -/
def Memory.writeBytes (m : Memory) (a : Nat) : List Byte → Memory
  | [] => m
  | b :: bs => Memory.writeBytes (m.write a b) (a + 1) bs

/-- `FetchWord(pc)`, little-endian (20_memory.md R62). -/
def fetchWord (s : State) : Word :=
  let a := s.pc.toNat
  wordOfBytes (s.mem.read a) (s.mem.read (a + 1)) (s.mem.read (a + 2)) (s.mem.read (a + 3))

/-- The state with `w` stored where the sequencer fetches next. -/
def State.placeWord (s : State) (w : Word) : State :=
  { s with mem := s.mem.writeBytes s.pc.toNat (bytesOfWord w) }

/-! ### The register files -/

/-- `R[i]` (10_state.md R30). -/
def State.reg (s : State) (i : RIdx) : Half := s.regs[i.val]

/-- `R[i] <- v` (10_state.md R30). -/
def State.setReg (s : State) (i : RIdx) (v : Half) : State := { s with regs := s.regs.set i.val v }

/-- `P[i]` (10_state.md R32). -/
def State.poly (s : State) (i : PIdx) : Poly := s.polys[i.val]

/-- `P[i] <- p` (10_state.md R32). -/
def State.setPoly (s : State) (i : PIdx) (p : Poly) : State := { s with polys := s.polys.set i.val p }

/-- `MemWrite(a, n, bytes)` on the state. -/
def State.storeBytes (s : State) (a : Nat) (bytes : List Byte) : State :=
  { s with mem := s.mem.writeBytes a bytes }

/-- `MemRead(a, n)` on the state. -/
def State.loadBytes (s : State) (a n : Nat) : List Byte := s.mem.readBytes a n

/-! ### Raising and checking -/

/-- `raise C` (00_scope.md R11). -/
def raise {α : Type} (c : Cause) : Except Stop α := .error (.raise c)

/-- `fail DF(reason)` (00_scope.md R11). -/
def failDF {α : Type} (r : DFReason) : Except Stop α := .error (.df r)

/-- "requires field" (60_exceptions.md R287). -/
def requireField (s : State) : Except Stop Unit :=
  if s.field.fieldOk then .ok () else raise .notConfigured

/-- "requires coder" (60_exceptions.md R287). -/
def requireCoder (s : State) : Except Stop Unit :=
  if s.coder.coderOk then .ok () else raise .notConfigured

/-- The operand `(a, n)` lies inside DMEM (20_memory.md R66). -/
abbrev InRange (a n : Nat) : Prop := n = 0 ∨ a + n ≤ Config.dmemSize

/-- "check (a, n)" (20_memory.md R66). -/
def checkRange (a n : Nat) : Except Stop Unit :=
  if InRange a n then .ok () else raise .memRange

/-- `overlap((a, n), (b, m))` (20_memory.md R67). -/
abbrev Overlap (a n b m : Nat) : Prop := n > 0 ∧ m > 0 ∧ a < b + m ∧ b < a + n

/-- "if overlap(…): raise OVERLAP" (20_memory.md R67). -/
def checkOverlap (a n b m : Nat) : Except Stop Unit :=
  if Overlap a n b m then raise .overlap else .ok ()

/-- The capacity of a polynomial register, checked on the normalized result (42_polynomial.md R178). -/
def checkCapacity (p : Poly) : Except Stop Unit :=
  if p.length - 1 > Config.maxDegree then raise .capacity else .ok ()

/-! ### Error entry (60_exceptions.md R281) -/

/-- `CAUSE.CODE` (60_exceptions.md R280). -/
def Cause.code : Cause → Byte
  | .illegal => 0x01
  | .config _ => 0x02
  | .notConfigured => 0x03
  | .memRange => 0x04
  | .overlap => 0x05
  | .operand => 0x06
  | .inv0 => 0x07
  | .log0 => 0x08
  | .div0 => 0x09
  | .negDeg => 0x0A
  | .capacity => 0x0B
  | .length => 0x0C

/-- The number of a `CONFIG` sub-cause (60_exceptions.md R282). -/
def ConfigSub.code : ConfigSub → Byte
  | .degree => 1
  | .notPrimitive => 2
  | .shortBlock => 3
  | .noParity => 4
  | .longBlock => 5

/-- `CAUSE.SUB`: 0 unless the cause is `CONFIG` (60_exceptions.md R282). -/
def Cause.sub : Cause → Byte
  | .config c => c.code
  | _ => 0

/-- Error entry for the command at `pc` (60_exceptions.md R281). In this model `pc` still holds `epc`,
the address of the command, while it runs (log entry 5), so "`pc <- epc`" leaves it. `INFO` is the
word that was fetched there. -/
def State.errorEntry (s : State) (c : Cause) : State :=
  { s with
    cause := { code := c.code, sub := c.sub }
    epc := s.pc
    info := fetchWord s
    status := { s.status with run := false, err := true } }

/-- "`pc <- (pc + 4) mod 0x10000`" (40_control.md R112, R118). -/
def State.advance (s : State) : State := { s with pc := s.pc + 4 }

end Sys2Proof.Machine
end

