-- ==== Sys2Proof/Machine/Operands.lean ====
section
/-! DEFINITION. The operand forms (30_encoding.md R93): how a command reads an `R` register. -/

namespace Sys2Proof.Machine

/-- A field-element operand: `R[f][7:0]`, bits 15:8 ignored (41_field.md R140). -/
def State.elem (s : State) (i : RIdx) : Byte := (s.reg i).extractLsb' 0 8

/-- An address, a length, a power or a count: unsigned 16 bits (30_encoding.md R93). -/
def State.unsigned (s : State) (i : RIdx) : Nat := (s.reg i).toNat

/-- The degree of `PMONO` and the operands of `CINIT`: `sint16` (30_encoding.md R93). -/
def State.signed (s : State) (i : RIdx) : Int := (s.reg i).toInt

/-- `zext_16` of a byte result (41_field.md R140). -/
def zext16 (v : Byte) : Half := v.setWidth 16

end Sys2Proof.Machine
end

