-- ==== Sys2Proof/Machine/Flags.lean ====
section
/-! DEFINITION. Every write of `FLAGS` by a command (10_state.md R25), and how a command ends. -/

namespace Sys2Proof.Machine

/-- The value of `FLAGS.DFR` for a reason (44_decoder_stages.md R242). -/
def DFReason.code : DFReason → BitVec 4
  | .kesZero => 1
  | .kesDeg => 2
  | .kesT0 => 3
  | .chien => 4
  | .corr => 5

/-- `df(reason)`: `DF` and `DFR` and nothing else (44_decoder_stages.md R241). -/
def State.decodeFail (s : State) (r : DFReason) : State :=
  { s with flags := { s.flags with df := true, dfr := r.code } }

/-- "`FLAGS.Z <- 1 if S_i == 0 for every i in [0, E), else 0`" (44_decoder_stages.md R250). -/
def State.setZ (s : State) (z : Bool) : State := { s with flags := { s.flags with z := z } }

/-- "`FLAGS.Z <- 0; FLAGS.DF <- 0; FLAGS.DFR <- 0`" (40_control.md R117). -/
def State.clearFlags (s : State) : State := { s with flags := { z := false, df := false, dfr := 0 } }

/-- How a command at `s` ends. It completes with its writes and the advance of `pc`
(40_control.md R112), or it raises an error, and then nothing it computed is written
(40_control.md R111, 60_exceptions.md R281), or its outcome is a decode failure, which writes two
flags and completes (44_decoder_stages.md R241). -/
def command (s : State) : Except Stop State → Result
  | .ok t => .next t.advance
  | .error (.raise c) => .next (s.errorEntry c)
  | .error (.df r) => .next (s.decodeFail r).advance

end Sys2Proof.Machine
end

