-- ==== Sys2Proof/Machine/FieldArith.lean ====
section
/-! DEFINITION. The field GF(2^8): table construction and the pure field functions
(41_field.md R130–R138). -/

namespace Sys2Proof.Machine

/-! ### Table construction (41_field.md R131, R132, R133) -/

/-- One doubling of the 9-bit working value, reduced by `prim` and masked to 8 bits when it reaches 256
(41_field.md R131). -/
def gfDouble (prim : BitVec 9) (x : Byte) : Byte :=
  let y : BitVec 9 := x.setWidth 9 <<< 1
  if y.toNat ≥ 256 then (y ^^^ prim).setWidth 8 else y.setWidth 8

/-- `n` successive values of the working value, from `x` on. -/
def powersFrom (prim : BitVec 9) : Nat → Byte → List Byte
  | 0, _ => []
  | n + 1, x => x :: powersFrom prim n (gfDouble prim x)

theorem powersFrom_length (prim : BitVec 9) (n : Nat) (x : Byte) : (powersFrom prim n x).length = n := by
  induction n generalizing x with
  | zero => rfl
  | succ n ih => simp [powersFrom, ih]

/-- `exp[0..255]` (41_field.md R131). -/
def buildExp (prim : BitVec 9) : Vector Byte 256 :=
  ⟨(powersFrom prim 256 1).toArray, by simp [powersFrom_length]⟩

/-- "`log[x] <- i`" for the values of a list and `i` counting up (41_field.md R131). -/
def setLogs : List Byte → Nat → Vector Byte 256 → Vector Byte 256
  | [], _, log => log
  | x :: xs, i, log => setLogs xs (i + 1) (log.set x.toNat (BitVec.ofNat 8 i) x.isLt)

/-- `log[0..255]`: set from `exp[0..254]`, the wraparound entry sets none (41_field.md R131), and
`log[0] <- 0` at the end (R133). -/
def buildLog (prim : BitVec 9) : Vector Byte 256 :=
  (setLogs (powersFrom prim 255 1) 0 (Vector.replicate 256 0)).set 0 0

/-- Whether no value of the list repeats or stands in `seen`, a set of bytes as a bit mask. -/
def distinctFrom : Nat → List Byte → Bool
  | _, [] => true
  | seen, x :: xs => !seen.testBit x.toNat && distinctFrom (seen ||| 1 <<< x.toNat) xs

/-- Check (2) of 41_field.md R132: `exp[0..254]` are pairwise distinct. -/
def isPrimitive (prim : BitVec 9) : Bool := distinctFrom 0 (powersFrom prim 255 1)

/-! ### Field functions (41_field.md R134–R138) -/

/-- `EXP[i]`; every caller passes `i` in `0..255` (41_field.md R137). -/
def gfExp (F : Field) (i : Nat) : Byte := F.exp[i % 256]

/-- `LOG[a]` without the check of R138. -/
def Field.logEntry (F : Field) (a : Byte) : Nat := (F.log[a.toNat]'a.isLt).toNat

/-- `gf_add(a, b)` (41_field.md R134). -/
def gfAdd (a b : Byte) : Byte := a ^^^ b

/-- `gf_mul(a, b)` (41_field.md R135). -/
def gfMul (F : Field) (a b : Byte) : Byte :=
  if a = 0 ∨ b = 0 then 0 else gfExp F ((F.logEntry a + F.logEntry b) % 255)

/-- `gf_inv(a)` (41_field.md R136). -/
def gfInv (F : Field) (a : Byte) : Except Stop Byte :=
  if a = 0 then raise .inv0 else .ok (gfExp F (255 - F.logEntry a))

/-- `gf_log(a)` (41_field.md R138). -/
def gfLog (F : Field) (a : Byte) : Except Stop Nat :=
  if a = 0 then raise .log0 else .ok (F.logEntry a)

/-- The generator base as the number it stands for (10_state.md R27). -/
def Field.base (F : Field) : Nat := F.gb.toNat

end Sys2Proof.Machine
end

