-- ==== Sys2Proof/Machine/PolyArith.lean ====
section
/-! DEFINITION. The pure polynomial functions and the generator polynomial
(42_polynomial.md R160–R170, R176). -/

namespace Sys2Proof.Machine

/-- `Zero = [0]` (42_polynomial.md R161). -/
def zeroPoly : Poly := [0]

/-- `One = [1]` (42_polynomial.md R161). -/
def onePoly : Poly := [1]

/-- `zeros(n)`. -/
def zeros (n : Nat) : List Byte := List.replicate n 0

/-- `normalize(c)` (42_polynomial.md R160). -/
def normalize : List Byte → Poly
  | [] => zeroPoly
  | c :: cs => if c = 0 then normalize cs else c :: cs

/-- `isZero(p)` (42_polynomial.md R161). -/
abbrev isZero (p : Poly) : Prop := p = zeroPoly

/-- `deg(p) = len(p) - 1` (42_polynomial.md R162). -/
def deg (p : Poly) : Nat := p.length - 1

/-- `lead(p) = p[0]` (00_scope.md R12). -/
def lead (p : Poly) : Byte := p.headD 0

/-- `coefAt(p, j)` (42_polynomial.md R163). -/
def coefAt (p : Poly) (j : Nat) : Byte := if j ≤ deg p then p.getD (deg p - j) 0 else 0

/-- The loop of Horner's rule from the value `r` over the coefficients left (42_polynomial.md R164). -/
def hornerFrom (F : Field) (x : Byte) : Byte → List Byte → Byte
  | r, [] => r
  | r, c :: cs => hornerFrom F x (gfMul F x r ^^^ c) cs

/-- `p[0] ⊕ p[1] ⊕ … ⊕ p[len(p)-1]` (42_polynomial.md R164). -/
def xorSum : List Byte → Byte
  | [] => 0
  | c :: cs => c ^^^ xorSum cs

/-- `eval(p, x)` (42_polynomial.md R164). -/
def eval (F : Field) (p : Poly) (x : Byte) : Byte :=
  if x = 0 then p.getLastD 0
  else if x = 1 then xorSum p
  else hornerFrom F x (lead p) p.tail

/-- Zero-extend at the high-degree end to `n` coefficients (42_polynomial.md R165). -/
def padLeft (n : Nat) (p : List Byte) : List Byte := zeros (n - p.length) ++ p

/-- `padd(p, q)` (42_polynomial.md R165). -/
def polyAdd (p q : Poly) : Poly :=
  let n := max p.length q.length
  normalize (List.zipWith (· ^^^ ·) (padLeft n p) (padLeft n q))

/-- The coefficient vector of the full convolution, not yet normalized: row `i` adds
`gf_mul(p[i], q[j])` into `c[i+j]` (42_polynomial.md R166). -/
def convolve (F : Field) : List Byte → List Byte → List Byte
  | [], q => zeros (q.length - 1)
  | a :: p, q => List.zipWith (· ^^^ ·) (q.map (gfMul F a) ++ zeros p.length) (0 :: convolve F p q)

/-- `pmul(p, q)` (42_polynomial.md R166). -/
def polyMul (F : Field) (p q : Poly) : Poly :=
  if isZero p ∨ isZero q then zeroPoly else normalize (convolve F p q)

/-- `pscale(p, s)` (42_polynomial.md R167). -/
def polyScale (F : Field) (p : Poly) (s : Byte) : Poly :=
  if s = 0 then zeroPoly else if s = 1 then p else normalize (p.map fun c => gfMul F c s)

/-- `pmono(p, d, c)` for `d >= 0` (42_polynomial.md R168). -/
def polyShift (F : Field) (p : Poly) (d : Nat) (c : Byte) : Poly :=
  if c = 0 then zeroPoly else normalize (p.map (fun a => gfMul F a c) ++ zeros d)

/-- `pmono(p, d, c)` (42_polynomial.md R168). -/
def polyMono (F : Field) (p : Poly) (d : Int) (c : Byte) : Except Stop Poly :=
  if d < 0 then raise .negDeg else .ok (polyShift F p d.toNat c)

/-- `monomial(d, c)` (42_polynomial.md R169). -/
def monomial (d : Nat) (c : Byte) : Poly := if c = 0 then zeroPoly else c :: zeros d

/-- The loop of long division (42_polynomial.md R170), `fuel` passes at most. -/
def divLoop (F : Field) (b : Poly) (invLead : Byte) : Nat → Poly → Poly → Poly × Poly
  | 0, q, r => (q, r)
  | fuel + 1, q, r =>
    if deg b ≤ deg r ∧ ¬ isZero r then
      let dd := deg r - deg b
      let scale := gfMul F (lead r) invLead
      divLoop F b invLead fuel (polyAdd q (monomial dd scale)) (polyAdd r (polyShift F b dd scale))
    else (q, r)

/-- `pdiv(a, b)` (42_polynomial.md R170). `len(a)` passes are enough in a valid field, where the loop
runs at most `deg(a) - deg(b) + 1` times (log entry 6). -/
def polyDiv (F : Field) (a b : Poly) : Except Stop (Poly × Poly) :=
  if isZero b then raise .div0
  else do
    let invLead ← gfInv F (lead b)
    return divLoop F b invLead a.length zeroPoly a

/-- `generator(d)` (42_polynomial.md R176). -/
def generator (F : Field) : Nat → Poly
  | 0 => onePoly
  | d + 1 => polyMul F (generator F d) [1, gfExp F (d + F.base)]

end Sys2Proof.Machine
end

