-- ==== Sys2Proof/Machine/StageArith.lean ====
section
/-! DEFINITION. The decoder's five stages as pure functions (44_decoder_stages.md R243–R249). -/

namespace Sys2Proof.Machine

/-- `syndromes(B)` (44_decoder_stages.md R243). -/
def syndromes (F : Field) (e : Nat) (block : List Byte) : List Byte :=
  let c := normalize block
  (List.range e).map fun i => eval F c (gfExp F (i + F.base))

/-- `synd_poly(S)`, with `S_i` the coefficient of `x^i` (44_decoder_stages.md R244). -/
def syndPoly (S : List Byte) : Poly := normalize S.reverse

/-- "`S_i == 0` for every `i`" (43_coder.md R216, 44_decoder_stages.md R250). -/
def allZero (S : List Byte) : Bool := S.all (· = 0)

/-- The loop of the Euclidean key-equation solver (44_decoder_stages.md R245), from `rLast`, `r`,
`tLast`, `t` to the final `(t, r)`. A pass lowers `deg(r)` or fails, so `len(Sp)` passes are always
enough, and the case of no fuel left inside the loop is never met (log entry 7). -/
def euclidLoop (F : Field) (e : Nat) : Nat → Poly → Poly → Poly → Poly → Except Stop (Poly × Poly)
  | 0, _, r, _, t => if 2 * deg r ≥ e then failDF .kesDeg else .ok (t, r)
  | fuel + 1, rLast, r, tLast, t =>
    if 2 * deg r ≥ e then
      if isZero r then failDF .kesZero
      else do
        let (q, r') ← polyDiv F rLast r
        let t' := polyAdd (polyMul F q t) tLast
        if deg r' ≥ deg r then failDF .kesDeg
        else euclidLoop F e fuel r r' t t'
    else .ok (t, r)

/-- `euclid(Sp)`, giving `(sigma, omega)` (44_decoder_stages.md R245). -/
def euclid (F : Field) (e : Nat) (sp : Poly) : Except Stop (Poly × Poly) := do
  let (t, r) ← euclidLoop F e sp.length (monomial e 1) sp zeroPoly onePoly
  let t0 := coefAt t 0
  if t0 = 0 then failDF .kesT0
  else do
    let u ← gfInv F t0
    return (polyScale F t u, polyScale F r u)

/-- The candidates `1, 2, …, 255` in byte order (44_decoder_stages.md R247). -/
def chienCandidates : List Byte := (List.range 255).map fun i => BitVec.ofNat 8 (i + 1)

/-- The loop of the Chien search for `n` roots (44_decoder_stages.md R247). -/
def chienFrom (F : Field) (sigma : Poly) (n : Nat) : List Byte → List Byte → Except Stop (List Byte)
  | [], locs => if locs.length < n then failDF .chien else .ok locs
  | x :: xs, locs =>
    if locs.length < n then
      if eval F sigma x = 0 then do
        let loc ← gfInv F x
        chienFrom F sigma n xs (locs ++ [loc])
      else chienFrom F sigma n xs locs
    else .ok locs

/-- `chien(sigma)` (44_decoder_stages.md R247). -/
def chien (F : Field) (sigma : Poly) : Except Stop (List Byte) :=
  chienFrom F sigma (deg sigma) chienCandidates []

/-- The denominator of Forney's formula: the product of `term ⊕ 1` over the other locations
(44_decoder_stages.md R248). -/
def forneyDen (F : Field) (xinv : Byte) (others : List Byte) : Byte :=
  others.foldl (fun den xj => gfMul F den (gfMul F xj xinv ^^^ 1)) 1

/-- The magnitude at location `i` of `locs` (44_decoder_stages.md R248). -/
def forneyAt (F : Field) (omega : Poly) (locs : List Byte) (i : Nat) (xi : Byte) : Except Stop Byte := do
  let xinv ← gfInv F xi
  let denInv ← gfInv F (forneyDen F xinv (locs.eraseIdx i))
  let m := gfMul F (eval F omega xinv) denInv
  return if F.base ≠ 0 then gfMul F m xinv else m

/-- The magnitudes from location `i` on. -/
def forneyFrom (F : Field) (omega : Poly) (locs : List Byte) : Nat → List Byte → Except Stop (List Byte)
  | _, [] => .ok []
  | i, xi :: rest => do
    let m ← forneyAt F omega locs i xi
    let ms ← forneyFrom F omega locs (i + 1) rest
    return m :: ms

/-- `forney(omega, locs)` (44_decoder_stages.md R248). -/
def forney (F : Field) (omega : Poly) (locs : List Byte) : Except Stop (List Byte) :=
  forneyFrom F omega locs 0 locs

/-- The byte offsets `p_i = N - 1 - gf_log(X_i)`, every one checked (44_decoder_stages.md R249). -/
def positions (F : Field) (n : Nat) : List Byte → Except Stop (List Nat)
  | [] => .ok []
  | x :: xs => do
    let l ← gfLog F x
    if (n : Int) - 1 - l < 0 then failDF .corr
    else do
      let ps ← positions F n xs
      return (n - 1 - l) :: ps

/-- "`B'[p_i] <- B'[p_i] ⊕ M_i`" in list order (44_decoder_stages.md R249). -/
def applyCorrections : List Byte → List (Nat × Byte) → List Byte
  | block, [] => block
  | block, (p, m) :: rest => applyCorrections (block.modify p (· ^^^ m)) rest

/-- `correct(B, locs, mags)` (44_decoder_stages.md R249). -/
def correct (F : Field) (n : Nat) (block locs mags : List Byte) : Except Stop (List Byte) := do
  let ps ← positions F n locs
  return applyCorrections block (ps.zip mags)

end Sys2Proof.Machine
end

