-- ==== Sys2Proof/Machine/CoderArith.lean ====
section
/-! DEFINITION. Segmentation, the encoder and the decoder pipeline of one block
(43_coder.md R210, R212–R217). -/

namespace Sys2Proof.Machine

/-- `K` as a number. -/
def Coder.dataLen (C : Coder) : Nat := C.k.toNat

/-- `E` as a number. -/
def Coder.parityLen (C : Coder) : Nat := C.e.toNat

/-- `N = K + E` (43_coder.md R210). -/
def Coder.blockLen (C : Coder) : Nat := C.dataLen + C.parityLen

/-- `ceil(len / n)` (43_coder.md R212, R215). -/
def blockCount (len n : Nat) : Nat := (len + n - 1) / n

/-- Block `b` of the segmentation into blocks of `n` bytes, followed by zero bytes up to `n`
(43_coder.md R212, R215). -/
def blockAt (data : List Byte) (n b : Nat) : List Byte :=
  let part := (data.drop (b * n)).take n
  part ++ zeros (n - part.length)

/-- All blocks of a buffer, in order (43_coder.md R212, R215). -/
def segments (data : List Byte) (n : Nat) : List (List Byte) :=
  (List.range (blockCount data.length n)).map (blockAt data n)

/-- `encode_block(D)` (43_coder.md R213). -/
def encodeBlock (F : Field) (C : Coder) (block : List Byte) : Except Stop (List Byte) := do
  let shifted := polyShift F (normalize block) C.parityLen 1
  let (_, r) ← polyDiv F shifted (generator F C.parityLen)
  return block ++ padLeft C.parityLen r

/-- The output of the encoder: the encoded blocks one after another (43_coder.md R214). -/
def encodeBlocks (F : Field) (C : Coder) : List (List Byte) → Except Stop (List Byte)
  | [] => .ok []
  | b :: bs => do
    let out ← encodeBlock F C b
    let rest ← encodeBlocks F C bs
    return out ++ rest

/-- `decode_block(B)` (43_coder.md R216). -/
def decodeBlock (F : Field) (C : Coder) (block : List Byte) : Except Stop (List Byte) :=
  let S := syndromes F C.parityLen block
  if allZero S then .ok (block.take C.dataLen)
  else do
    let (sigma, omega) ← euclid F C.parityLen (syndPoly S)
    let locs ← chien F sigma
    let mags ← forney F omega locs
    let fixed ← correct F C.blockLen block locs mags
    return fixed.take C.dataLen

/-- `MARKER[0..10]` (43_coder.md R217). -/
def markerBytes : List Byte := (List.finRange 11).map fun i => (Config.marker i).setWidth 8

/-- `MB = MARKER[0..10] ‖ FILLER^(K-11)` (43_coder.md R217). -/
def markerBlock (C : Coder) : List Byte :=
  markerBytes ++ List.replicate (C.dataLen - Config.markerLen) Config.filler

/-- What the decoder's loop has gathered (43_coder.md R222). -/
structure DecodeTally where
  out : List Byte
  fails : Nat
  last : Option DFReason
  deriving DecidableEq, Repr

/-- The decoder's loop over the blocks (43_coder.md R222): a failed block gives `MB` and is counted, and
the last reason met is the one of the highest-numbered failed block. -/
def decodeBlocks (F : Field) (C : Coder) : List (List Byte) → DecodeTally → Except Stop DecodeTally
  | [], acc => .ok acc
  | b :: bs, acc =>
    match decodeBlock F C b with
    | .ok v => decodeBlocks F C bs { acc with out := acc.out ++ v }
    | .error (.df r) =>
      decodeBlocks F C bs { out := acc.out ++ markerBlock C, fails := acc.fails + 1, last := some r }
    | .error (.raise c) => raise c

end Sys2Proof.Machine
end

