-- ==== Sys2Proof/Machine/CoderCommands.lean ====
section
/-! DEFINITION. The coder commands `CINIT`, `ENC`, `DEC` (43_coder.md R211, R214, R222). -/

namespace Sys2Proof.Machine

/-- What a successful `CINIT` writes (43_coder.md R211). -/
def State.installCoder (s : State) (k e : Int) : State :=
  { s with coder := { k := BitVec.ofInt 8 k, e := BitVec.ofInt 8 e, coderOk := true } }

/-- `CINIT` (43_coder.md R211). -/
def execCinit (fa fb : RIdx) (s : State) : Result :=
  command s do
    requireField s
    let k := s.signed fa
    let e := s.signed fb
    if k < (Config.markerLen : Int) then raise (.config .shortBlock)
    else if e ≤ 0 then raise (.config .noParity)
    else if k + e > (Config.maxBlock : Int) then raise (.config .longBlock)
    else return s.installCoder k e

/-- `ENC` (43_coder.md R214). -/
def execEnc (fd fa fb fc : RIdx) (s : State) : Result :=
  command s do
    requireCoder s
    let src := s.unsigned fa
    let len := s.unsigned fb
    let dst := s.unsigned fc
    let outlen := blockCount len s.coder.dataLen * s.coder.blockLen
    checkRange src len
    if outlen > 0xFFFF then raise .memRange
    else do
      checkRange dst outlen
      checkOverlap src len dst outlen
      let out ← encodeBlocks s.field s.coder (segments (s.loadBytes src len) s.coder.dataLen)
      return (s.storeBytes dst out).setReg fd (BitVec.ofNat 16 outlen)

/-- The end of `DEC`: the output, the failure count, and on any failure `DF` and the reason of the
highest-numbered failed block (43_coder.md R222). -/
def State.finishDecode (s : State) (fd : RIdx) (dst : Nat) (t : DecodeTally) : State :=
  let s' := (s.storeBytes dst t.out).setReg fd (BitVec.ofNat 16 t.fails)
  match t.last with
  | none => s'
  | some r => s'.decodeFail r

/-- `DEC` (43_coder.md R222). -/
def execDec (fd fa fb fc : RIdx) (s : State) : Result :=
  command s do
    requireCoder s
    let src := s.unsigned fa
    let len := s.unsigned fb
    let dst := s.unsigned fc
    let outlen := blockCount len s.coder.blockLen * s.coder.dataLen
    checkRange src len
    checkRange dst outlen
    checkOverlap src len dst outlen
    let tally ← decodeBlocks s.field s.coder (segments (s.loadBytes src len) s.coder.blockLen)
      { out := [], fails := 0, last := none }
    return s.finishDecode fd dst tally

end Sys2Proof.Machine
end

