-- ==== Sys2Proof/Machine/Control.lean ====
section
/-! DEFINITION. The control commands `END`, `NOP`, `LI`, `CLRF` (40_control.md R114–R117). -/

namespace Sys2Proof.Machine

/-- `END`: "`STATUS.RUN <- 0; STATUS.DONE <- 1`" (40_control.md R114). -/
def execEnd (s : State) : Result :=
  command s (.ok { s with status := { s.status with run := false, done := true } })

/-- `NOP` (40_control.md R115). -/
def execNop (s : State) : Result := command s (.ok s)

/-- `LI`: "`R[fd] <- imm16`" (40_control.md R116). -/
def execLi (fd : RIdx) (imm : Half) (s : State) : Result := command s (.ok (s.setReg fd imm))

/-- `CLRF` (40_control.md R117). -/
def execClrf (s : State) : Result := command s (.ok s.clearFlags)

end Sys2Proof.Machine
end

