-- ==== Sys2Proof/Machine/FieldCommands.lean ====
section
/-! DEFINITION. The field commands (41_field.md R145–R150). -/

namespace Sys2Proof.Machine

/-- What a successful `FINIT` writes: the field, and a coder of all zeros (41_field.md R145). -/
def State.installField (s : State) (prim : BitVec 9) (gb : Bool) : State :=
  { s with
    field := { prim := prim, gb := gb, fieldOk := true, exp := buildExp prim, log := buildLog prim }
    coder := { k := 0, e := 0, coderOk := false } }

/-- `FINIT`: `prim = imm16[8:0]`, `gb = imm16[9]` (41_field.md R145). -/
def execFinit (imm : Half) (s : State) : Result :=
  let prim := imm.extractLsb' 0 9
  let gb := imm.getLsbD 9
  command s <|
    if prim.getLsbD 8 = false then raise (.config .degree)
    else if isPrimitive prim = false then raise (.config .notPrimitive)
    else .ok (s.installField prim gb)

/-- `GFADD` (41_field.md R146). It needs no field (R141). -/
def execGfadd (fd fa fb : RIdx) (s : State) : Result :=
  command s (.ok (s.setReg fd (zext16 (gfAdd (s.elem fa) (s.elem fb)))))

/-- `GFMUL` (41_field.md R147). -/
def execGfmul (fd fa fb : RIdx) (s : State) : Result :=
  command s do
    requireField s
    return s.setReg fd (zext16 (gfMul s.field (s.elem fa) (s.elem fb)))

/-- `GFINV` (41_field.md R148). -/
def execGfinv (fd fa : RIdx) (s : State) : Result :=
  command s do
    requireField s
    let v ← gfInv s.field (s.elem fa)
    return s.setReg fd (zext16 v)

/-- `GFEXP` (41_field.md R149). -/
def execGfexp (fd fa : RIdx) (s : State) : Result :=
  command s do
    requireField s
    return s.setReg fd (zext16 (gfExp s.field (s.elem fa).toNat))

/-- `GFLOG` (41_field.md R150). -/
def execGflog (fd fa : RIdx) (s : State) : Result :=
  command s do
    requireField s
    let v ← gfLog s.field (s.elem fa)
    return s.setReg fd (BitVec.ofNat 16 v)

end Sys2Proof.Machine
end

