-- ==== Sys2Proof/Machine/PolyCommands.lean ====
section
/-! DEFINITION. The polynomial commands (42_polynomial.md R179–R198). -/

namespace Sys2Proof.Machine

/-- `PLD` (42_polynomial.md R179). -/
def execPld (fd : PIdx) (fa fb : RIdx) (s : State) : Result :=
  command s do
    let a := s.unsigned fa
    let n := s.unsigned fb
    checkRange a n
    let p := normalize (s.loadBytes a n)
    checkCapacity p
    return s.setPoly fd p

/-- `PST` (42_polynomial.md R180). -/
def execPst (fa : PIdx) (fb fc : RIdx) (s : State) : Result :=
  command s do
    let p := s.poly fa
    let a := s.unsigned fb
    let n := s.unsigned fc
    if p.length > n then raise .length
    else do
      checkRange a n
      return s.storeBytes a (padLeft n p)

/-- `PCONST` (42_polynomial.md R181). -/
def execPconst (fd : PIdx) (fa : RIdx) (s : State) : Result :=
  command s (.ok (s.setPoly fd (normalize [s.elem fa])))

/-- `PADD` (42_polynomial.md R190). -/
def execPadd (fd fa fb : PIdx) (s : State) : Result :=
  command s (.ok (s.setPoly fd (polyAdd (s.poly fa) (s.poly fb))))

/-- `PMUL` (42_polynomial.md R191). -/
def execPmul (fd fa fb : PIdx) (s : State) : Result :=
  command s do
    requireField s
    let p := polyMul s.field (s.poly fa) (s.poly fb)
    checkCapacity p
    return s.setPoly fd p

/-- `PSCL` (42_polynomial.md R192). -/
def execPscl (fd fa : PIdx) (fb : RIdx) (s : State) : Result :=
  command s do
    requireField s
    return s.setPoly fd (polyScale s.field (s.poly fa) (s.elem fb))

/-- `PMONO` (42_polynomial.md R193). -/
def execPmono (fd fa : PIdx) (fb fc : RIdx) (s : State) : Result :=
  command s do
    requireField s
    let p ← polyMono s.field (s.poly fa) (s.signed fb) (s.elem fc)
    checkCapacity p
    return s.setPoly fd p

/-- `PDIV`: the quotient into `P[fd]`, then the remainder into `P[fc]` (42_polynomial.md R194). -/
def execPdiv (fd fa fb fc : PIdx) (s : State) : Result :=
  command s do
    requireField s
    let (q, r) ← polyDiv s.field (s.poly fa) (s.poly fb)
    return (s.setPoly fd q).setPoly fc r

/-- `PEVAL` (42_polynomial.md R195). -/
def execPeval (fd : RIdx) (fa : PIdx) (fb : RIdx) (s : State) : Result :=
  command s do
    requireField s
    return s.setReg fd (zext16 (eval s.field (s.poly fa) (s.elem fb)))

/-- `PDEG` (42_polynomial.md R196). -/
def execPdeg (fd : RIdx) (fa : PIdx) (s : State) : Result :=
  command s (.ok (s.setReg fd (BitVec.ofNat 16 (deg (s.poly fa)))))

/-- `PCOEF` (42_polynomial.md R197). -/
def execPcoef (fd : RIdx) (fa : PIdx) (fb : RIdx) (s : State) : Result :=
  command s (.ok (s.setReg fd (zext16 (coefAt (s.poly fa) (s.unsigned fb)))))

/-- `PGEN` (42_polynomial.md R198). -/
def execPgen (fd : PIdx) (fa : RIdx) (s : State) : Result :=
  command s do
    requireField s
    let d := s.unsigned fa
    if d > Config.maxDegree then raise .capacity
    else return s.setPoly fd (generator s.field d)

end Sys2Proof.Machine
end

