-- ==== Sys2Proof/Machine/StageCommands.lean ====
section
/-! DEFINITION. The decoder-stage commands (44_decoder_stages.md R250–R254). -/

namespace Sys2Proof.Machine

/-- `SYND` (44_decoder_stages.md R250). -/
def execSynd (fd : PIdx) (fa : RIdx) (s : State) : Result :=
  command s do
    requireCoder s
    let a := s.unsigned fa
    checkRange a s.coder.blockLen
    let S := syndromes s.field s.coder.parityLen (s.loadBytes a s.coder.blockLen)
    return (s.setPoly fd (syndPoly S)).setZ (allZero S)

/-- `KES`: `sigma` into `P[fd]`, then `omega` into `P[fc]` (44_decoder_stages.md R251). -/
def execKes (fd fa fc : PIdx) (s : State) : Result :=
  command s do
    requireCoder s
    let sp := s.poly fa
    if deg sp ≥ s.coder.parityLen then raise .operand
    else do
      let (sigma, omega) ← euclid s.field s.coder.parityLen sp
      return (s.setPoly fd sigma).setPoly fc omega

/-- `CHIEN` (44_decoder_stages.md R252). -/
def execChien (fd : RIdx) (fa : PIdx) (fc : RIdx) (s : State) : Result :=
  command s do
    requireField s
    let sigma := s.poly fa
    let dst := s.unsigned fc
    let n := deg sigma
    checkRange dst n
    let locs ← chien s.field sigma
    return (s.storeBytes dst locs).setReg fd (BitVec.ofNat 16 n)

/-- `FORNEY` (44_decoder_stages.md R253). -/
def execForney (fd : RIdx) (fa : PIdx) (fb fc : RIdx) (s : State) : Result :=
  command s do
    requireField s
    let omega := s.poly fa
    let loc := s.unsigned fb
    let n := s.unsigned fc
    let dst := s.unsigned fd
    checkRange loc n
    checkRange dst n
    checkOverlap loc n dst n
    let mags ← forney s.field omega (s.loadBytes loc n)
    return s.storeBytes dst mags

/-- `CORR` (44_decoder_stages.md R254). -/
def execCorr (fd fa fb fc : RIdx) (s : State) : Result :=
  command s do
    requireCoder s
    let blk := s.unsigned fd
    let loc := s.unsigned fa
    let mag := s.unsigned fb
    let n := s.unsigned fc
    checkRange blk s.coder.blockLen
    checkRange loc n
    checkRange mag n
    checkOverlap loc n blk s.coder.blockLen
    checkOverlap mag n blk s.coder.blockLen
    let fixed ← correct s.field s.coder.blockLen (s.loadBytes blk s.coder.blockLen)
      (s.loadBytes loc n) (s.loadBytes mag n)
    return s.storeBytes blk fixed

end Sys2Proof.Machine
end

