-- ==== Sys2Proof/Machine/Dispatch.lean ====
section
/-! DEFINITION. The meaning of every command, one arm each (40_control.md R112 "execute row's command
rule"). -/

namespace Sys2Proof.Machine

/-- The meaning of a command at a state whose `pc` is the command's address. -/
def exec (i : Instr) (s : State) : Host.Outcome State Fault Refusal :=
  match i with
  | .endRun => Sys2Proof.Machine.execEnd s
  | .nop => Sys2Proof.Machine.execNop s
  | .li fd imm => Sys2Proof.Machine.execLi fd imm s
  | .clrf => Sys2Proof.Machine.execClrf s
  | .finit imm => Sys2Proof.Machine.execFinit imm s
  | .gfadd fd fa fb => Sys2Proof.Machine.execGfadd fd fa fb s
  | .gfmul fd fa fb => Sys2Proof.Machine.execGfmul fd fa fb s
  | .gfinv fd fa => Sys2Proof.Machine.execGfinv fd fa s
  | .gfexp fd fa => Sys2Proof.Machine.execGfexp fd fa s
  | .gflog fd fa => Sys2Proof.Machine.execGflog fd fa s
  | .pld fd fa fb => Sys2Proof.Machine.execPld fd fa fb s
  | .pst fa fb fc => Sys2Proof.Machine.execPst fa fb fc s
  | .pconst fd fa => Sys2Proof.Machine.execPconst fd fa s
  | .padd fd fa fb => Sys2Proof.Machine.execPadd fd fa fb s
  | .pmul fd fa fb => Sys2Proof.Machine.execPmul fd fa fb s
  | .pscl fd fa fb => Sys2Proof.Machine.execPscl fd fa fb s
  | .pmono fd fa fb fc => Sys2Proof.Machine.execPmono fd fa fb fc s
  | .pdiv fd fa fb fc => Sys2Proof.Machine.execPdiv fd fa fb fc s
  | .peval fd fa fb => Sys2Proof.Machine.execPeval fd fa fb s
  | .pdeg fd fa => Sys2Proof.Machine.execPdeg fd fa s
  | .pcoef fd fa fb => Sys2Proof.Machine.execPcoef fd fa fb s
  | .pgen fd fa => Sys2Proof.Machine.execPgen fd fa s
  | .cinit fa fb => Sys2Proof.Machine.execCinit fa fb s
  | .enc fd fa fb fc => Sys2Proof.Machine.execEnc fd fa fb fc s
  | .dec fd fa fb fc => Sys2Proof.Machine.execDec fd fa fb fc s
  | .synd fd fa => Sys2Proof.Machine.execSynd fd fa s
  | .kes fd fa fc => Sys2Proof.Machine.execKes fd fa fc s
  | .chien fd fa fc => Sys2Proof.Machine.execChien fd fa fc s
  | .forney fd fa fb fc => Sys2Proof.Machine.execForney fd fa fb fc s
  | .corr fd fa fb fc => Sys2Proof.Machine.execCorr fd fa fb fc s

end Sys2Proof.Machine
end

