-- ==== Sys2Proof/Machine/HostBus.lean ====
section
/-! DEFINITION. The host's side of the machine: the register block, the DMEM window, `irq`, starting a
run, and reset (10_state.md R20–R31, 20_memory.md R64, 40_control.md R110, 60_exceptions.md R300,
70_reset_and_hazards.md R320–R322). -/

namespace Sys2Proof.Machine

/-! ### Where an access goes (10_state.md R20, R21) -/

/-- The registers of the register block (10_state.md R21). -/
inductive HostReg where
  | ctrl
  | status
  | cause
  | epc
  | info
  | pc
  | fieldcfg
  | codercfg
  | flags
  | rwin (i : RIdx)
  /-- An offset R21 does not list. -/
  | reserved
  deriving DecidableEq, Repr

/-- The register at an offset of the block (10_state.md R21). -/
def hostRegAt (offset : Nat) : HostReg :=
  match offset with
  | 0x00 => .ctrl
  | 0x04 => .status
  | 0x08 => .cause
  | 0x0C => .epc
  | 0x10 => .info
  | 0x14 => .pc
  | 0x18 => .fieldcfg
  | 0x1C => .codercfg
  | 0x20 => .flags
  | 0x40 => .rwin 0
  | 0x44 => .rwin 1
  | 0x48 => .rwin 2
  | 0x4C => .rwin 3
  | 0x50 => .rwin 4
  | 0x54 => .rwin 5
  | 0x58 => .rwin 6
  | 0x5C => .rwin 7
  | _ => .reserved

/-- What a host access reaches. -/
inductive Target where
  /-- The DMEM window, at a naturally aligned address. -/
  | dmem (a : Nat)
  /-- The DMEM window, at an address that is not a multiple of the width (20_memory.md R64). -/
  | dmemMisaligned
  /-- A register, by an aligned 32-bit access (10_state.md R21). -/
  | register (r : HostReg)
  /-- The register block by any other access (10_state.md R21), or no region (R20). -/
  | nothing
  deriving DecidableEq, Repr

/-- The width of an access in bytes. -/
def AccessWidth.size : AccessWidth → Nat
  | .byte => 1
  | .half => 2
  | .word => 4

/-- The three regions of the host address space (10_state.md R20) and the form an access must have
(10_state.md R21, 20_memory.md R64). -/
def targetOf (addr : BitVec 17) (width : AccessWidth) : Target :=
  let a := addr.toNat
  if a < 0x10000 then (if a % width.size = 0 then .dmem a else .dmemMisaligned)
  else if a < 0x10100 then
    (if width = .word ∧ a % 4 = 0 then .register (hostRegAt (a - 0x10000)) else .nothing)
  else .nothing

/-! ### The registers as 32-bit words (10_state.md R22–R29) -/

/-- A Boolean field as one bit. -/
abbrev bit (b : Bool) : BitVec 1 := BitVec.ofBool b

/-- `CTRL` as read; `GO` reads 0 (10_state.md R22). -/
def ctrlWord (s : State) : Word := (0 : BitVec 29) ++ bit s.ctrl.ieErr ++ bit s.ctrl.ieDone ++ bit false

/-- `STATUS` as read (10_state.md R23). -/
def statusWord (s : State) : Word :=
  (0 : BitVec 28) ++ bit s.status.hwe ++ bit s.status.err ++ bit s.status.done ++ bit s.status.run

/-- `CAUSE` as read (10_state.md R24). -/
def causeWord (s : State) : Word := (0 : BitVec 16) ++ s.cause.sub ++ s.cause.code

/-- `FLAGS` as read (10_state.md R25). -/
def flagsWord (s : State) : Word :=
  (0 : BitVec 24) ++ s.flags.dfr ++ (0 : BitVec 2) ++ bit s.flags.df ++ bit s.flags.z

/-- `PC` as read: bits 15:2 of `pc`, bits 1:0 read 0 (10_state.md R26). -/
def pcWord (s : State) : Word := (0 : BitVec 16) ++ s.pc.extractLsb' 2 14 ++ (0 : BitVec 2)

/-- `FIELDCFG` as read (10_state.md R27). -/
def fieldcfgWord (s : State) : Word :=
  bit s.field.fieldOk ++ (0 : BitVec 21) ++ bit s.field.gb ++ s.field.prim

/-- `CODERCFG` as read (10_state.md R28). -/
def codercfgWord (s : State) : Word :=
  bit s.coder.coderOk ++ (0 : BitVec 15) ++ s.coder.e ++ s.coder.k

/-- A register's value while the sequencer is idle (10_state.md R21–R29). -/
def regWord (s : State) : HostReg → Word
  | .ctrl => ctrlWord s
  | .status => statusWord s
  | .cause => causeWord s
  | .epc => s.epc.setWidth 32
  | .info => s.info
  | .pc => pcWord s
  | .fieldcfg => fieldcfgWord s
  | .codercfg => codercfgWord s
  | .flags => flagsWord s
  | .rwin i => (s.reg i).setWidth 32
  | .reserved => 0

/-- The registers whose reads stay defined during a run (10_state.md R31 (c)), with the reserved
offsets, which always read 0 (R21). -/
def HostReg.readableInRun : HostReg → Bool
  | .ctrl => true
  | .status => true
  | .reserved => true
  | _ => false

/-! ### Host reads -/

/-- The value of the little-endian bytes `b_0, b_1, …` (20_memory.md R64). -/
def littleEndian : List Byte → Word
  | [] => 0
  | b :: bs => b.setWidth 32 ||| littleEndian bs <<< 8

/-- The state after a read that returns `v`. -/
def State.replied (s : State) (v : Word) : State := { s with hostData := v }

/-- The state after a read that returns an unspecified value of `bytes` bytes
(10_state.md R31 (b), 93_implementation_defined.md U1). -/
def State.repliedFree (s : State) (bytes : Nat) : State :=
  { s with
    hostData := BitVec.ofNat 32 ((Config.unspecifiedRead s.freeCount).toNat % 2 ^ (8 * bytes))
    freeCount := s.freeCount + 1 }

/-- A host read (10_state.md R20, R21, R31; 20_memory.md R64). -/
def hostRead (s : State) (addr : BitVec 17) (width : AccessWidth) : State :=
  match targetOf addr width with
  | .dmem a =>
    if s.status.run then s.repliedFree width.size
    else s.replied (littleEndian (s.loadBytes a width.size))
  | .dmemMisaligned => if s.status.run then s.repliedFree width.size else s.replied 0
  | .register r =>
    if s.status.run ∧ ¬ r.readableInRun then s.repliedFree 4 else s.replied (regWord s r)
  | .nothing => s.replied 0

/-! ### Host writes -/

/-- `CTRL`: the enables are stored, and `GO = 1` starts a run when `RUN = 0` and `ERR = 0`
(40_control.md R110). -/
def writeCtrl (s : State) (v : Word) : State :=
  let s' := { s with ctrl := { ieDone := v.getLsbD 1, ieErr := v.getLsbD 2 } }
  if v.getLsbD 0 ∧ s.status.run = false ∧ s.status.err = false then
    { s' with status := { s'.status with run := true, done := false } }
  else s'

/-- `STATUS`: 1 clears `DONE`, `ERR`, `HWE`; clearing `ERR` also sets `CAUSE` to 0
(10_state.md R23, R24). -/
def writeStatus (s : State) (v : Word) : State :=
  { s with
    status := { s.status with
      done := s.status.done && !v.getLsbD 1
      err := s.status.err && !v.getLsbD 2
      hwe := s.status.hwe && !v.getLsbD 3 }
    cause := if v.getLsbD 2 then { code := 0, sub := 0 } else s.cause }

/-- A host write dropped during a run (10_state.md R31 (a), 70_reset_and_hazards.md R331). -/
def dropWrite (s : State) : State := { s with status := { s.status with hwe := true } }

/-- A write to a register (10_state.md R21–R29, R31). `CAUSE`, `EPC`, `INFO`, `FIELDCFG`, `CODERCFG`
and the reserved offsets ignore writes. -/
def hostWriteReg (s : State) (r : HostReg) (v : Word) : State :=
  match r with
  | .ctrl => writeCtrl s v
  | .status => writeStatus s v
  | .pc =>
    if s.status.run then dropWrite s
    else { s with pc := v.extractLsb' 2 14 ++ (0 : BitVec 2) }
  | .flags =>
    if s.status.run then dropWrite s
    else { s with flags := { z := v.getLsbD 0, df := v.getLsbD 1, dfr := v.extractLsb' 4 4 } }
  | .rwin i => if s.status.run then dropWrite s else s.setReg i (v.extractLsb' 0 16)
  | .cause => s
  | .epc => s
  | .info => s
  | .fieldcfg => s
  | .codercfg => s
  | .reserved => s

/-- A host write (10_state.md R20, R21, R31; 20_memory.md R64; 70_reset_and_hazards.md R331). A
misaligned write to DMEM is ignored (R64), and during a run it sets `HWE` as every write to DMEM does
(log entry 13). -/
def hostWrite (s : State) (addr : BitVec 17) (width : AccessWidth) (v : Word) : State :=
  match targetOf addr width with
  | .dmem a =>
    if s.status.run then dropWrite s
    else s.storeBytes a ((bytesOfWord v).take width.size)
  | .dmemMisaligned => if s.status.run then dropWrite s else s
  | .register r => hostWriteReg s r v
  | .nothing => s

/-- One host access. -/
def hostAccess (s : State) : HostAccess → State
  | .read addr width => hostRead s addr width
  | .write addr width v => hostWrite s addr width v

/-! ### The interrupt request and reset -/

/-- `irq` (60_exceptions.md R300). -/
def State.irq (s : State) : Bool :=
  (s.status.done && s.ctrl.ieDone) || (s.status.err && s.ctrl.ieErr)

/-- The reset input (70_reset_and_hazards.md R320–R322). DMEM becomes `DMEM0`; when a run is in
progress it may instead stay as the last step left it. -/
def resetMachine (s : State) : State :=
  { State.resetWith s.dmem0 with
    mem := if s.status.run ∧ Config.resetKeepsDmem s.freeCount then s.mem else s.dmem0
    inputs := s.inputs
    hostData := s.hostData
    freeCount := s.freeCount + 1 }

/-- The state of a run that is about to fetch its next word: `RUN = 1`, and `DONE = ERR = 0` with
`CAUSE` 0, as an accepted `GO` leaves them (40_control.md R110, 10_state.md R23, R24). -/
def State.running (s : State) : State :=
  { s with
    status := { s.status with run := true, done := false, err := false }
    cause := { code := 0, sub := 0 }
    inputs := [] }

end Sys2Proof.Machine
end

