-- ==== Sys2Proof/Machine/Sequencer.lean ====
section
/-! DEFINITION. One sequencer step (40_control.md R112) and one event. -/

namespace Sys2Proof.Machine

/-- Fetch, decode, execute; a word that is no command raises `ILLEGAL` (40_control.md R112,
30_encoding.md R96). -/
def runCommand (s : State) : Result :=
  match decode (fetchWord s) with
  | .ok i => exec i s
  | .error _ => .next (s.errorEntry .illegal)

/-- The sequencer's turn: it executes nothing while it is idle (10_state.md R34). -/
def sequencerStep (s : State) : Result :=
  if s.status.run then runCommand s else .next s

/-- The next event: the sequencer's turn, a host access, or the reset input. -/
def nextEvent (s : State) : Result :=
  match s.inputs with
  | [] => sequencerStep s
  | .sequencer :: rest => sequencerStep { s with inputs := rest }
  | .host access :: rest => .next (hostAccess { s with inputs := rest } access)
  | .reset :: rest => .next (resetMachine { s with inputs := rest })

end Sys2Proof.Machine
end

