-- ==== Sys2Proof/Machine/Step.lean ====
section
/-! DEFINITION. The step (70_reset_and_hazards.md R334), and how a word is placed where the next step
fetches it. -/

namespace Sys2Proof.Machine

/-- One atomic transition of the machine. -/
def step (s : State) : Host.Outcome State Fault Refusal := nextEvent s

/-- `s` with the word `w` of `nbits` bits stored at `pc`, in a run and with no other event before it
(log entry 8). -/
def State.withFetchWord (s : State) (nbits w : Nat) : State :=
  (s.placeWord (BitVec.ofNat 32 (w % 2 ^ nbits))).running

end Sys2Proof.Machine
end

