-- ==== Sys2Proof/Safety.lean ====
section
/-! DEFINITION. The terms the claims use: the invariants the spec states of the machine, what a command
may write and which errors it can raise, and the spec's own descriptions of results that are not
computed the way the machine computes them. -/

namespace Sys2Proof.Safety

open Sys2Proof.Machine

/-! ### The invariants -/

/-- A polynomial value: 1 to 256 coefficients, the first one non-zero unless the value is `Zero`
(10_state.md R32, 42_polynomial.md R160). -/
abbrev Normalized (p : Poly) : Prop :=
  p.length ≤ Config.maxDegree + 1 ∧ (p = zeroPoly ∨ p.headD 0 ≠ 0)

/-- The field is one that `FINIT` built from a mask which passed its checks
(10_state.md R27, 41_field.md R132). -/
structure FieldValid (F : Field) : Prop where
  degree : F.prim.getLsbD 8 = true
  primitive : isPrimitive F.prim = true
  exp : F.exp = buildExp F.prim
  log : F.log = buildLog F.prim

/-- The bounds of a constructed coder (10_state.md R28, 43_coder.md R210). -/
abbrev CoderValid (C : Coder) : Prop :=
  11 ≤ C.dataLen ∧ 1 ≤ C.parityLen ∧ C.blockLen ≤ 255

/-- What holds of every state the machine can reach. -/
structure Inv (s : State) : Prop where
  /-- DMEM has its canonical form (the model's own). -/
  mem : s.mem.wf
  /-- So has the parameter `DMEM0`. -/
  dmem0 : s.dmem0.wf
  /-- "`pc` is always a multiple of 4" (10_state.md R26). -/
  pc : s.pc.toNat % 4 = 0
  /-- Every `P` register holds a polynomial value (10_state.md R32). -/
  polys : ∀ i, Normalized (s.poly i)
  /-- "`RUN = 1` implies `DONE = 0` and `ERR = 0`" (10_state.md R23). -/
  status : s.status.run = true → s.status.done = false ∧ s.status.err = false
  /-- "no error since reset or since the host cleared `ERR`" (60_exceptions.md R280, code `0x00`). -/
  cause : s.status.err = false → s.cause = { code := 0, sub := 0 }
  /-- While `FIELD_OK = 1` the tables hold a constructed field (10_state.md R27). -/
  field : s.field.fieldOk = true → FieldValid s.field
  /-- "`CODER_OK = 1` implies `FIELD_OK = 1`, `11 <= K`, `1 <= E` and `K + E <= 255`"
  (43_coder.md R210). -/
  coder : s.coder.coderOk = true → s.field.fieldOk = true ∧ CoderValid s.coder

/-- A machine out of reset with DMEM `dmem0`, and what the host and the reset input will do. -/
def start (dmem0 : Memory) (events : List Event) : State :=
  { State.resetWith dmem0 with inputs := events }

/-! ### What a command may write (the destinations of 30_encoding.md R94) -/

/-- The `R` registers a command may write. -/
def destR : Instr → List RIdx
  | .li fd _ => [fd]
  | .gfadd fd _ _ => [fd]
  | .gfmul fd _ _ => [fd]
  | .gfinv fd _ => [fd]
  | .gfexp fd _ => [fd]
  | .gflog fd _ => [fd]
  | .peval fd _ _ => [fd]
  | .pdeg fd _ => [fd]
  | .pcoef fd _ _ => [fd]
  | .enc fd _ _ _ => [fd]
  | .dec fd _ _ _ => [fd]
  | .chien fd _ _ => [fd]
  | _ => []

/-- The `P` registers a command may write. -/
def destP : Instr → List PIdx
  | .pld fd _ _ => [fd]
  | .pconst fd _ => [fd]
  | .padd fd _ _ => [fd]
  | .pmul fd _ _ => [fd]
  | .pscl fd _ _ => [fd]
  | .pmono fd _ _ _ => [fd]
  | .pdiv fd _ _ fc => [fd, fc]
  | .pgen fd _ => [fd]
  | .synd fd _ => [fd]
  | .kes fd _ fc => [fd, fc]
  | _ => []

/-- The memory operand `(address, length)` a command writes; length 0 for the commands that store
nothing (20_memory.md R60, R74). -/
def storeRange (i : Instr) (s : State) : Nat × Nat :=
  match i with
  | .pst _ fb fc => (s.unsigned fb, s.unsigned fc)
  | .enc _ _ fb fc =>
    (s.unsigned fc, blockCount (s.unsigned fb) s.coder.dataLen * s.coder.blockLen)
  | .dec _ _ fb fc =>
    (s.unsigned fc, blockCount (s.unsigned fb) s.coder.blockLen * s.coder.dataLen)
  | .chien _ fa fc => (s.unsigned fc, deg (s.poly fa))
  | .forney fd _ _ fc => (s.unsigned fd, s.unsigned fc)
  | .corr fd _ _ _ => (s.unsigned fd, s.coder.blockLen)
  | _ => (0, 0)

/-- The commands that store to DMEM (20_memory.md R74). -/
def stores : Instr → Bool
  | .pst _ _ _ => true
  | .enc _ _ _ _ => true
  | .dec _ _ _ _ => true
  | .chien _ _ _ => true
  | .forney _ _ _ _ => true
  | .corr _ _ _ _ => true
  | _ => false

/-- The commands that may write `FLAGS.DF` and `FLAGS.DFR` (10_state.md R25, 60_exceptions.md R286). -/
def mayFailDecoding : Instr → Bool
  | .dec _ _ _ _ => true
  | .kes _ _ _ => true
  | .chien _ _ _ => true
  | .corr _ _ _ _ => true
  | _ => false

/-- "requires field" in the table of 60_exceptions.md R286. -/
def requiresField : Instr → Bool
  | .gfmul _ _ _ => true
  | .gfexp _ _ => true
  | .gfinv _ _ => true
  | .gflog _ _ => true
  | .pmul _ _ _ => true
  | .pscl _ _ _ => true
  | .peval _ _ _ => true
  | .pmono _ _ _ _ => true
  | .pdiv _ _ _ _ => true
  | .pgen _ _ => true
  | .cinit _ _ => true
  | .chien _ _ _ => true
  | .forney _ _ _ _ => true
  | _ => false

/-- "requires coder" in the table of 60_exceptions.md R286. -/
def requiresCoder : Instr → Bool
  | .enc _ _ _ _ => true
  | .dec _ _ _ _ => true
  | .synd _ _ => true
  | .kes _ _ _ => true
  | .corr _ _ _ _ => true
  | _ => false

/-- The column "possible causes" of 60_exceptions.md R286. -/
def possibleCauses : Instr → List Cause
  | .endRun => []
  | .nop => []
  | .li _ _ => []
  | .clrf => []
  | .finit _ => [.config .degree, .config .notPrimitive]
  | .gfadd _ _ _ => []
  | .gfmul _ _ _ => [.notConfigured]
  | .gfexp _ _ => [.notConfigured]
  | .gfinv _ _ => [.notConfigured, .inv0]
  | .gflog _ _ => [.notConfigured, .log0]
  | .pld _ _ _ => [.memRange, .capacity]
  | .pst _ _ _ => [.length, .memRange]
  | .pconst _ _ => []
  | .padd _ _ _ => []
  | .pdeg _ _ => []
  | .pcoef _ _ _ => []
  | .pmul _ _ _ => [.notConfigured, .capacity]
  | .pscl _ _ _ => [.notConfigured]
  | .peval _ _ _ => [.notConfigured]
  | .pmono _ _ _ _ => [.notConfigured, .negDeg, .capacity]
  | .pdiv _ _ _ _ => [.notConfigured, .div0]
  | .pgen _ _ => [.notConfigured, .capacity]
  | .cinit _ _ => [.notConfigured, .config .shortBlock, .config .noParity, .config .longBlock]
  | .enc _ _ _ _ => [.notConfigured, .memRange, .overlap]
  | .dec _ _ _ _ => [.notConfigured, .memRange, .overlap]
  | .synd _ _ => [.notConfigured, .memRange]
  | .kes _ _ _ => [.notConfigured, .operand]
  | .chien _ _ _ => [.notConfigured, .memRange]
  | .forney _ _ _ _ => [.notConfigured, .memRange, .overlap, .inv0]
  | .corr _ _ _ _ => [.notConfigured, .memRange, .overlap, .log0]

/-! ### Results described independently of the machine's loops -/

/-- Multiplication in GF(2^8) without tables: the binary polynomials `a` and `b` multiplied and reduced
by `prim`, one bit of `a` at a time from the most significant of `n` bits on. -/
def carrylessMul (prim : BitVec 9) (a b : Byte) : Nat → Byte
  | 0 => 0
  | n + 1 =>
    gfDouble prim (carrylessMul prim (a >>> 1) b n) ^^^ (if a.getLsbD 0 then b else 0)

/-- `x^n` by repeated multiplication. -/
def gfPow (F : Field) (x : Byte) : Nat → Byte
  | 0 => 1
  | n + 1 => gfMul F (gfPow F x n) x

/-- The XOR of `f 0, …, f (n-1)`. -/
def xorRange (n : Nat) (f : Nat → Byte) : Byte := xorSum ((List.range n).map f)

/-- In how many offsets two blocks of one length differ. -/
def distance (a b : List Byte) : Nat := ((a.zip b).filter fun c => c.1 ≠ c.2).length

end Sys2Proof.Safety
end

