-- ==== Sys2Proof/Certificates/Slice0/Obligations.lean ====
section
/-! DEFINITION. The statements for the provers: what the spec's rules say the machine and its commands
do. `errorEntry`, `decodeFail`, `advance`, `setReg`, `setPoly` are the named updates of Machine/Ops.lean
and Machine/Flags.lean; `Inv`, `destR`, `destP`, `storeRange` and `possibleCauses` stand in
Safety.lean. -/

open Sys2Proof Sys2Proof.Machine Sys2Proof.Safety

/-! ### Encoding (30_encoding.md) -/

/-- No operand of a well-formed command is lost in its word (R94, R95). -/
def Obligations.DecodeInvertsEncode : Prop :=
  ∀ i : Instr, i.WellFormed → decode (encode i) = .ok i

/-- No two words stand for one command: a word that decodes is the encoding of what it decodes to. -/
def Obligations.EncodeInvertsDecode : Prop :=
  ∀ (w : Word) (i : Instr), decode w = .ok i → i.WellFormed ∧ encode i = w

/-- R94: a word decodes as the row whose mask and match it meets, and at most one row matches. -/
def Obligations.WordsDecodeByMaskAndMatch : Prop :=
  (∀ (w : Word) (i : Instr), decode w = .ok i → w &&& i.mask = i.pattern) ∧
  (∀ (w : Word) (i : Instr), w &&& i.mask = i.pattern → ∃ j, decode w = .ok j ∧ j.opcode = i.opcode) ∧
  (∀ (w : Word) (i j : Instr), w &&& i.mask = i.pattern → w &&& j.mask = j.pattern → i.opcode = j.opcode)

/-- Words the spec writes out beside their assembler text, one or more of each family. -/
def Obligations.WordsOfTheSpecDecode : Prop :=
  decode 0x04000000 = .ok .endRun ∧
  decode 0x0D00011D = .ok (.li 2 0x011D) ∧
  decode 0x2000011D = .ok (.finit 0x011D) ∧
  decode 0x28A60000 = .ok (.gfmul 1 2 3) ∧
  decode 0x44328000 = .ok (.pst 3 1 2) ∧
  decode 0x5D950000 = .ok (.pdiv 3 1 2 4) ∧
  decode 0x80140000 = .ok (.cinit 1 2) ∧
  decode 0x8614C000 = .ok (.enc 4 1 2 3) ∧
  decode 0x9110C000 = .ok (.kes 2 1 3) ∧
  decode 0x9B3B0000 = .ok (.forney 6 3 5 4)

/-- R96: a word that matches no row raises `ILLEGAL` when it is fetched, with `INFO` the word and `EPC` its
address. Those words are (a) the words with an unlisted opcode, the all-zero word among them, and (b) the
words of a listed opcode with a 1 in a must-be-zero bit, and no others. -/
def Obligations.UnlistedWordsRaiseIllegal : Prop :=
  let unlisted := fun w : Word =>
    (fieldOp w).toNat ∈ [0x00, 0x05, 0x06, 0x07, 0x0E, 0x0F, 0x1C, 0x1D, 0x1E, 0x1F] ∨
      0x28 ≤ (fieldOp w).toNat
  let reserved := fun w : Word =>
    ∃ i : Instr, fieldOp w = i.opcode ∧ w &&& i.mask &&& 0x03FFFFFF ≠ 0
  (∀ s : State, s.inputs = [] → s.status.run = true →
    (∀ i : Instr, fetchWord s &&& i.mask ≠ i.pattern) →
    step s = .next { s with
      cause := { code := 0x01, sub := 0 }, epc := s.pc, info := fetchWord s,
      status := { s.status with run := false, err := true } }) ∧
  (∀ w : Word, (∀ i : Instr, w &&& i.mask ≠ i.pattern) ↔ unlisted w ∨ reserved w) ∧
  unlisted 0

/-! ### The step -/

/-- R112, R334 and 10_state.md R34: when the four bytes at `pc` decode to `i`, the sequencer's step is
`exec i`; an idle sequencer executes nothing; and a host access or a reset is a step of its own. The queue
`inputs`, which says whose turn it is, is the model's (log entry 4). -/
def Obligations.StepRunsTheDecodedCommand : Prop :=
  ∀ s : State,
    (∀ i : Instr, s.status.run = true → decodeBytes (s.loadBytes s.pc.toNat 4) = .ok (i, []) →
      (s.inputs = [] → step s = exec i s) ∧
      (∀ rest, s.inputs = .sequencer :: rest → step s = exec i { s with inputs := rest })) ∧
    (s.status.run = false →
      (s.inputs = [] → step s = .next s) ∧
      (∀ rest, s.inputs = .sequencer :: rest → step s = .next { s with inputs := rest })) ∧
    (∀ a rest, s.inputs = .host a :: rest →
      step s = .next (hostAccess { s with inputs := rest } a)) ∧
    (∀ rest, s.inputs = .reset :: rest →
      step s = .next (resetMachine { s with inputs := rest }))

/-- R119, R118: every command advances `pc` by exactly 4 (mod 0x10000, so from `0xFFFC` to 0) or raises an
error, in one step; only `END` ends the run without an error; no error register changes unless an error is
raised. -/
def Obligations.CommandsAdvanceOrRaise : Prop :=
  ∀ (i : Instr) (s : State), ∃ t, exec i s = .next t ∧
    ((t.pc = s.pc + 4 ∧ t.cause = s.cause ∧ t.epc = s.epc ∧ t.info = s.info ∧
        t.status.err = s.status.err ∧
        (i = .endRun → t.status.run = false ∧ t.status.done = true) ∧
        (i ≠ .endRun → t.status = s.status)) ∨
      ∃ c, t = s.errorEntry c)

/-- R281: a step that raises an error writes the error record, `RUN` and `ERR`, keeps `pc` at the
command, and changes nothing else. R280, R282: the number that each cause and sub-cause leaves in `CAUSE`. -/
def Obligations.ErrorsArePrecise : Prop :=
  (∀ s t : State, s.inputs = [] → s.status.run = true → s.status.err = false →
    step s = .next t → t.status.err = true →
    ∃ c : Cause,
      t = { s with
        cause := { code := c.code, sub := c.sub }, epc := s.pc, info := fetchWord s, pc := s.pc,
        status := { s.status with run := false, err := true } } ∧
      (t.cause.sub ≠ 0 → t.cause.code = 0x02)) ∧
  (∀ p ∈ [(Cause.illegal, (0x01 : Byte), (0 : Byte)), (.config .degree, 0x02, 1),
      (.config .notPrimitive, 0x02, 2), (.config .shortBlock, 0x02, 3), (.config .noParity, 0x02, 4),
      (.config .longBlock, 0x02, 5), (.notConfigured, 0x03, 0), (.memRange, 0x04, 0), (.overlap, 0x05, 0),
      (.operand, 0x06, 0), (.inv0, 0x07, 0), (.log0, 0x08, 0), (.div0, 0x09, 0), (.negDeg, 0x0A, 0),
      (.capacity, 0x0B, 0), (.length, 0x0C, 0)],
    p.1.code = p.2.1 ∧ p.1.sub = p.2.2 ∧
    ∀ s : State, (s.errorEntry p.1).cause = { code := p.2.1, sub := p.2.2 })

/-- R286: on a reachable state a command raises no cause but those its row lists. In particular no
field error occurs inside `ENC`, `DEC`, `KES` and `CHIEN` (43_coder.md R224). -/
def Obligations.CommandsRaiseOnlyListedCauses : Prop :=
  ∀ (i : Instr) (s t : State), Inv s → s.status.err = false → exec i s = .next t →
    t.status.err = true → ∃ c ∈ possibleCauses i, t = s.errorEntry c

/-- R287: a command that requires the field or the coder raises `NOT_CONFIGURED` without it. -/
def Obligations.UnconfiguredCommandsRaise : Prop :=
  ∀ (i : Instr) (s : State),
    (requiresField i = true ∧ s.field.fieldOk = false) ∨
      (requiresCoder i = true ∧ s.coder.coderOk = false) →
    exec i s = .next (s.errorEntry .notConfigured)

/-- R33 and R287: while `FIELD_OK = 0` no command reads the tables. With other contents in them every
command does the same, and leaves those contents alone unless it is a `FINIT` that succeeds. -/
def Obligations.UnconstructedTablesAreNeverRead : Prop :=
  ∀ (i : Instr) (s t : State) (e l : Vector Byte 256),
    s.field.fieldOk = false → s.coder.coderOk = false → exec i s = .next t →
    exec i { s with field := { s.field with exp := e, log := l } } =
      .next (if t.field = s.field then { t with field := { t.field with exp := e, log := l } } else t)

/-- R66, R67, R285: a memory operand that runs past the top of DMEM raises `MEM_RANGE`; when every
operand fits, a read operand that overlaps the write operand raises `OVERLAP`; `PST` checks its length
first. -/
def Obligations.MemoryChecksComeInOrder : Prop :=
  ∀ s : State,
    (∀ fd fa fb, ¬ InRange (s.unsigned fa) (s.unsigned fb) →
      exec (.pld fd fa fb) s = .next (s.errorEntry .memRange)) ∧
    (∀ fa fb fc,
      (s.unsigned fc < (s.poly fa).length → exec (.pst fa fb fc) s = .next (s.errorEntry .length)) ∧
      ((s.poly fa).length ≤ s.unsigned fc → ¬ InRange (s.unsigned fb) (s.unsigned fc) →
        exec (.pst fa fb fc) s = .next (s.errorEntry .memRange))) ∧
    (∀ fd fa fb fc, s.coder.coderOk = true →
      let src := s.unsigned fa
      let len := s.unsigned fb
      let dst := s.unsigned fc
      let encLen := blockCount len s.coder.dataLen * s.coder.blockLen
      let decLen := blockCount len s.coder.blockLen * s.coder.dataLen
      ((¬ InRange src len ∨ encLen > 0xFFFF ∨ ¬ InRange dst encLen) →
        exec (.enc fd fa fb fc) s = .next (s.errorEntry .memRange)) ∧
      (InRange src len → encLen ≤ 0xFFFF → InRange dst encLen → Overlap src len dst encLen →
        exec (.enc fd fa fb fc) s = .next (s.errorEntry .overlap)) ∧
      ((¬ InRange src len ∨ ¬ InRange dst decLen) →
        exec (.dec fd fa fb fc) s = .next (s.errorEntry .memRange)) ∧
      (InRange src len → InRange dst decLen → Overlap src len dst decLen →
        exec (.dec fd fa fb fc) s = .next (s.errorEntry .overlap))) ∧
    (∀ fd fa, s.coder.coderOk = true → ¬ InRange (s.unsigned fa) s.coder.blockLen →
      exec (.synd fd fa) s = .next (s.errorEntry .memRange)) ∧
    (∀ fd fa fc, s.field.fieldOk = true → ¬ InRange (s.unsigned fc) (deg (s.poly fa)) →
      exec (.chien fd fa fc) s = .next (s.errorEntry .memRange)) ∧
    (∀ fd fa fb fc, s.field.fieldOk = true →
      let loc := s.unsigned fb
      let n := s.unsigned fc
      let dst := s.unsigned fd
      ((¬ InRange loc n ∨ ¬ InRange dst n) →
        exec (.forney fd fa fb fc) s = .next (s.errorEntry .memRange)) ∧
      (InRange loc n → InRange dst n → Overlap loc n dst n →
        exec (.forney fd fa fb fc) s = .next (s.errorEntry .overlap))) ∧
    (∀ fd fa fb fc, s.coder.coderOk = true →
      let blk := s.unsigned fd
      let loc := s.unsigned fa
      let mag := s.unsigned fb
      let n := s.unsigned fc
      let N := s.coder.blockLen
      ((¬ InRange blk N ∨ ¬ InRange loc n ∨ ¬ InRange mag n) →
        exec (.corr fd fa fb fc) s = .next (s.errorEntry .memRange)) ∧
      (InRange blk N → InRange loc n → InRange mag n →
        Overlap loc n blk N ∨ Overlap mag n blk N →
        exec (.corr fd fa fb fc) s = .next (s.errorEntry .overlap)))

/-! ### Reset, and what holds of every state -/

/-- R320, R321, R322: the reset input leaves every register at its reset value, `irq` 0, the sequencer
idle, and DMEM as `DMEM0`, or, during a run, perhaps as the last step left it. What the tables hold then is
unspecified, and no clause says it. One `DMEM0` for every reset is the model's reading (log entries 15, 16). -/
def Obligations.ResetLeavesTheResetState : Prop :=
  ∀ (s : State) (rest : List Event), s.inputs = .reset :: rest → ∃ t, step s = .next t ∧
    (∀ i, t.reg i = 0) ∧ (∀ i, t.poly i = [0]) ∧ t.pc = 0 ∧
    ctrlWord t = 0 ∧ statusWord t = 0 ∧ causeWord t = 0 ∧ t.epc = 0 ∧ t.info = 0 ∧
    flagsWord t = 0 ∧ fieldcfgWord t = 0 ∧ codercfgWord t = 0 ∧ t.irq = false ∧
    (t.mem = s.dmem0 ∨ (s.status.run = true ∧ t.mem = s.mem)) ∧
    t.dmem0 = s.dmem0 ∧ t.inputs = rest ∧
    step { t with inputs := [] } = .next { t with inputs := [] }

/-- The invariants hold out of reset, whatever DMEM holds. -/
def Obligations.InvariantHoldsAtReset : Prop :=
  Inv State.reset ∧ ∀ (dmem0 : Memory) (events : List Event), dmem0.wf → Inv (start dmem0 events)

/-- Every step keeps them: the memory's form, `pc[1:0] = 0` (R26), normalized `P` registers (R32), the
`STATUS` invariant (R23), a `CAUSE` of 0 without `ERR` (R280), a constructed field behind `FIELD_OK`
(R27) and the bounds behind `CODER_OK` (R28, R210). -/
def Obligations.EveryStepKeepsTheInvariant : Prop :=
  ∀ s t : State, Inv s → step s = .next t → Inv t

/-- From reset, with any DMEM contents, any host accesses and resets in any places, the machine never
stops with a fault or a refusal, and the invariants hold throughout. -/
def Obligations.EveryRunFromResetKeepsTheInvariant : Prop :=
  ∀ (dmem0 : Memory) (events : List Event) (n : Nat), dmem0.wf →
    ∃ t, Host.Core.run Sys2Proof.core n (start dmem0 events) = .next t ∧ Inv t

/-! ### The host's side -/

/-- R110: a write of `GO = 1` starts a run when `RUN = 0` and `ERR = 0`, and clears `DONE`; otherwise it
is ignored. The same write stores both enables either way. -/
def Obligations.GoStartsARun : Prop :=
  ∀ (s : State) (v : Word),
    let t := hostAccess s (.write 0x10000 .word v)
    t.ctrl = { ieDone := v.getLsbD 1, ieErr := v.getLsbD 2 } ∧
    (v.getLsbD 0 = true → s.status.run = false → s.status.err = false →
      t = { s with ctrl := t.ctrl, status := { s.status with run := true, done := false } }) ∧
    (v.getLsbD 0 = false ∨ s.status.run = true ∨ s.status.err = true →
      t = { s with ctrl := t.ctrl })

/-- R31, R331: during a run (a) a write to DMEM, `PC`, `FLAGS` or `RWIN` only sets `HWE`; (b) a read of
those, of `CAUSE`, `EPC` or `INFO` returns an open value and changes nothing of the machine; (c) `CTRL` and
`STATUS` read as they are, `RUN` as 1, and take their writes as ever (R23, R24). Reserved offsets, narrow
accesses and unmapped addresses read 0 and ignore writes (R20, R21). The model's readings: a misaligned write
to DMEM sets `HWE` and a misaligned read is open (log entries 13, 14), a read of `FIELDCFG` or `CODERCFG` is
open too (entry 11), what R20 and R21 ignore and a write to a read-only register set no `HWE` (entries 12,
19), and writing 1 to `ERR` sets `CAUSE` to 0 with `ERR = 0` too (entry 18). -/
def Obligations.HostAccessDuringARun : Prop :=
  ∀ s : State, s.status.run = true →
    (∀ (a : BitVec 17) (w : AccessWidth) (v : Word),
      a.toNat < 0x10000 ∨
        (w = .word ∧ (a = 0x10014 ∨ a = 0x10020 ∨ ∃ i : Fin 8, a.toNat = 0x10040 + 4 * i.val)) →
      hostAccess s (.write a w v) = { s with status := { s.status with hwe := true } }) ∧
    (∀ (a : BitVec 17) (w : AccessWidth),
      a.toNat < 0x10000 ∨
        (w = .word ∧ (a = 0x10008 ∨ a = 0x1000C ∨ a = 0x10010 ∨ a = 0x10014 ∨ a = 0x10018 ∨ a = 0x1001C ∨
          a = 0x10020 ∨ ∃ i : Fin 8, a.toNat = 0x10040 + 4 * i.val)) →
      ∃ v : Word, v.toNat < 2 ^ (8 * w.size) ∧
        v = BitVec.ofNat 32 ((Config.unspecifiedRead s.freeCount).toNat % 2 ^ (8 * w.size)) ∧
        hostAccess s (.read a w) = { s with hostData := v, freeCount := s.freeCount + 1 }) ∧
    (∃ v : Word, hostAccess s (.read 0x10000 .word) = { s with hostData := v } ∧
      v.getLsbD 1 = s.ctrl.ieDone ∧ v.getLsbD 2 = s.ctrl.ieErr ∧ v &&& 0xFFFFFFF9 = 0) ∧
    (∃ v : Word, hostAccess s (.read 0x10004 .word) = { s with hostData := v } ∧
      v.getLsbD 0 = true ∧ v.getLsbD 1 = s.status.done ∧ v.getLsbD 2 = s.status.err ∧
      v.getLsbD 3 = s.status.hwe ∧ v &&& 0xFFFFFFF0 = 0) ∧
    (∀ v : Word, hostAccess s (.write 0x10000 .word v) =
      { s with ctrl := { ieDone := v.getLsbD 1, ieErr := v.getLsbD 2 } }) ∧
    (∀ v : Word, hostAccess s (.write 0x10004 .word v) = { s with
      status := {
        run := true
        done := if v.getLsbD 1 then false else s.status.done
        err := if v.getLsbD 2 then false else s.status.err
        hwe := if v.getLsbD 3 then false else s.status.hwe }
      cause := if v.getLsbD 2 then { code := 0, sub := 0 } else s.cause }) ∧
    (∀ (a : BitVec 17) (w : AccessWidth) (v : Word),
      (0x10024 ≤ a.toNat ∧ a.toNat < 0x10040) ∨ 0x10060 ≤ a.toNat ∨
        (0x10000 ≤ a.toNat ∧ (w ≠ .word ∨ a.toNat % 4 ≠ 0)) →
      hostAccess s (.read a w) = { s with hostData := 0 } ∧ hostAccess s (.write a w v) = s) ∧
    (∀ (v : Word), ∀ a ∈ [(0x10008 : BitVec 17), 0x1000C, 0x10010, 0x10018, 0x1001C],
      hostAccess s (.write a .word v) = s)

/-- R64, R68, R72: while the sequencer is idle an aligned read of 1, 2 or 4 bytes of the DMEM window gives
the bytes little-endian and changes nothing of the machine; an aligned write is read back, every other byte
keeps its value; and a misaligned access is ignored and reads 0. -/
def Obligations.HostReadsBackDmem : Prop :=
  ∀ (s : State) (a : BitVec 17) (w : AccessWidth) (v : Word),
    s.status.run = false → s.mem.wf → a.toNat < 0x10000 →
    (a.toNat % w.size = 0 →
      let t := hostAccess s (.write a w v)
      (∃ x : Word, hostAccess s (.read a w) = { s with hostData := x } ∧
        (∀ i, i < w.size → x.extractLsb' (8 * i) 8 = s.mem.read (a.toNat + i)) ∧
        x.toNat < 2 ^ (8 * w.size)) ∧
      t = { s with mem := t.mem } ∧
      hostAccess t (.read a w) =
        { t with hostData := BitVec.ofNat 32 (v.toNat % 2 ^ (8 * w.size)) } ∧
      (∀ i, i < w.size → t.mem.read (a.toNat + i) = v.extractLsb' (8 * i) 8) ∧
      (∀ c, c < a.toNat ∨ a.toNat + w.size ≤ c → t.mem.read c = s.mem.read c)) ∧
    (a.toNat % w.size ≠ 0 →
      hostAccess s (.write a w v) = s ∧ hostAccess s (.read a w) = { s with hostData := 0 })

/-- R20 to R29, R68: what an idle machine's registers read as, field by field; that a read at any address
and width changes nothing of the machine; and that reserved offsets, narrow accesses and unmapped addresses
read 0 and ignore writes. -/
def Obligations.HostRegistersReadAsTabled : Prop :=
  ∀ s : State, s.status.run = false →
    let rd := fun a => (hostAccess s (.read a .word)).hostData
    (∀ (a : BitVec 17) (w : AccessWidth), ∃ v : Word,
      hostAccess s (.read a w) = { s with hostData := v }) ∧
    ((rd 0x10000).getLsbD 1 = s.ctrl.ieDone ∧ (rd 0x10000).getLsbD 2 = s.ctrl.ieErr ∧
      rd 0x10000 &&& 0xFFFFFFF9 = 0) ∧
    ((rd 0x10004).getLsbD 1 = s.status.done ∧ (rd 0x10004).getLsbD 2 = s.status.err ∧
      (rd 0x10004).getLsbD 3 = s.status.hwe ∧ rd 0x10004 &&& 0xFFFFFFF1 = 0) ∧
    ((rd 0x10008).extractLsb' 0 8 = s.cause.code ∧ (rd 0x10008).extractLsb' 8 8 = s.cause.sub ∧
      rd 0x10008 &&& 0xFFFF0000 = 0) ∧
    (rd 0x1000C = s.epc.setWidth 32 ∧ rd 0x10010 = s.info) ∧
    ((rd 0x10014).extractLsb' 2 14 = s.pc.extractLsb' 2 14 ∧ rd 0x10014 &&& 0xFFFF0003 = 0) ∧
    ((rd 0x10018).extractLsb' 0 9 = s.field.prim ∧ (rd 0x10018).getLsbD 9 = s.field.gb ∧
      (rd 0x10018).getLsbD 31 = s.field.fieldOk ∧ rd 0x10018 &&& 0x7FFFFC00 = 0) ∧
    ((rd 0x1001C).extractLsb' 0 8 = s.coder.k ∧ (rd 0x1001C).extractLsb' 8 8 = s.coder.e ∧
      (rd 0x1001C).getLsbD 31 = s.coder.coderOk ∧ rd 0x1001C &&& 0x7FFF0000 = 0) ∧
    ((rd 0x10020).getLsbD 0 = s.flags.z ∧ (rd 0x10020).getLsbD 1 = s.flags.df ∧
      (rd 0x10020).extractLsb' 4 4 = s.flags.dfr ∧ rd 0x10020 &&& 0xFFFFFF0C = 0) ∧
    (∀ i : Fin 8, rd (BitVec.ofNat 17 (0x10040 + 4 * i.val)) = (s.reg i).setWidth 32) ∧
    (∀ (a : BitVec 17) (w : AccessWidth) (v : Word),
      (0x10024 ≤ a.toNat ∧ a.toNat < 0x10040) ∨ 0x10060 ≤ a.toNat ∨
        (0x10000 ≤ a.toNat ∧ (w ≠ .word ∨ a.toNat % 4 ≠ 0)) →
      hostAccess s (.read a w) = { s with hostData := 0 } ∧ hostAccess s (.write a w v) = s)

/-- R23 to R29: what the writable registers take from a write, the read-only ones nothing. A 1 written to
`DONE`, `ERR` or `HWE` clears it and a 0 has no effect, during a run too; clearing `ERR` sets `CAUSE` to 0 in
the same access, and `EPC` and `INFO` keep their values. That it does so with `ERR = 0` too is the model's
reading (log entry 18). -/
def Obligations.HostRegistersWriteAsTabled : Prop :=
  ∀ (s : State) (v : Word),
    (hostAccess s (.write 0x10004 .word v) = { s with
      status := {
        run := s.status.run
        done := if v.getLsbD 1 then false else s.status.done
        err := if v.getLsbD 2 then false else s.status.err
        hwe := if v.getLsbD 3 then false else s.status.hwe }
      cause := if v.getLsbD 2 then { code := 0, sub := 0 } else s.cause }) ∧
    (s.status.run = false →
      hostAccess s (.write 0x10014 .word v) = { s with pc := v.extractLsb' 0 16 &&& 0xFFFC } ∧
      hostAccess s (.write 0x10020 .word v) =
        { s with flags := { z := v.getLsbD 0, df := v.getLsbD 1, dfr := v.extractLsb' 4 4 } } ∧
      (∀ i : Fin 8, hostAccess s (.write (BitVec.ofNat 17 (0x10040 + 4 * i.val)) .word v) =
        s.setReg i (v.extractLsb' 0 16)) ∧
      (∀ a ∈ [(0x10008 : BitVec 17), 0x1000C, 0x10010, 0x10018, 0x1001C],
        hostAccess s (.write a .word v) = s))

/-- R288 with R24: a host access raises no error, and it leaves the rest of the machine that only commands
write: `EPC`, `INFO`, the field, the coder and the `P` registers. It may clear `CAUSE`, never set it: that the
last sentence of R288 allows the clearing of R24 is the model's reading (log entry 17). -/
def Obligations.HostAccessRaisesNoError : Prop :=
  ∀ (s : State) (a : HostAccess),
    let t := hostAccess s a
    (t.status.err = true → s.status.err = true) ∧
    (t.cause = s.cause ∨ t.cause = { code := 0, sub := 0 }) ∧
    t.epc = s.epc ∧ t.info = s.info ∧ t.field = s.field ∧ t.coder = s.coder ∧ t.polys = s.polys ∧
    t.dmem0 = s.dmem0 ∧ t.inputs = s.inputs

/-- R300: `irq` is high while an enabled `DONE` or `ERR` is set: `END` and an error raise it under their
enables, and clearing the status bits or the enables lowers it. -/
def Obligations.IrqFollowsStatusAndEnables : Prop :=
  ∀ s : State,
    (s.irq = ((s.status.done && s.ctrl.ieDone) || (s.status.err && s.ctrl.ieErr))) ∧
    (∀ t, exec .endRun s = .next t → s.ctrl.ieDone = true → t.irq = true) ∧
    (∀ c, s.ctrl.ieErr = true → (s.errorEntry c).irq = true) ∧
    (∀ v, v.getLsbD 1 = true → v.getLsbD 2 = true →
      (hostAccess s (.write 0x10004 .word v)).irq = false) ∧
    (∀ v, v.getLsbD 1 = false → v.getLsbD 2 = false →
      (hostAccess s (.write 0x10000 .word v)).irq = false)

/-! ### Who writes what -/

/-- R27 and R33: only a successful `FINIT` writes `FIELDCFG` and the tables (reset apart). -/
def Obligations.OnlyFinitWritesTheField : Prop :=
  ∀ s t : State, step s = .next t → s.inputs.head? ≠ some .reset → t.field ≠ s.field →
    s.status.run = true ∧
    ∃ imm : Half, decode (fetchWord s) = .ok (.finit imm) ∧
      t.field.prim = imm.extractLsb' 0 9 ∧ t.field.gb = imm.getLsbD 9 ∧ FieldValid t.field ∧
      t.field.fieldOk = true

/-- R28: only `CINIT` writes `CODERCFG`, and a successful `FINIT` sets it to 0 (reset apart). -/
def Obligations.OnlyCinitAndFinitWriteTheCoder : Prop :=
  ∀ s t : State, step s = .next t → s.inputs.head? ≠ some .reset → t.coder ≠ s.coder →
    s.status.run = true ∧
    ((∃ imm, decode (fetchWord s) = .ok (.finit imm) ∧
        t.coder = { k := 0, e := 0, coderOk := false }) ∨
      (∃ fa fb, decode (fetchWord s) = .ok (.cinit fa fb) ∧
        (t.coder.dataLen : Int) = s.signed fa ∧ (t.coder.parityLen : Int) = s.signed fb ∧
        CoderValid t.coder ∧ t.coder.coderOk = true))

/-- R25: `Z` is written by `SYND` and cleared by `CLRF`; `DF` and `DFR` are set by a decode failure of
`DEC`, `KES`, `CHIEN` or `CORR`, and cleared only by `CLRF` (the host's own writes and reset apart). R242:
the number of each reason, and which numbers each of these commands writes. -/
def Obligations.FlagsAreWrittenOnlyByTheirCommands : Prop :=
  (∀ (i : Instr) (s t : State), exec i s = .next t →
    (t.flags.z ≠ s.flags.z → i = .clrf ∨ ∃ fd fa, i = .synd fd fa) ∧
    ((t.flags.df, t.flags.dfr) ≠ (s.flags.df, s.flags.dfr) →
      (i = .clrf ∧ t.flags = { z := false, df := false, dfr := 0 }) ∨
      (mayFailDecoding i = true ∧ t.flags.df = true ∧ t.status = s.status ∧
        1 ≤ t.flags.dfr.toNat ∧ t.flags.dfr.toNat ≤ 5 ∧
        (∀ fd fa fc, i = .kes fd fa fc → t.flags.dfr.toNat ≤ 3) ∧
        (∀ fd fa fc, i = .chien fd fa fc → t.flags.dfr = 4) ∧
        (∀ fd fa fb fc, i = .corr fd fa fb fc → t.flags.dfr = 5))) ∧
    (s.flags.df = true → t.flags.df = false → i = .clrf)) ∧
  (∀ p ∈ [(DFReason.kesZero, (1 : BitVec 4)), (.kesDeg, 2), (.kesT0, 3), (.chien, 4), (.corr, 5)],
    p.1.code = p.2 ∧
    ∀ s : State, s.decodeFail p.1 = { s with flags := { s.flags with df := true, dfr := p.2 } })

/-! ### Frames -/

/-- What the commands that store nothing leave alone (30_encoding.md R94 lists the destinations): every
`R` and `P` register but the destinations, every byte of DMEM, `CTRL`, the flags but `Z` of `SYND`, `DF` and
`DFR` of `KES`, and those of `CLRF`, the field but for `FINIT`, the coder but for `FINIT` and `CINIT`, the
status but for `END`, and the error record; all of it when no error is raised. -/
def Obligations.FrameOfCommandsThatStoreNothing : Prop :=
  ∀ (i : Instr) (s t : State), stores i = false → exec i s = .next t →
    (∀ r, r ∉ destR i → t.reg r = s.reg r) ∧
    (∀ p, p ∉ destP i → t.poly p = s.poly p) ∧
    (∀ a, t.mem.read a = s.mem.read a) ∧
    t.ctrl = s.ctrl ∧ t.dmem0 = s.dmem0 ∧ t.inputs = s.inputs ∧ t.hostData = s.hostData ∧
    t.freeCount = s.freeCount ∧
    (i ≠ .clrf → (∀ fd fa, i ≠ .synd fd fa) → (∀ fd fa fc, i ≠ .kes fd fa fc) →
      t.flags = s.flags) ∧
    (∀ fd fa, i = .synd fd fa → t.flags = { s.flags with z := t.flags.z }) ∧
    (∀ fd fa fc, i = .kes fd fa fc → t.flags.z = s.flags.z) ∧
    ((∀ imm, i ≠ .finit imm) → t.field = s.field) ∧
    ((∀ imm, i ≠ .finit imm) → (∀ fa fb, i ≠ .cinit fa fb) → t.coder = s.coder) ∧
    (s.status.err = false → t.status.err = false →
      (i ≠ .endRun → t.status = s.status) ∧ t.cause = s.cause ∧ t.epc = s.epc ∧ t.info = s.info)

/-- What `PST`, `ENC`, `DEC`, `CHIEN`, `FORNEY` and `CORR` leave alone: every byte of DMEM outside the
operand they store to, every `R` register but the destination, every `P` register, the field, the coder and
the rest. `storeRange` gives the operand's address and length as the command computes them. -/
def Obligations.FrameOfStoringCommands : Prop :=
  ∀ (i : Instr) (s t : State), Inv s → stores i = true → exec i s = .next t →
    (∀ a n c : Nat, storeRange i s = (a, n) → (c < a ∨ a + n ≤ c) →
      t.mem.read c = s.mem.read c) ∧
    (∀ r, r ∉ destR i → t.reg r = s.reg r) ∧
    t.polys = s.polys ∧ t.field = s.field ∧ t.coder = s.coder ∧ t.ctrl = s.ctrl ∧
    t.dmem0 = s.dmem0 ∧ t.inputs = s.inputs ∧ t.hostData = s.hostData ∧ t.freeCount = s.freeCount ∧
    t.flags.z = s.flags.z ∧ (mayFailDecoding i = false → t.flags = s.flags) ∧
    (s.status.err = false → t.status.err = false →
      t.status = s.status ∧ t.cause = s.cause ∧ t.epc = s.epc ∧ t.info = s.info)

/-! ### Control commands (40_control.md) -/

/-- R114, R115, R116, R117: `END` ends the run, and `pc` keeps the increment; `NOP` only advances `pc`; `LI`
also loads the immediate; `CLRF` also clears the flags. -/
def Obligations.ControlCommandsComplete : Prop :=
  ∀ s : State,
    exec .endRun s =
      .next { s with pc := s.pc + 4, status := { s.status with run := false, done := true } } ∧
    exec .nop s = .next { s with pc := s.pc + 4 } ∧
    (∀ (fd : RIdx) (imm : Half), ∃ t, exec (.li fd imm) s = .next t ∧ t.reg fd = imm ∧
      (∀ r, r ≠ fd → t.reg r = s.reg r) ∧ t = { s with regs := t.regs, pc := s.pc + 4 }) ∧
    exec .clrf s =
      .next { s with pc := s.pc + 4, flags := { z := false, df := false, dfr := 0 } }

/-! ### The field (41_field.md) -/

/-- R131, R132, R133, R145: when `prim[8] = 1` and `exp[0..254]` are pairwise distinct, `FINIT` completes.
`exp` holds the successive doublings of 1, `exp[255] = 1`, `log[exp[i]] = i` below 255, `log[0] = 0`, every
non-zero byte is a power, `FIELDCFG` holds the mask and the base, and `CODERCFG` is 0. -/
def Obligations.FinitBuildsTheField : Prop :=
  ∀ (s : State) (imm : Half), (imm.extractLsb' 0 9).getLsbD 8 = true →
    ((buildExp (imm.extractLsb' 0 9)).toList.take 255).Nodup →
    ∃ t, exec (.finit imm) s = .next t ∧
      t = { s with field := t.field, coder := { k := 0, e := 0, coderOk := false }, pc := s.pc + 4 } ∧
      t.field.fieldOk = true ∧ t.field.prim = imm.extractLsb' 0 9 ∧ t.field.gb = imm.getLsbD 9 ∧
      t.field.exp[0] = 1 ∧ t.field.exp[255] = 1 ∧
      (∀ i : Fin 255, t.field.exp[i.val + 1] = gfDouble t.field.prim t.field.exp[i.val]) ∧
      (∀ i : Fin 255, t.field.logEntry t.field.exp[i.val] = i.val) ∧ t.field.log[0] = 0 ∧
      (∀ a : Byte, a ≠ 0 → ∃ i : Fin 255, t.field.exp[i.val] = a)

/-- R132, R145, R282: `FINIT` with `prim[8] = 0` raises `CONFIG` SUB 1; with `prim[8] = 1` and a repeated
power it raises `CONFIG` SUB 2; either way nothing but the error record changes. -/
def Obligations.FinitRejectsBadMasks : Prop :=
  ∀ (s : State) (imm : Half),
    ((imm.extractLsb' 0 9).getLsbD 8 = false →
      exec (.finit imm) s = .next (s.errorEntry (.config .degree)) ∧
      (s.errorEntry (.config .degree)).cause = { code := 0x02, sub := 1 }) ∧
    ((imm.extractLsb' 0 9).getLsbD 8 = true →
      ¬ ((buildExp (imm.extractLsb' 0 9)).toList.take 255).Nodup →
      exec (.finit imm) s = .next (s.errorEntry (.config .notPrimitive)) ∧
      (s.errorEntry (.config .notPrimitive)).cause = { code := 0x02, sub := 2 })

/-- R132: exactly 16 masks pass both checks. -/
def Obligations.SixteenMasksArePrimitive : Prop :=
  ∀ prim : BitVec 9, prim.getLsbD 8 = true ∧ isPrimitive prim = true ↔
    prim ∈ [(0x11D : BitVec 9), 0x12B, 0x12D, 0x14D, 0x15F, 0x163, 0x165, 0x169, 0x171, 0x187, 0x18D,
      0x1A9, 0x1C3, 0x1CF, 0x1E7, 0x1F5]

/-- R134, R140, R146: `GFADD` XORs the low bytes, with or without a field, and writes the byte
zero-extended. -/
def Obligations.GfaddXorsLowBytes : Prop :=
  ∀ (s : State) (fd fa fb : RIdx), ∃ t, exec (.gfadd fd fa fb) s = .next t ∧
    (∀ i, i < 8 → (t.reg fd).getLsbD i = ((s.reg fa).getLsbD i ^^ (s.reg fb).getLsbD i)) ∧
    (∀ i, 8 ≤ i → (t.reg fd).getLsbD i = false) ∧
    (∀ r, r ≠ fd → t.reg r = s.reg r) ∧ t = { s with regs := t.regs, pc := s.pc + 4 }

/-- R15, R135, R147: in a constructed field `GFMUL` is multiplication of binary polynomials reduced by
`PRIM`, computed here without tables. -/
def Obligations.GfmulMultipliesModuloPrim : Prop :=
  ∀ (s : State) (fd fa fb : RIdx), Inv s → s.field.fieldOk = true →
    exec (.gfmul fd fa fb) s =
      .next (s.setReg fd (zext16 (carrylessMul s.field.prim (s.elem fa) (s.elem fb) 8))).advance

/-- R136, R137, R138, R148, R149, R150: in a constructed field `GFINV` writes the inverse of a non-zero
byte, `GFEXP` the power of 2, `GFLOG` the exponent below 255; `GFINV` and `GFLOG` of 0 raise `INV0` and
`LOG0`. -/
def Obligations.GfinvGfexpAndGflogComplete : Prop :=
  ∀ (s : State) (fd fa : RIdx), Inv s → s.field.fieldOk = true →
    (s.elem fa ≠ 0 → ∃ v, exec (.gfinv fd fa) s = .next (s.setReg fd (zext16 v)).advance ∧
      carrylessMul s.field.prim (s.elem fa) v 8 = 1) ∧
    (s.elem fa = 0 → exec (.gfinv fd fa) s = .next (s.errorEntry .inv0)) ∧
    (∃ v, exec (.gfexp fd fa) s = .next (s.setReg fd (zext16 v)).advance ∧
      v = gfPow s.field 2 (s.elem fa).toNat) ∧
    (s.elem fa ≠ 0 → ∃ l : Fin 255,
      exec (.gflog fd fa) s = .next (s.setReg fd (BitVec.ofNat 16 l.val)).advance ∧
      gfPow s.field 2 l.val = s.elem fa) ∧
    (s.elem fa = 0 → exec (.gflog fd fa) s = .next (s.errorEntry .log0))

/-- R139: the laws (a) to (e) of a valid field. -/
def Obligations.FieldLaws : Prop :=
  ∀ F : Field, FieldValid F →
    ((∀ a b, gfMul F a b = gfMul F b a) ∧
      (∀ a b c, gfMul F (gfMul F a b) c = gfMul F a (gfMul F b c)) ∧
      (∀ a, gfMul F 1 a = a) ∧ (∀ a, gfMul F 0 a = 0)) ∧
    (∀ a, a ≠ 0 → ∃ v, gfInv F a = .ok v ∧ gfMul F a v = 1) ∧
    (∀ i, i < 255 → gfLog F (gfExp F i) = .ok i) ∧
    (∀ a, a ≠ 0 → ∃ l, gfLog F a = .ok l ∧ gfExp F l = a) ∧
    (∀ a b c, gfMul F a (gfAdd b c) = gfAdd (gfMul F a b) (gfMul F a c))

/-! ### Polynomials (42_polynomial.md) -/

/-- R171: the laws (a) to (c) of the polynomial functions in a valid field, for polynomial values of any
degree; (b) on either side. -/
def Obligations.PolynomialLaws : Prop :=
  ∀ (F : Field) (p q r : Poly), FieldValid F →
    (p = zeroPoly ∨ p.headD 0 ≠ 0) → (q = zeroPoly ∨ q.headD 0 ≠ 0) → (r = zeroPoly ∨ r.headD 0 ≠ 0) →
    polyAdd (polyAdd p q) q = p ∧
    polyMul F r (polyAdd p q) = polyAdd (polyMul F r p) (polyMul F r q) ∧
    polyMul F (polyAdd p q) r = polyAdd (polyMul F p r) (polyMul F q r) ∧
    (q ≠ zeroPoly → ∃ quot rem, polyDiv F p q = .ok (quot, rem) ∧
      p = polyAdd (polyMul F quot q) rem ∧ (rem = zeroPoly ∨ deg rem < deg q))

/-- The bounds on the model's two loops lose nothing: with more passes allowed, long division in a valid
field (R170) and the Euclidean loop (R246 (e)) give the same result (log entries 6 and 7). -/
def Obligations.MorePassesChangeNothing : Prop :=
  (∀ (F : Field) (a b : Poly) (invLead : Byte) (n : Nat), FieldValid F →
    (a = zeroPoly ∨ a.headD 0 ≠ 0) → b.headD 0 ≠ 0 → gfInv F (lead b) = .ok invLead → a.length ≤ n →
    divLoop F b invLead n zeroPoly a = divLoop F b invLead a.length zeroPoly a) ∧
  (∀ (F : Field) (e n : Nat) (sp rLast tLast t : Poly), sp ≠ [] → sp.length ≤ n →
    euclidLoop F e n rLast sp tLast t = euclidLoop F e sp.length rLast sp tLast t)

/-- R160, R162, R163, R181, R196, R197: `PCONST` makes a constant, `PDEG` gives `len - 1`, `PCOEF` the
coefficient of `x^j`, 0 above the degree. -/
def Obligations.PconstPdegAndPcoefComplete : Prop :=
  ∀ (s : State) (fa : RIdx),
    (∀ fd : PIdx, exec (.pconst fd fa) s = .next (s.setPoly fd [s.elem fa]).advance) ∧
    (∀ (fd : RIdx) (pa : PIdx), exec (.pdeg fd pa) s =
      .next (s.setReg fd (BitVec.ofNat 16 ((s.poly pa).length - 1))).advance) ∧
    (∀ (fd : RIdx) (pa : PIdx), ∃ t, exec (.pcoef fd pa fa) s = .next t ∧
      t = { s with regs := t.regs, pc := s.pc + 4 } ∧ (∀ r, r ≠ fd → t.reg r = s.reg r) ∧
      (∀ h : s.unsigned fa < (s.poly pa).length,
        t.reg fd = ((s.poly pa)[(s.poly pa).length - 1 - s.unsigned fa]).setWidth 16) ∧
      ((s.poly pa).length ≤ s.unsigned fa → s.poly pa ≠ [] → t.reg fd = 0))

/-- R165, R190: `PADD` adds coefficient by coefficient, and the result is a polynomial value. -/
def Obligations.PaddAddsCoefficients : Prop :=
  ∀ (s : State) (fd fa fb : PIdx), Inv s → ∃ p, exec (.padd fd fa fb) s = .next (s.setPoly fd p).advance ∧
    Normalized p ∧ ∀ j, coefAt p j = coefAt (s.poly fa) j ^^^ coefAt (s.poly fb) j

/-- R166, R178, R191: `PMUL` gives the convolution, of degree exactly `deg(a) + deg(b)` for non-zero
operands, and raises `CAPACITY` exactly when that exceeds 255. -/
def Obligations.PmulConvolves : Prop :=
  ∀ (s : State) (fd fa fb : PIdx), Inv s → s.field.fieldOk = true →
    let p := s.poly fa
    let q := s.poly fb
    (p = zeroPoly ∨ q = zeroPoly → exec (.pmul fd fa fb) s = .next (s.setPoly fd zeroPoly).advance) ∧
    (p ≠ zeroPoly → q ≠ zeroPoly → deg p + deg q ≤ 255 →
      ∃ c, exec (.pmul fd fa fb) s = .next (s.setPoly fd c).advance ∧ deg c = deg p + deg q ∧
        Normalized c ∧
        ∀ j, coefAt c j = xorRange (j + 1) fun i => gfMul s.field (coefAt p i) (coefAt q (j - i))) ∧
    (p ≠ zeroPoly → q ≠ zeroPoly → 255 < deg p + deg q →
      exec (.pmul fd fa fb) s = .next (s.errorEntry .capacity))

/-- R167, R168, R192, R193: `PSCL` multiplies every coefficient; `PMONO` also moves them up by the degree;
a negative degree raises `NEGDEG` even for a zero coefficient, and a result of degree above 255
`CAPACITY`. -/
def Obligations.PsclAndPmonoScale : Prop :=
  ∀ (s : State) (fd fa : PIdx) (fb fc : RIdx), Inv s → s.field.fieldOk = true →
    (∃ p, exec (.pscl fd fa fb) s = .next (s.setPoly fd p).advance ∧ Normalized p ∧
      ∀ j, coefAt p j = gfMul s.field (coefAt (s.poly fa) j) (s.elem fb)) ∧
    (s.signed fb < 0 → exec (.pmono fd fa fb fc) s = .next (s.errorEntry .negDeg)) ∧
    (0 ≤ s.signed fb → (s.elem fc = 0 ∨ s.poly fa = zeroPoly ∨ deg (s.poly fa) + s.signed fb ≤ 255) →
      ∃ p, exec (.pmono fd fa fb fc) s = .next (s.setPoly fd p).advance ∧ Normalized p ∧
        ∀ j : Nat, coefAt p j =
          if (j : Int) < s.signed fb then 0
          else gfMul s.field (coefAt (s.poly fa) (j - (s.signed fb).toNat)) (s.elem fc)) ∧
    (0 ≤ s.signed fb → s.elem fc ≠ 0 → s.poly fa ≠ zeroPoly → 255 < deg (s.poly fa) + s.signed fb →
      exec (.pmono fd fa fb fc) s = .next (s.errorEntry .capacity))

/-- R170, R171 (c), R194: `PDIV` writes the quotient and then the remainder of long division; a `Zero`
divisor raises `DIV0`. -/
def Obligations.PdivDivides : Prop :=
  ∀ (s : State) (fd fa fb fc : PIdx), Inv s → s.field.fieldOk = true →
    (s.poly fb ≠ zeroPoly → ∃ q r,
      exec (.pdiv fd fa fb fc) s = .next ((s.setPoly fd q).setPoly fc r).advance ∧
      Normalized q ∧ Normalized r ∧ s.poly fa = polyAdd (polyMul s.field q (s.poly fb)) r ∧
      (r = zeroPoly ∨ deg r < deg (s.poly fb))) ∧
    (s.poly fb = zeroPoly → exec (.pdiv fd fa fb fc) s = .next (s.errorEntry .div0))

/-- R164, R195: `PEVAL` gives the value of the polynomial at the point, the XOR of `c_j·x^j`, on its
short-circuits for 0 and 1 too. -/
def Obligations.PevalEvaluates : Prop :=
  ∀ (s : State) (fd : RIdx) (fa : PIdx) (fb : RIdx), Inv s → s.field.fieldOk = true →
    exec (.peval fd fa fb) s = .next (s.setReg fd (zext16
      (xorRange (s.poly fa).length fun j =>
        gfMul s.field (coefAt (s.poly fa) j) (gfPow s.field (s.elem fb) j)))).advance

/-- R176, R178, R198: `PGEN` writes a monic polynomial of degree exactly `d` that vanishes at
`α^(GB), …, α^(GB+d-1)`; a degree above 255 raises `CAPACITY`. -/
def Obligations.PgenHasItsRoots : Prop :=
  ∀ (s : State) (fd : PIdx) (fa : RIdx), Inv s → s.field.fieldOk = true →
    (s.unsigned fa ≤ 255 → ∃ g, exec (.pgen fd fa) s = .next (s.setPoly fd g).advance ∧
      deg g = s.unsigned fa ∧ lead g = 1 ∧ Normalized g ∧
      ∀ i, i < s.unsigned fa → eval s.field g (gfPow s.field 2 (i + s.field.base)) = 0) ∧
    (255 < s.unsigned fa → exec (.pgen fd fa) s = .next (s.errorEntry .capacity))

/-- R61, R160, R179: `PLD` reads the byte at the lowest address as the highest coefficient, and raises
`CAPACITY` when a byte above degree 255 is not zero. -/
def Obligations.PldReadsHighestFirst : Prop :=
  ∀ (s : State) (fd : PIdx) (fa fb : RIdx), InRange (s.unsigned fa) (s.unsigned fb) →
    let a := s.unsigned fa
    let n := s.unsigned fb
    ((∀ i, i + 256 < n → s.mem.read (a + i) = 0) →
      ∃ p, exec (.pld fd fa fb) s = .next (s.setPoly fd p).advance ∧ Normalized p ∧
        (∀ j, j < n → coefAt p j = s.mem.read (a + (n - 1 - j))) ∧ (∀ j, n ≤ j → coefAt p j = 0)) ∧
    ((∃ i, i + 256 < n ∧ s.mem.read (a + i) ≠ 0) →
      exec (.pld fd fa fb) s = .next (s.errorEntry .capacity))

/-- R180: `PST` writes the polynomial left-zero-padded, and a `PLD` of the same operand reads it back. -/
def Obligations.PstStoresAndPldReadsBack : Prop :=
  ∀ (s : State) (fa fd : PIdx) (fb fc : RIdx), Inv s →
    (s.poly fa).length ≤ s.unsigned fc → InRange (s.unsigned fb) (s.unsigned fc) →
    ∃ t, exec (.pst fa fb fc) s = .next t ∧ t = { s with mem := t.mem, pc := s.pc + 4 } ∧
      (∀ j, j < s.unsigned fc →
        t.mem.read (s.unsigned fb + (s.unsigned fc - 1 - j)) = coefAt (s.poly fa) j) ∧
      exec (.pld fd fb fc) t = .next (t.setPoly fd (s.poly fa)).advance

/-! ### The coder (43_coder.md) -/

/-- R211, R282: `CINIT` builds the coder when `11 <= k`, `1 <= e` and `k + e <= 255`, read signed, and
raises `CONFIG` with SUB 3, 4 or 5, in that order, when not. -/
def Obligations.CinitConstructsTheCoder : Prop :=
  ∀ (s : State) (fa fb : RIdx), s.field.fieldOk = true →
    let k := s.signed fa
    let e := s.signed fb
    (11 ≤ k → 1 ≤ e → k + e ≤ 255 →
      ∃ t, exec (.cinit fa fb) s = .next t ∧ t = { s with coder := t.coder, pc := s.pc + 4 } ∧
        (t.coder.dataLen : Int) = k ∧ (t.coder.parityLen : Int) = e ∧ t.coder.coderOk = true) ∧
    (k < 11 → exec (.cinit fa fb) s = .next (s.errorEntry (.config .shortBlock))) ∧
    (11 ≤ k → e < 1 → exec (.cinit fa fb) s = .next (s.errorEntry (.config .noParity))) ∧
    (11 ≤ k → 1 ≤ e → 255 < k + e →
      exec (.cinit fa fb) s = .next (s.errorEntry (.config .longBlock)))

/-- R212, R213, R214, R221 (b): with its operands in range and apart, `ENC` completes. Each output block is
the data block, zero-padded if it is the last, followed by parity under which all syndromes are 0. -/
def Obligations.EncWritesCodewords : Prop :=
  ∀ (s : State) (fd fa fb fc : RIdx), Inv s → s.coder.coderOk = true →
    let K := s.coder.dataLen
    let N := s.coder.blockLen
    let src := s.unsigned fa
    let len := s.unsigned fb
    let dst := s.unsigned fc
    let outlen := blockCount len K * N
    InRange src len → outlen ≤ 0xFFFF → InRange dst outlen → ¬ Overlap src len dst outlen →
    ∃ t, exec (.enc fd fa fb fc) s = .next t ∧
      t = { s with regs := t.regs, mem := t.mem, pc := s.pc + 4 } ∧
      (t.reg fd).toNat = outlen ∧ (∀ r, r ≠ fd → t.reg r = s.reg r) ∧
      (∀ c, c < dst ∨ dst + outlen ≤ c → t.mem.read c = s.mem.read c) ∧
      ∀ b, b < blockCount len K →
        (∀ j, j < K → t.mem.read (dst + b * N + j) =
          if b * K + j < len then s.mem.read (src + b * K + j) else 0) ∧
        syndromes s.field s.coder.parityLen (t.loadBytes (dst + b * N) N) = zeros s.coder.parityLen

/-- R215 to R219, R222, R224: with its operands in range and apart, `DEC` completes, whatever the bytes.
Each output block is what `decode_block` gives for its input block, or the marker block when that fails;
`R[fd]` counts the failures; `DF` and `DFR` report the highest-numbered one, and without any the flags stay. -/
def Obligations.DecDecodesEveryBlock : Prop :=
  ∀ (s : State) (fd fa fb fc : RIdx), Inv s → s.coder.coderOk = true →
    let K := s.coder.dataLen
    let N := s.coder.blockLen
    let src := s.unsigned fa
    let len := s.unsigned fb
    let dst := s.unsigned fc
    let nb := blockCount len N
    let result := fun b => decodeBlock s.field s.coder (blockAt (s.loadBytes src len) N b)
    InRange src len → InRange dst (nb * K) → ¬ Overlap src len dst (nb * K) →
    ∃ t, exec (.dec fd fa fb fc) s = .next t ∧
      t = { s with regs := t.regs, mem := t.mem, flags := t.flags, pc := s.pc + 4 } ∧
      (∀ r, r ≠ fd → t.reg r = s.reg r) ∧
      (∀ c, c < dst ∨ dst + nb * K ≤ c → t.mem.read c = s.mem.read c) ∧
      (∀ b, b < nb →
        (∃ v, result b = .ok v ∧ t.loadBytes (dst + b * K) K = v) ∨
        (∃ r, result b = .error (.df r) ∧ t.loadBytes (dst + b * K) K = markerBlock s.coder)) ∧
      (t.reg fd).toNat = ((List.range nb).filter fun b => !(result b).isOk).length ∧
      ((∀ b, b < nb → (result b).isOk = true) → t.flags = s.flags) ∧
      (∀ b r, b < nb → result b = .error (.df r) →
        (∀ c, b < c → c < nb → (result c).isOk = true) →
        t.flags = { z := s.flags.z, df := true, dfr := r.code })

/-- R217: the marker block is the 11 bytes of `MARKER`, each the open value at its place and at most `0x7F`,
and then `FILLER`, `K` bytes in all. -/
def Obligations.MarkerBlockFillsTheBlock : Prop :=
  ∀ C : Coder, CoderValid C →
    (markerBlock C).length = C.dataLen ∧ (markerBlock C).take 11 = markerBytes ∧
    markerBytes.length = 11 ∧
    (∀ i : Fin 11, (markerBlock C)[i.val]? = some ((Config.marker i).setWidth 8)) ∧
    (∀ b ∈ markerBytes, b.toNat ≤ 0x7F) ∧
    (∀ b ∈ (markerBlock C).drop 11, b = Config.filler)

/-- R221 (a), (b): every block of `K` bytes encodes to `N` bytes that start with it, have all syndromes 0,
and decode to it. -/
def Obligations.EncodedBlocksDecode : Prop :=
  ∀ (F : Field) (C : Coder) (D : List Byte), FieldValid F → CoderValid C → D.length = C.dataLen →
    ∃ B, encodeBlock F C D = .ok B ∧ B.length = C.blockLen ∧ B.take C.dataLen = D ∧
      syndromes F C.parityLen B = zeros C.parityLen ∧ decodeBlock F C B = .ok D

/-- R221 (c), the correction bound: an encoded block with at most `floor(E/2)` bytes changed, anywhere and
to anything, decodes to its data. -/
def Obligations.ErrorsWithinTheBoundAreCorrected : Prop :=
  ∀ (F : Field) (C : Coder) (D B B' : List Byte), FieldValid F → CoderValid C → D.length = C.dataLen →
    encodeBlock F C D = .ok B → B'.length = B.length → distance B B' ≤ C.parityLen / 2 →
    decodeBlock F C B' = .ok D

/-- R223, R255: a block whose syndromes are all 0 but perhaps the first is returned as it came. So with
`E = 1` every block is. -/
def Obligations.DegreeZeroSyndromesAreAccepted : Prop :=
  ∀ (F : Field) (C : Coder) (B : List Byte), FieldValid F → CoderValid C → B.length = C.blockLen →
    ((∀ i, 1 ≤ i → i < C.parityLen → eval F (normalize B) (gfExp F (i + F.base)) = 0) →
      decodeBlock F C B = .ok (B.take C.dataLen)) ∧
    (C.parityLen = 1 → decodeBlock F C B = .ok (B.take C.dataLen))

/-! ### The decoder's stages (44_decoder_stages.md) -/

/-- R243, R244, R250: `SYND` writes the polynomial whose coefficient of `x^i` is the block's value at
`α^(i+GB)`, and `Z` says whether it is `Zero`. -/
def Obligations.SyndComputesSyndromes : Prop :=
  ∀ (s : State) (fd : PIdx) (fa : RIdx), Inv s → s.coder.coderOk = true →
    InRange (s.unsigned fa) s.coder.blockLen →
    let c := normalize (s.loadBytes (s.unsigned fa) s.coder.blockLen)
    ∃ p, exec (.synd fd fa) s = .next ((s.setPoly fd p).setZ (decide (p = zeroPoly))).advance ∧
      Normalized p ∧
      (∀ i, i < s.coder.parityLen → coefAt p i =
        xorRange c.length fun j =>
          gfMul s.field (coefAt c j) (gfPow s.field (gfPow s.field 2 (i + s.field.base)) j)) ∧
      (∀ i, s.coder.parityLen ≤ i → coefAt p i = 0)

/-- R245, R246, R251: `KES` on a polynomial of degree below `E` gives `sigma` and `omega` with
`sigma(0) = 1`, `sigma·S = omega` below `x^E` and `2·deg(omega) < E` or `omega = Zero`; or it fails with
`DF(3)`, never with 1 or 2, and then changes nothing but the flags. When `2·deg(S) < E` it completes with
`sigma = One` and `omega = S`. A degree of `E` or more raises `OPERAND`. -/
def Obligations.KesSolvesTheKeyEquation : Prop :=
  ∀ (s : State) (fd fa fc : PIdx), Inv s → s.coder.coderOk = true →
    let E := s.coder.parityLen
    let S := s.poly fa
    (deg S < E →
      (∃ sigma omega,
        exec (.kes fd fa fc) s = .next ((s.setPoly fd sigma).setPoly fc omega).advance ∧
        Normalized sigma ∧ Normalized omega ∧ coefAt sigma 0 = 1 ∧
        (∀ j, j < E → coefAt (polyMul s.field sigma S) j = coefAt omega j) ∧
        (2 * deg omega < E ∨ omega = zeroPoly)) ∨
      exec (.kes fd fa fc) s = .next (s.decodeFail .kesT0).advance) ∧
    (2 * deg S < E →
      exec (.kes fd fa fc) s = .next ((s.setPoly fd onePoly).setPoly fc S).advance) ∧
    (E ≤ deg S → exec (.kes fd fa fc) s = .next (s.errorEntry .operand))

/-- R247, R252: `CHIEN` tries `1, 2, …, 255` in byte order and stores the inverses of the roots; with as
many roots as the degree it completes and counts them, with fewer it fails with `DF(4)` and changes nothing
but the flags. -/
def Obligations.ChienFindsTheRoots : Prop :=
  ∀ (s : State) (fd : RIdx) (fa : PIdx) (fc : RIdx), Inv s → s.field.fieldOk = true →
    let sigma := s.poly fa
    let n := deg sigma
    let dst := s.unsigned fc
    let roots := chienCandidates.filter fun x => eval s.field sigma x = 0
    InRange dst n →
    (n ≤ roots.length →
      ∃ t, exec (.chien fd fa fc) s = .next t ∧
        t = { s with regs := t.regs, mem := t.mem, pc := s.pc + 4 } ∧
        (t.reg fd).toNat = n ∧ (∀ r, r ≠ fd → t.reg r = s.reg r) ∧
        (∀ c, c < dst ∨ dst + n ≤ c → t.mem.read c = s.mem.read c) ∧
        (∀ i, i < n → gfMul s.field (roots.getD i 0) (t.mem.read (dst + i)) = 1)) ∧
    (roots.length < n → exec (.chien fd fa fc) s = .next (s.decodeFail .chien).advance)

/-- R248, R253: for distinct non-zero locations `FORNEY` stores the magnitudes `M_i` with
`M_i·X_i^GB·Π_(j≠i)(X_j/X_i ⊕ 1) = omega(1/X_i)`; a zero location or two equal ones raise `INV0`. -/
def Obligations.ForneyComputesMagnitudes : Prop :=
  ∀ (s : State) (fd : RIdx) (fa : PIdx) (fb fc : RIdx), Inv s → s.field.fieldOk = true →
    let F := s.field
    let n := s.unsigned fc
    let dst := s.unsigned fd
    let X := s.loadBytes (s.unsigned fb) n
    InRange (s.unsigned fb) n → InRange dst n → ¬ Overlap (s.unsigned fb) n dst n →
    ((∀ x ∈ X, x ≠ 0) → X.Nodup →
      ∃ t, exec (.forney fd fa fb fc) s = .next t ∧ t = { s with mem := t.mem, pc := s.pc + 4 } ∧
        (∀ c, c < dst ∨ dst + n ≤ c → t.mem.read c = s.mem.read c) ∧
        ∀ (i : Nat) (x xinv : Byte), X[i]? = some x → gfMul F x xinv = 1 →
          gfMul F (gfMul F (t.mem.read (dst + i)) (gfPow F x F.base))
            ((X.eraseIdx i).foldl (fun d y => gfMul F d (gfMul F y xinv ^^^ 1)) 1) =
          eval F (s.poly fa) xinv) ∧
    ((∃ x ∈ X, x = 0) ∨ ¬ X.Nodup → exec (.forney fd fa fb fc) s = .next (s.errorEntry .inv0))

/-- R249, R254: when every location is the power `α^j` of an offset `N-1-j` inside the block, `CORR` XORs
each magnitude into its byte, equal locations one after another; the first location that is 0 or out of
range decides between `LOG0` and `DF(5)`, and the block is unchanged. -/
def Obligations.CorrXorsMagnitudes : Prop :=
  ∀ (s : State) (fd fa fb fc : RIdx), Inv s → s.coder.coderOk = true →
    let F := s.field
    let N := s.coder.blockLen
    let blk := s.unsigned fd
    let n := s.unsigned fc
    let X := s.loadBytes (s.unsigned fa) n
    let M := s.loadBytes (s.unsigned fb) n
    InRange blk N → InRange (s.unsigned fa) n → InRange (s.unsigned fb) n →
    ¬ Overlap (s.unsigned fa) n blk N → ¬ Overlap (s.unsigned fb) n blk N →
    ((∀ x ∈ X, ∃ j, j < N ∧ gfPow F 2 j = x) →
      ∃ t, exec (.corr fd fa fb fc) s = .next t ∧ t = { s with mem := t.mem, pc := s.pc + 4 } ∧
        (∀ c, c < blk ∨ blk + N ≤ c → t.mem.read c = s.mem.read c) ∧
        (∀ j, j < N → t.mem.read (blk + (N - 1 - j)) =
          s.mem.read (blk + (N - 1 - j)) ^^^
            xorSum (((X.zip M).filter fun c => c.1 = gfPow F 2 j).map (·.2)))) ∧
    (∀ i x, X[i]? = some x → (∀ y ∈ X.take i, ∃ j, j < N ∧ gfPow F 2 j = y) →
      (x = 0 → exec (.corr fd fa fb fc) s = .next (s.errorEntry .log0)) ∧
      (x ≠ 0 → (∀ j, j < N → gfPow F 2 j ≠ x) →
        exec (.corr fd fa fb fc) s = .next (s.decodeFail .corr).advance))

/-- R225: `DEC` reads only `FIELDCFG` with its tables, `CODERCFG`, its register operands and its DMEM
operand. Two states that agree on these get the same failure count, the same output bytes and the same
report. -/
def Obligations.DecReadsOnlyItsOperands : Prop :=
  ∀ (s s' t : State) (fd fa fb fc : RIdx), Inv s → Inv s' → s.coder.coderOk = true →
    s.status.err = false → s'.field = s.field → s'.coder = s.coder →
    s'.reg fa = s.reg fa → s'.reg fb = s.reg fb → s'.reg fc = s.reg fc →
    s'.loadBytes (s.unsigned fa) (s.unsigned fb) = s.loadBytes (s.unsigned fa) (s.unsigned fb) →
    exec (.dec fd fa fb fc) s = .next t → t.status.err = false →
    ∃ t', exec (.dec fd fa fb fc) s' = .next t' ∧ t'.status = s'.status ∧ t'.reg fd = t.reg fd ∧
      t'.loadBytes (s.unsigned fc) (storeRange (.dec fd fa fb fc) s).2 =
        t.loadBytes (s.unsigned fc) (storeRange (.dec fd fa fb fc) s).2 ∧
      ((t.flags = s.flags ∧ t'.flags = s'.flags) ∨
        (t.flags.df = true ∧ t'.flags.df = true ∧ t'.flags.dfr = t.flags.dfr))
end

