-- ==== Sys2Proof/Laws/Command.lean ====
section
/-! SUPPORT. Everything the shared operations of a command can do: how its computation ends, and the
checks it is made of. A proof about a command peels its meaning apart with these. -/

namespace Sys2Proof.Machine

/-! ### How a command ends -/

@[simp] theorem command_ok (s t : State) : command s (.ok t) = .next t.advance := rfl

@[simp] theorem command_raise (s : State) (c : Cause) :
    command s (.error (.raise c)) = .next (s.errorEntry c) := rfl

@[simp] theorem command_df (s : State) (r : DFReason) :
    command s (.error (.df r)) = .next (s.decodeFail r).advance := rfl

/-- A command answers a next state, in one of three ways. -/
theorem command_cases {s t : State} {x : Except Stop State} (h : command s x = .next t) :
    (∃ u, x = .ok u ∧ t = u.advance) ∨ (∃ c, x = .error (.raise c) ∧ t = s.errorEntry c) ∨
      ∃ r, x = .error (.df r) ∧ t = (s.decodeFail r).advance := by
  match x with
  | .ok u => exact .inl ⟨u, rfl, by simpa using h.symm⟩
  | .error (.raise c) => exact .inr (.inl ⟨c, rfl, by simpa using h.symm⟩)
  | .error (.df r) => exact .inr (.inr ⟨r, rfl, by simpa using h.symm⟩)

/-- A command never faults and never refuses. -/
theorem command_total (s : State) (x : Except Stop State) : ∃ t, command s x = .next t := by
  match x with
  | .ok u => exact ⟨_, rfl⟩
  | .error (.raise c) => exact ⟨_, rfl⟩
  | .error (.df r) => exact ⟨_, rfl⟩

/-! ### Computations in sequence -/

theorem bind_eq_ok {α β : Type} {x : Except Stop α} {f : α → Except Stop β} {b : β} :
    (x >>= f) = .ok b ↔ ∃ a, x = .ok a ∧ f a = .ok b := by
  cases x <;> simp [bind, Except.bind]

theorem bind_eq_error {α β : Type} {x : Except Stop α} {f : α → Except Stop β} {e : Stop} :
    (x >>= f) = .error e ↔ x = .error e ∨ ∃ a, x = .ok a ∧ f a = .error e := by
  cases x <;> simp [bind, Except.bind]

@[simp] theorem ok_bind {α β : Type} (a : α) (f : α → Except Stop β) :
    ((Except.ok a : Except Stop α) >>= f) = f a := rfl

@[simp] theorem error_bind {α β : Type} (e : Stop) (f : α → Except Stop β) :
    ((Except.error e : Except Stop α) >>= f) = .error e := rfl

@[simp] theorem raise_eq_ok {α : Type} (c : Cause) (a : α) : raise c = .ok a ↔ False := by simp [raise]

@[simp] theorem raise_eq_raise {α : Type} (c d : Cause) :
    (raise c : Except Stop α) = .error (.raise d) ↔ c = d := by simp [raise]

@[simp] theorem raise_eq_df {α : Type} (c : Cause) (r : DFReason) :
    (raise c : Except Stop α) = .error (.df r) ↔ False := by simp [raise]

@[simp] theorem failDF_eq_ok {α : Type} (r : DFReason) (a : α) : failDF r = .ok a ↔ False := by
  simp [failDF]

@[simp] theorem failDF_eq_df {α : Type} (r q : DFReason) :
    (failDF r : Except Stop α) = .error (.df q) ↔ r = q := by simp [failDF]

@[simp] theorem failDF_eq_raise {α : Type} (r : DFReason) (c : Cause) :
    (failDF r : Except Stop α) = .error (.raise c) ↔ False := by simp [failDF]

/-! ### The checks -/

theorem requireField_of_ok {s : State} (h : s.field.fieldOk = true) : requireField s = .ok () := by
  simp [requireField, h]

theorem requireField_of_not {s : State} (h : s.field.fieldOk = false) :
    requireField s = raise .notConfigured := by
  simp [requireField, h]

theorem requireField_cases (s : State) :
    (s.field.fieldOk = true ∧ requireField s = .ok ()) ∨
      (s.field.fieldOk = false ∧ requireField s = raise .notConfigured) := by
  cases h : s.field.fieldOk <;> simp [requireField, h]

theorem requireCoder_of_ok {s : State} (h : s.coder.coderOk = true) : requireCoder s = .ok () := by
  simp [requireCoder, h]

theorem requireCoder_of_not {s : State} (h : s.coder.coderOk = false) :
    requireCoder s = raise .notConfigured := by
  simp [requireCoder, h]

theorem requireCoder_cases (s : State) :
    (s.coder.coderOk = true ∧ requireCoder s = .ok ()) ∨
      (s.coder.coderOk = false ∧ requireCoder s = raise .notConfigured) := by
  cases h : s.coder.coderOk <;> simp [requireCoder, h]

theorem checkRange_of_inRange {a n : Nat} (h : InRange a n) : checkRange a n = .ok () := if_pos h

theorem checkRange_of_not {a n : Nat} (h : ¬ InRange a n) : checkRange a n = raise .memRange := if_neg h

theorem checkRange_cases (a n : Nat) :
    (InRange a n ∧ checkRange a n = .ok ()) ∨ (¬ InRange a n ∧ checkRange a n = raise .memRange) := by
  by_cases h : InRange a n
  · exact .inl ⟨h, checkRange_of_inRange h⟩
  · exact .inr ⟨h, checkRange_of_not h⟩

theorem checkOverlap_of_overlap {a n b m : Nat} (h : Overlap a n b m) :
    checkOverlap a n b m = raise .overlap := if_pos h

theorem checkOverlap_of_not {a n b m : Nat} (h : ¬ Overlap a n b m) : checkOverlap a n b m = .ok () :=
  if_neg h

theorem checkOverlap_cases (a n b m : Nat) :
    (¬ Overlap a n b m ∧ checkOverlap a n b m = .ok ()) ∨
      (Overlap a n b m ∧ checkOverlap a n b m = raise .overlap) := by
  by_cases h : Overlap a n b m
  · exact .inr ⟨h, checkOverlap_of_overlap h⟩
  · exact .inl ⟨h, checkOverlap_of_not h⟩

theorem checkCapacity_of_le {p : Poly} (h : p.length ≤ Config.maxDegree + 1) :
    checkCapacity p = .ok () := by
  have : ¬ p.length - 1 > Config.maxDegree := by omega
  simp [checkCapacity, this]

theorem checkCapacity_of_gt {p : Poly} (h : Config.maxDegree + 1 < p.length) :
    checkCapacity p = raise .capacity := by
  have : p.length - 1 > Config.maxDegree := by omega
  simp [checkCapacity, this]

theorem checkCapacity_cases (p : Poly) :
    (p.length ≤ Config.maxDegree + 1 ∧ checkCapacity p = .ok ()) ∨
      (Config.maxDegree + 1 < p.length ∧ checkCapacity p = raise .capacity) := by
  by_cases h : p.length ≤ Config.maxDegree + 1
  · exact .inl ⟨h, checkCapacity_of_le h⟩
  · exact .inr ⟨by omega, checkCapacity_of_gt (by omega)⟩

end Sys2Proof.Machine
end

