-- ==== Sys2Proof/Laws/Field.lean ====
section
/-! SUPPORT. The tables `FINIT` builds, entry by entry, and the distinctness check as a statement about
lists. -/

namespace Sys2Proof.Machine

/-! ### `exp` -/

/-- The first value is the start. -/
theorem powersFrom_zero (prim : BitVec 9) (n : Nat) (x : Byte) :
    (powersFrom prim (n + 1) x)[0]? = some x := by simp [powersFrom]

/-- Each value is the doubling of the one before. -/
theorem powersFrom_succ (prim : BitVec 9) (n i : Nat) (x : Byte) (h : i + 1 < n) :
    (powersFrom prim n x)[i + 1]? = ((powersFrom prim n x)[i]?).map (gfDouble prim) := by
  induction n generalizing i x with
  | zero => omega
  | succ n ih =>
    cases i with
    | zero =>
      obtain ⟨m, rfl⟩ : ∃ m, n = m + 1 := ⟨n - 1, by omega⟩
      simp [powersFrom]
    | succ i => simpa [powersFrom] using ih i (gfDouble prim x) (by omega)

/-- A shorter run of values is a prefix of a longer one. -/
theorem powersFrom_take (prim : BitVec 9) (m n : Nat) (x : Byte) (h : m ≤ n) :
    (powersFrom prim n x).take m = powersFrom prim m x := by
  induction n generalizing m x with
  | zero => obtain rfl : m = 0 := by omega
            rfl
  | succ n ih =>
    cases m with
    | zero => rfl
    | succ m => simp [powersFrom, ih m (gfDouble prim x) (by omega)]

@[simp] theorem buildExp_toList (prim : BitVec 9) : (buildExp prim).toList = powersFrom prim 256 1 := by
  simp [buildExp, Vector.toList]

/-- Without a reduction by `prim`, doubling is a shift. -/
theorem gfDouble_of_lt (prim : BitVec 9) (x : Byte) (h : x.toNat < 128) : gfDouble prim x = x <<< 1 := by
  have hx : x.toNat <<< 1 % 512 = 2 * x.toNat := by rw [Nat.shiftLeft_eq]; omega
  apply BitVec.eq_of_toNat_eq
  simp only [gfDouble, BitVec.toNat_shiftLeft, BitVec.toNat_setWidth]
  rw [if_neg]
  · simp only [BitVec.toNat_setWidth, BitVec.toNat_shiftLeft, Nat.shiftLeft_eq]
    omega
  · simp only [Nat.shiftLeft_eq]
    omega

/-! ### The distinctness check (41_field.md R132) -/

/-- The mask `seen` of `distinctFrom` stands for a set of bytes. -/
theorem distinctFrom_iff (seen : Nat) (l : List Byte) :
    distinctFrom seen l = true ↔ l.Nodup ∧ ∀ x ∈ l, seen.testBit x.toNat = false := by
  induction l generalizing seen with
  | nil => simp [distinctFrom]
  | cons x xs ih =>
    simp only [distinctFrom, Bool.and_eq_true, Bool.not_eq_true', ih, List.nodup_cons, List.mem_cons,
      forall_eq_or_imp, Nat.testBit_or, Nat.one_shiftLeft, Nat.testBit_two_pow, Bool.or_eq_false_iff,
      decide_eq_false_iff_not]
    constructor
    · rintro ⟨hx, hn, h⟩
      exact ⟨⟨fun hm => (h x hm).2 rfl, hn⟩, hx, fun y hy => (h y hy).1⟩
    · rintro ⟨⟨hm, hn⟩, hx, h⟩
      refine ⟨hx, hn, fun y hy => ⟨h y hy, fun he => hm ?_⟩⟩
      rwa [BitVec.eq_of_toNat_eq he]

/-- Check (2) of R132 says that the 255 powers are pairwise distinct. -/
theorem isPrimitive_iff (prim : BitVec 9) :
    isPrimitive prim = true ↔ (powersFrom prim 255 1).Nodup := by
  simp [isPrimitive, distinctFrom_iff]

/-! ### `log` -/

/-- Setting logs leaves the entries of other bytes alone. -/
theorem setLogs_of_not_mem (l : List Byte) (i : Nat) (log : Vector Byte 256) (a : Byte) (h : a ∉ l) :
    (setLogs l i log)[a.toNat]'a.isLt = log[a.toNat]'a.isLt := by
  induction l generalizing i log with
  | nil => rfl
  | cons x xs ih =>
    rw [List.mem_cons, not_or] at h
    have hne : x.toNat ≠ a.toNat := fun he => h.1 (BitVec.eq_of_toNat_eq he.symm)
    simp only [setLogs]
    rw [ih _ _ h.2, Vector.getElem_set_ne _ _ hne]

/-- In a list without repeats each byte's entry is its index. -/
theorem setLogs_of_getElem (l : List Byte) (i : Nat) (log : Vector Byte 256) (hn : l.Nodup) (j : Nat)
    (a : Byte) (h : l[j]? = some a) :
    (setLogs l i log)[a.toNat]'a.isLt = BitVec.ofNat 8 (i + j) := by
  induction l generalizing i log j with
  | nil => simp at h
  | cons x xs ih =>
    rw [List.nodup_cons] at hn
    cases j with
    | zero =>
      obtain rfl : x = a := by simpa using h
      simp only [setLogs]
      rw [setLogs_of_not_mem _ _ _ _ hn.1]
      simp
    | succ j =>
      simp only [setLogs]
      rw [ih (i + 1) _ hn.2 j (by simpa using h)]
      congr 1
      omega

end Sys2Proof.Machine
end

