-- ==== Sys2Proof/Laws/Memory.lean ====
section
/-! SUPPORT. The laws of DMEM: every operation keeps the canonical form, a read after a write to the
same place gives the value written, and a write leaves every other place alone. -/

namespace Sys2Proof.Machine

/-! ### The canonical form -/

theorem Memory.wf_nil : Memory.wf [] := by simp [Memory.wf]

theorem Memory.wf_cons {b : Nat} {v : Byte} {m : Memory} :
    Memory.wf ((b, v) :: m) ↔
      Memory.wf m ∧ (∀ c ∈ m, b < c.1) ∧ b < Config.dmemSize ∧ v ≠ Memory.unlisted := by
  simp only [Memory.wf, List.pairwise_cons, List.mem_cons, forall_eq_or_imp]
  tauto

/-- Every address listed after a write was listed before or is the one written. -/
theorem Memory.mem_write {m : Memory} {a : Nat} {v : Byte} {c : Host.Cell}
    (h : c ∈ Memory.write m a v) : c ∈ m ∨ c = (a, v) := by
  induction m with
  | nil =>
    simp only [Memory.write] at h
    split at h <;> simp_all
  | cons d m ih =>
    obtain ⟨b, w⟩ := d
    simp only [Memory.write] at h
    split at h
    · rcases List.mem_cons.1 h with h | h
      · simp [h]
      · rcases ih h with h | h <;> simp [h]
    · split at h
      · split at h <;> (simp_all <;> tauto)
      · split at h <;> (simp_all <;> tauto)

/-- A write keeps the canonical form. -/
theorem Memory.wf_write {m : Memory} {a : Nat} {v : Byte} (h : m.wf) (ha : a < Config.dmemSize) :
    (Memory.write m a v).wf := by
  induction m with
  | nil =>
    simp only [Memory.write]
    split
    · exact Memory.wf_nil
    · next hv => exact Memory.wf_cons.2 ⟨Memory.wf_nil, by simp, ha, hv⟩
  | cons d m ih =>
    obtain ⟨b, w⟩ := d
    obtain ⟨hm, hlt, hb, hw⟩ := Memory.wf_cons.1 h
    simp only [Memory.write]
    split
    · next hba =>
      refine Memory.wf_cons.2 ⟨ih hm, ?_, hb, hw⟩
      intro c hc
      rcases Memory.mem_write hc with hc | hc
      · exact hlt c hc
      · simpa [hc] using hba
    · next hba =>
      split
      · next hab =>
        subst hab
        split
        · exact hm
        · next hv => exact Memory.wf_cons.2 ⟨hm, hlt, hb, hv⟩
      · next hab =>
        split
        · exact h
        · next hv =>
          refine Memory.wf_cons.2 ⟨h, ?_, ha, hv⟩
          intro c hc
          rcases List.mem_cons.1 hc with hc | hc
          · subst hc; show a < b; omega
          · have := hlt c hc; omega

/-- Storing a sequence inside DMEM keeps the canonical form. -/
theorem Memory.wf_writeBytes {bs : List Byte} {m : Memory} {a : Nat} (h : m.wf)
    (ha : bs = [] ∨ a + bs.length ≤ Config.dmemSize) : (m.writeBytes a bs).wf := by
  induction bs generalizing m a with
  | nil => exact h
  | cons b bs ih =>
    have ha' : a + (bs.length + 1) ≤ Config.dmemSize := by simpa using ha
    exact ih (Memory.wf_write h (by omega)) (.inr (by omega))

/-! ### Reading -/

/-- In canonical form nothing is listed below the first address. -/
theorem Memory.read_of_lt {m : Memory} {a : Nat} (h : ∀ c ∈ m, a < c.1) :
    Memory.read m a = Memory.unlisted := by
  cases m with
  | nil => rfl
  | cons d m =>
    obtain ⟨b, w⟩ := d
    have hb : a < b := h (b, w) (by simp)
    simp only [Memory.read]
    rw [if_neg (by omega), if_neg (by omega)]

/-- A read after a write to the same place gives the value written. -/
theorem Memory.read_write_same {m : Memory} (h : m.wf) (a : Nat) (v : Byte) :
    Memory.read (Memory.write m a v) a = v := by
  induction m with
  | nil =>
    simp only [Memory.write]
    split
    · next hv => simp [Memory.read, hv]
    · simp [Memory.read]
  | cons d m ih =>
    obtain ⟨b, w⟩ := d
    obtain ⟨hm, hlt, -, -⟩ := Memory.wf_cons.1 h
    simp only [Memory.write]
    split
    · next hba => simp only [Memory.read, if_pos hba]; exact ih hm
    · next hba =>
      split
      · next hab =>
        subst hab
        split
        · next hv => rw [Memory.read_of_lt hlt, hv]
        · simp [Memory.read]
      · next hab =>
        split
        · next hv => simp only [Memory.read]; rw [if_neg hba, if_neg hab, hv]
        · simp [Memory.read]

/-- A write leaves every other place alone. -/
theorem Memory.read_write_ne {m : Memory} (h : m.wf) {a c : Nat} (v : Byte) (hc : c ≠ a) :
    Memory.read (Memory.write m a v) c = Memory.read m c := by
  induction m with
  | nil =>
    simp only [Memory.write]
    split
    · rfl
    · simp only [Memory.read]; rw [if_neg (Ne.symm hc)]; split <;> rfl
  | cons d m ih =>
    obtain ⟨b, w⟩ := d
    obtain ⟨hm, hlt, -, -⟩ := Memory.wf_cons.1 h
    simp only [Memory.write]
    split
    · simp only [Memory.read]; rw [ih hm]
    · next hba =>
      split
      · next hab =>
        subst hab
        split
        · simp only [Memory.read]
          split
          · rfl
          · next hbc =>
            rw [if_neg (Ne.symm hc), Memory.read_of_lt fun d hd => by have := hlt d hd; omega]
        · simp only [Memory.read]; rw [if_neg (Ne.symm hc), if_neg (Ne.symm hc)]
      · next hab =>
        split
        · rfl
        · rw [Memory.read]
          split
          · rfl
          · next hac =>
            rw [if_neg (Ne.symm hc), Memory.read, if_neg (by omega), if_neg (by omega)]

/-- Storing a sequence leaves every place outside it alone. -/
theorem Memory.read_writeBytes_outside {bs : List Byte} {m : Memory} {a c : Nat} (h : m.wf)
    (ha : bs = [] ∨ a + bs.length ≤ Config.dmemSize) (hc : c < a ∨ a + bs.length ≤ c) :
    Memory.read (m.writeBytes a bs) c = Memory.read m c := by
  induction bs generalizing m a with
  | nil => rfl
  | cons b bs ih =>
    have ha' : a + (bs.length + 1) ≤ Config.dmemSize := by simpa using ha
    have hc' : c < a ∨ a + (bs.length + 1) ≤ c := by simpa using hc
    show Memory.read (Memory.writeBytes (Memory.write m a b) (a + 1) bs) c = _
    rw [ih (Memory.wf_write h (by omega)) (.inr (by omega)) (by omega),
      Memory.read_write_ne h b (by omega)]

/-- Storing a sequence puts its byte `i` at `a + i`. -/
theorem Memory.read_writeBytes_inside {bs : List Byte} {m : Memory} {a i : Nat} (h : m.wf)
    (ha : a + bs.length ≤ Config.dmemSize) (hi : i < bs.length) :
    Memory.read (m.writeBytes a bs) (a + i) = bs[i] := by
  induction bs generalizing m a i with
  | nil => simp at hi
  | cons b bs ih =>
    have ha' : a + (bs.length + 1) ≤ Config.dmemSize := by simpa using ha
    have hw : (Memory.write m a b).wf := Memory.wf_write h (by omega)
    show Memory.read (Memory.writeBytes (Memory.write m a b) (a + 1) bs) (a + i) = _
    cases i with
    | zero =>
      rw [Memory.read_writeBytes_outside hw (.inr (by omega)) (by omega)]
      simpa using Memory.read_write_same h a b
    | succ i =>
      have hi' : i < bs.length := by simpa using hi
      have := ih hw (a := a + 1) (i := i) (by omega) hi'
      rw [show a + (i + 1) = a + 1 + i by omega, this]
      simp

@[simp] theorem Memory.readBytes_length (m : Memory) (a n : Nat) : (m.readBytes a n).length = n := by
  induction n generalizing a with
  | zero => rfl
  | succ n ih => simp [Memory.readBytes, ih]

theorem Memory.readBytes_getElem (m : Memory) (a n i : Nat) (h : i < (m.readBytes a n).length) :
    (m.readBytes a n)[i] = m.read (a + i) := by
  induction n generalizing a i with
  | zero => simp at h
  | succ n ih =>
    cases i with
    | zero => simp [Memory.readBytes]
    | succ i =>
      have hi : i < (m.readBytes (a + 1) n).length := by simpa using h
      simpa [Memory.readBytes, show a + (i + 1) = a + 1 + i by omega] using ih (a + 1) i hi

/-- Reading back a stored sequence gives it. -/
theorem Memory.readBytes_writeBytes {bs : List Byte} {m : Memory} {a : Nat} (h : m.wf)
    (ha : bs = [] ∨ a + bs.length ≤ Config.dmemSize) :
    (m.writeBytes a bs).readBytes a bs.length = bs := by
  refine List.ext_getElem (by simp) fun i h₁ h₂ => ?_
  rw [Memory.readBytes_getElem]
  rcases ha with rfl | ha
  · simp at h₂
  · exact Memory.read_writeBytes_inside h ha h₂

/-- Two memories in canonical form that read alike everywhere are the same list. -/
theorem Memory.eq_of_read {m m' : Memory} (h : m.wf) (h' : m'.wf)
    (hr : ∀ a, Memory.read m a = Memory.read m' a) : m = m' := by
  induction m generalizing m' with
  | nil =>
    cases m' with
    | nil => rfl
    | cons d m' =>
      obtain ⟨b, w⟩ := d
      have hw := (Memory.wf_cons.1 h').2.2.2
      exact absurd (by simpa [Memory.read] using (hr b).symm) hw
  | cons d m ih =>
    obtain ⟨b, w⟩ := d
    obtain ⟨hm, hlt, -, hw⟩ := Memory.wf_cons.1 h
    cases m' with
    | nil => exact absurd (by simpa [Memory.read] using hr b) hw
    | cons d' m' =>
      obtain ⟨c, x⟩ := d'
      obtain ⟨hm', hlt', -, hx⟩ := Memory.wf_cons.1 h'
      have hb := hr b
      have hc := hr c
      simp only [Memory.read, lt_irrefl, if_false, if_true] at hb hc
      have hbc : b = c := by
        by_contra hne
        rcases Nat.lt_or_gt_of_ne hne with hlt | hgt
        · rw [if_neg (by omega), if_neg (by omega)] at hb; exact hw hb
        · rw [if_neg (by omega), if_neg (by omega)] at hc; exact hx hc.symm
      subst hbc
      have hwx : w = x := by simpa using hb
      subst hwx
      rw [ih hm hm' fun a => ?_]
      by_cases hab : b < a
      · simpa [Memory.read, hab] using hr a
      · rw [Memory.read_of_lt fun d hd => by have := hlt d hd; omega,
          Memory.read_of_lt fun d hd => by have := hlt' d hd; omega]

end Sys2Proof.Machine
end

