-- ==== Sys2Proof/Laws/HostBus.lean ====
section
/-! SUPPORT. Everything a host access can do, said once. -/

namespace Sys2Proof.Machine

/-- A host read replies, and does nothing else; during a run the reply may be open. -/
theorem hostRead_cases (s : State) (addr : BitVec 17) (width : AccessWidth) :
    (∃ v, hostRead s addr width = s.replied v) ∨
      (s.status.run = true ∧ ∃ n, hostRead s addr width = s.repliedFree n) := by
  unfold hostRead
  split
  · split
    · next h => exact .inr ⟨h, _, rfl⟩
    · exact .inl ⟨_, rfl⟩
  · split
    · next h => exact .inr ⟨h, _, rfl⟩
    · exact .inl ⟨_, rfl⟩
  · split
    · next h => exact .inr ⟨h.1, _, rfl⟩
    · exact .inl ⟨_, rfl⟩
  · exact .inl ⟨_, rfl⟩

/-- An access that reaches DMEM ends inside it: its address is a multiple of its width, which divides
65536. -/
theorem targetOf_dmem {addr : BitVec 17} {width : AccessWidth} {a : Nat}
    (h : targetOf addr width = .dmem a) :
    a = addr.toNat ∧ a % width.size = 0 ∧ a + width.size ≤ Config.dmemSize := by
  simp only [targetOf] at h
  split at h
  · next hlt =>
    split at h
    · next ha =>
      obtain rfl : addr.toNat = a := by simpa using h
      refine ⟨rfl, ha, ?_⟩
      have : Config.dmemSize = 65536 := rfl
      cases width <;> simp only [AccessWidth.size] at ha ⊢ <;> omega
    · cases h
  · split at h
    · split at h <;> cases h
    · cases h

/-- A host write leaves the machine alone, is dropped, writes `CTRL` or `STATUS`, or, while the sequencer is
idle, stores to DMEM or writes `PC`, `FLAGS` or an `R` register. -/
theorem hostWrite_cases (s : State) (addr : BitVec 17) (width : AccessWidth) (v : Word) :
    hostWrite s addr width v = s ∨
    (s.status.run = true ∧ hostWrite s addr width v = dropWrite s) ∨
    hostWrite s addr width v = writeCtrl s v ∨
    hostWrite s addr width v = writeStatus s v ∨
    (s.status.run = false ∧
      ((∃ a bytes, a + bytes.length ≤ Config.dmemSize ∧
          hostWrite s addr width v = s.storeBytes a bytes) ∨
        hostWrite s addr width v = { s with pc := v.extractLsb' 2 14 ++ (0 : BitVec 2) } ∨
        hostWrite s addr width v =
          { s with flags := { z := v.getLsbD 0, df := v.getLsbD 1, dfr := v.extractLsb' 4 4 } } ∨
        ∃ i, hostWrite s addr width v = s.setReg i (v.extractLsb' 0 16))) := by
  cases hr : s.status.run <;> cases ht : targetOf addr width with
  | dmem a =>
    obtain ⟨-, -, ha⟩ := targetOf_dmem ht
    have hlen : ((bytesOfWord v).take width.size).length = width.size := by cases width <;> rfl
    simp only [hostWrite, ht, hr]
    first
      | exact .inr (.inl ⟨trivial, rfl⟩)
      | exact .inr (.inr (.inr (.inr ⟨trivial, .inl ⟨a, _, hlen.symm ▸ ha, rfl⟩⟩)))
  | dmemMisaligned => simp [hostWrite, ht, hr]
  | register r =>
    cases r with
    | rwin i =>
      simp only [hostWrite, hostWriteReg, ht, hr]
      first
        | exact .inr (.inl ⟨trivial, rfl⟩)
        | exact .inr (.inr (.inr (.inr ⟨trivial, .inr (.inr (.inr ⟨i, rfl⟩))⟩)))
    | _ => simp [hostWrite, hostWriteReg, ht, hr]
  | nothing => simp [hostWrite, ht]

end Sys2Proof.Machine
end

