-- ==== Sys2Proof/Laws/Poly.lean ====
section
/-! SUPPORT. Lengths, leading coefficients and coefficients of what the polynomial functions build. -/

namespace Sys2Proof.Machine

/-! ### `normalize` (42_polynomial.md R160) -/

@[simp] theorem normalize_nil : normalize [] = zeroPoly := rfl

theorem normalize_zero_cons (cs : List Byte) : normalize (0 :: cs) = normalize cs := if_pos rfl

theorem normalize_cons_of_ne {c : Byte} (h : c ≠ 0) (cs : List Byte) : normalize (c :: cs) = c :: cs :=
  if_neg h

/-- The result has the form of a polynomial value. -/
theorem normalize_form (cs : List Byte) : normalize cs = zeroPoly ∨ (normalize cs).headD 0 ≠ 0 := by
  induction cs with
  | nil => exact .inl rfl
  | cons c cs ih =>
    by_cases h : c = 0
    · subst h; rw [normalize_zero_cons]; exact ih
    · rw [normalize_cons_of_ne h]; exact .inr h

theorem normalize_ne_nil (cs : List Byte) : normalize cs ≠ [] := by
  induction cs with
  | nil => simp [zeroPoly]
  | cons c cs ih =>
    by_cases h : c = 0
    · subst h; rw [normalize_zero_cons]; exact ih
    · rw [normalize_cons_of_ne h]; simp

theorem normalize_length_le (cs : List Byte) : (normalize cs).length ≤ max cs.length 1 := by
  induction cs with
  | nil => simp [zeroPoly]
  | cons c cs ih =>
    by_cases h : c = 0
    · subst h; rw [normalize_zero_cons]; simp only [List.length_cons]; omega
    · rw [normalize_cons_of_ne h]; omega

/-- A polynomial value is already normalized. -/
theorem normalize_of_form {p : Poly} (h : p = zeroPoly ∨ p.headD 0 ≠ 0) : normalize p = p := by
  rcases h with rfl | h
  · rfl
  · cases p with
    | nil => simp at h
    | cons c cs => exact normalize_cons_of_ne (by simpa using h) cs

theorem normalize_idem (cs : List Byte) : normalize (normalize cs) = normalize cs :=
  normalize_of_form (normalize_form cs)

theorem normalize_zeros_append (n : Nat) (cs : List Byte) : normalize (zeros n ++ cs) = normalize cs := by
  induction n with
  | zero => simp [zeros]
  | succ n ih =>
    rw [zeros, List.replicate_succ, List.cons_append, normalize_zero_cons]
    exact ih

/-! ### `coefAt` (42_polynomial.md R163) -/

/-- The coefficient of `x^j` is entry `j` from the end. -/
theorem coefAt_eq_reverse (p : Poly) (j : Nat) : coefAt p j = p.reverse.getD j 0 := by
  unfold coefAt deg
  rcases Nat.lt_or_ge j p.length with h | h
  · rw [if_pos (by omega)]
    simp only [List.getD_eq_getElem?_getD]
    rw [List.getElem?_reverse h]
  · rw [List.getD_eq_default p.reverse _ (by simpa using h)]
    split
    · next hj =>
      have : p.length = 0 := by omega
      simp [List.length_eq_zero_iff.1 this]
    · rfl

/-- Normalizing changes no coefficient. -/
theorem coefAt_normalize (cs : List Byte) (j : Nat) : coefAt (normalize cs) j = cs.reverse.getD j 0 := by
  rw [coefAt_eq_reverse]
  induction cs with
  | nil => cases j <;> simp [zeroPoly]
  | cons c cs ih =>
    by_cases h : c = 0
    · subst h
      rw [normalize_zero_cons, ih]
      simp only [List.reverse_cons, List.getD_eq_getElem?_getD, List.getElem?_append, List.length_reverse]
      split
      · rfl
      · next hj =>
        rw [List.getElem?_eq_none (by simpa using hj)]
        rcases Nat.eq_zero_or_pos (j - cs.length) with h0 | h0
        · simp [h0]
        · rw [List.getElem?_eq_none (by simp; omega)]
    · rw [normalize_cons_of_ne h]

/-! ### Lengths -/

@[simp] theorem zeros_length (n : Nat) : (zeros n).length = n := by simp [zeros]

theorem padLeft_length {n : Nat} {p : List Byte} (h : p.length ≤ n) : (padLeft n p).length = n := by
  simp only [padLeft, List.length_append, zeros_length]
  omega

theorem polyAdd_length_le (p q : Poly) : (polyAdd p q).length ≤ max (max p.length q.length) 1 := by
  refine (normalize_length_le _).trans ?_
  rw [List.length_zipWith, padLeft_length (Nat.le_max_left _ _), padLeft_length (Nat.le_max_right _ _),
    Nat.min_self]

theorem convolve_length (F : Field) (p q : List Byte) :
    (convolve F p q).length = p.length + q.length - 1 := by
  induction p with
  | nil => simp [convolve]
  | cons a p ih => simp [convolve, ih]; omega

theorem polyScale_length_le (F : Field) (p : Poly) (s : Byte) :
    (polyScale F p s).length ≤ max p.length 1 := by
  unfold polyScale
  split
  · simp [zeroPoly]
  · split
    · exact Nat.le_max_left _ _
    · simpa using normalize_length_le (p.map fun c => gfMul F c s)

/-! ### Segmentation (43_coder.md R212, R215) -/

theorem blockAt_length {data : List Byte} {n b : Nat} : (blockAt data n b).length = n := by
  simp [blockAt]

@[simp] theorem segments_length (data : List Byte) (n : Nat) :
    (segments data n).length = blockCount data.length n := by simp [segments]

/-- The marker block fills a data block (43_coder.md R217). -/
theorem markerBytes_length : markerBytes.length = 11 := by simp [markerBytes]

end Sys2Proof.Machine
end

