-- ==== Sys2Proof/Laws/Invariant.lean ====
section
/-! SUPPORT. Each named update of the state keeps the invariants of Safety.lean. -/

namespace Sys2Proof.Safety

open Sys2Proof.Machine

theorem Inv.setReg {s : State} (h : Inv s) (i : RIdx) (v : Half) : Inv (s.setReg i v) :=
  ⟨h.mem, h.dmem0, h.pc, h.polys, h.status, h.cause, h.field, h.coder⟩

theorem Inv.setPoly {s : State} (h : Inv s) (i : PIdx) {p : Poly} (hp : Normalized p) :
    Inv (s.setPoly i p) := by
  refine ⟨h.mem, h.dmem0, h.pc, fun j => ?_, h.status, h.cause, h.field, h.coder⟩
  by_cases hij : i.val = j.val
  · simpa only [State.poly, State.setPoly, hij, Vector.getElem_set_self] using hp
  · simpa only [State.poly, State.setPoly, Vector.getElem_set_ne _ _ hij] using h.polys j

theorem Inv.storeBytes {s : State} (h : Inv s) (a : Nat) (bytes : List Byte)
    (ha : bytes = [] ∨ a + bytes.length ≤ Config.dmemSize) : Inv (s.storeBytes a bytes) :=
  ⟨Memory.wf_writeBytes h.mem ha, h.dmem0, h.pc, h.polys, h.status, h.cause, h.field, h.coder⟩

theorem Inv.advance {s : State} (h : Inv s) : Inv s.advance := by
  refine ⟨h.mem, h.dmem0, ?_, h.polys, h.status, h.cause, h.field, h.coder⟩
  have := h.pc
  have e : (s.pc + 4).toNat = (s.pc.toNat + 4) % 65536 := by simp
  simp only [State.advance, e]
  omega

theorem Inv.errorEntry {s : State} (h : Inv s) (c : Cause) : Inv (s.errorEntry c) :=
  ⟨h.mem, h.dmem0, h.pc, h.polys, fun hr => by simp [State.errorEntry] at hr,
    fun he => by simp [State.errorEntry] at he, h.field, h.coder⟩

theorem Inv.decodeFail {s : State} (h : Inv s) (r : DFReason) : Inv (s.decodeFail r) :=
  ⟨h.mem, h.dmem0, h.pc, h.polys, h.status, h.cause, h.field, h.coder⟩

theorem Inv.setZ {s : State} (h : Inv s) (z : Bool) : Inv (s.setZ z) :=
  ⟨h.mem, h.dmem0, h.pc, h.polys, h.status, h.cause, h.field, h.coder⟩

theorem Inv.clearFlags {s : State} (h : Inv s) : Inv s.clearFlags :=
  ⟨h.mem, h.dmem0, h.pc, h.polys, h.status, h.cause, h.field, h.coder⟩

theorem Inv.withInputs {s : State} (h : Inv s) (events : List Event) : Inv { s with inputs := events } :=
  ⟨h.mem, h.dmem0, h.pc, h.polys, h.status, h.cause, h.field, h.coder⟩

/-- A normalized list of at most 256 bytes is a polynomial value. -/
theorem normalized_normalize {cs : List Byte} (h : cs.length ≤ Config.maxDegree + 1) :
    Normalized (normalize cs) := by
  refine ⟨(normalize_length_le cs).trans ?_, normalize_form cs⟩
  have : 1 ≤ Config.maxDegree + 1 := Nat.le_add_left _ _
  omega

end Sys2Proof.Safety
end

