-- ==== Sys2Proof/Laws/PerInstr.lean ====
section
/-! SUPPORT. Facts about each command as syntax, one lemma per constructor. -/

namespace Sys2Proof.Laws

/-! ### Shared steps -/

/-- A format R word under a mask that covers the opcode and none of the operands the row has. -/
theorem formatR_and (op : BitVec 6) (fd fa fb fc : Fin 8) (mask : Word)
    (ho : formatN op &&& mask = formatN op)
    (hd : BitVec.ofNat 32 fd.val <<< 23 &&& mask = 0#32) (ha : BitVec.ofNat 32 fa.val <<< 20 &&& mask = 0#32)
    (hb : BitVec.ofNat 32 fb.val <<< 17 &&& mask = 0#32) (hc : BitVec.ofNat 32 fc.val <<< 14 &&& mask = 0#32) :
    formatR op fd fa fb fc &&& mask = formatN op := by
  have distrib : ∀ x y : Word, (x ||| y) &&& mask = (x &&& mask) ||| (y &&& mask) := fun x y => by
    rw [BitVec.and_comm, BitVec.and_or_distrib_left, BitVec.and_comm, BitVec.and_comm mask]
  unfold formatR
  simp only [distrib, hd, ha, hb, hc, BitVec.or_zero]
  exact ho

/-- A format I word under a mask that covers the opcode and no variable bit of the row. -/
theorem formatI_and (op : BitVec 6) (fd : Fin 8) (imm : Half) (mask : Word)
    (ho : formatN op &&& mask = formatN op) (hd : BitVec.ofNat 32 fd.val <<< 23 &&& mask = 0#32)
    (hi : imm.setWidth 32 &&& mask = 0#32) : formatI op fd imm &&& mask = formatN op := by
  have distrib : ∀ x y : Word, (x ||| y) &&& mask = (x &&& mask) ||| (y &&& mask) := fun x y => by
    rw [BitVec.and_comm, BitVec.and_or_distrib_left, BitVec.and_comm, BitVec.and_comm mask]
  unfold formatI
  simp only [distrib, hd, hi, BitVec.or_zero]
  exact ho

/-! ### The word of a command meets its row's mask and match (30_encoding.md R94, R95) -/

/-- The encoding of a well-formed command meets the mask and the match of its own row. -/
def MatchesRow.Statement (i : Instr) : Prop := i.WellFormed → encode i &&& i.mask = i.pattern

theorem MatchesRow.endRun : MatchesRow.Statement .endRun := fun _ => by decide

theorem MatchesRow.nop : MatchesRow.Statement .nop := fun _ => by decide

theorem MatchesRow.li (fd : RIdx) (imm : Half) : MatchesRow.Statement (.li fd imm) := fun hw =>
  formatI_and 0x03 fd imm 0xFC7F0000 (by decide) (by clear hw; revert fd; decide) (by
    apply BitVec.eq_of_getLsbD_eq
    intro i hi
    interval_cases i <;> simp)

theorem MatchesRow.clrf : MatchesRow.Statement .clrf := fun _ => by decide

theorem MatchesRow.finit (imm : Half) : MatchesRow.Statement (.finit imm) := fun hw =>
  formatI_and 0x08 0 imm 0xFFFFFC00 (by decide) (by decide) (by
    have bits : ∀ k, k < 6 → imm.getLsbD (10 + k) = false := fun k hk => by
      have h := congrArg (BitVec.getLsbD · k) hw
      simpa [hk] using h
    have h0 := bits 0 (by decide)
    have h1 := bits 1 (by decide)
    have h2 := bits 2 (by decide)
    have h3 := bits 3 (by decide)
    have h4 := bits 4 (by decide)
    have h5 := bits 5 (by decide)
    apply BitVec.eq_of_getLsbD_eq
    intro i hi
    interval_cases i <;> simp_all)

theorem MatchesRow.gfadd (fd fa fb : RIdx) : MatchesRow.Statement (.gfadd fd fa fb) := fun hw =>
  formatR_and 0x09 fd fa fb 0 0xFC01FFFF (by decide)
    (by clear hw; revert fd; decide) (by clear hw; revert fa; decide)
    (by clear hw; revert fb; decide) (by decide)

theorem MatchesRow.gfmul (fd fa fb : RIdx) : MatchesRow.Statement (.gfmul fd fa fb) := fun hw =>
  formatR_and 0x0A fd fa fb 0 0xFC01FFFF (by decide)
    (by clear hw; revert fd; decide) (by clear hw; revert fa; decide)
    (by clear hw; revert fb; decide) (by decide)

theorem MatchesRow.gfinv (fd fa : RIdx) : MatchesRow.Statement (.gfinv fd fa) := fun hw =>
  formatR_and 0x0B fd fa 0 0 0xFC0FFFFF (by decide)
    (by clear hw; revert fd; decide) (by clear hw; revert fa; decide)
    (by decide) (by decide)

theorem MatchesRow.gfexp (fd fa : RIdx) : MatchesRow.Statement (.gfexp fd fa) := fun hw =>
  formatR_and 0x0C fd fa 0 0 0xFC0FFFFF (by decide)
    (by clear hw; revert fd; decide) (by clear hw; revert fa; decide)
    (by decide) (by decide)

theorem MatchesRow.gflog (fd fa : RIdx) : MatchesRow.Statement (.gflog fd fa) := fun hw =>
  formatR_and 0x0D fd fa 0 0 0xFC0FFFFF (by decide)
    (by clear hw; revert fd; decide) (by clear hw; revert fa; decide)
    (by decide) (by decide)

theorem MatchesRow.pld (fd : PIdx) (fa fb : RIdx) : MatchesRow.Statement (.pld fd fa fb) := fun hw =>
  formatR_and 0x10 fd fa fb 0 0xFC01FFFF (by decide)
    (by clear hw; revert fd; decide) (by clear hw; revert fa; decide)
    (by clear hw; revert fb; decide) (by decide)

theorem MatchesRow.pst (fa : PIdx) (fb fc : RIdx) : MatchesRow.Statement (.pst fa fb fc) := fun hw =>
  formatR_and 0x11 0 fa fb fc 0xFF803FFF (by decide)
    (by decide) (by clear hw; revert fa; decide)
    (by clear hw; revert fb; decide) (by clear hw; revert fc; decide)

theorem MatchesRow.pconst (fd : PIdx) (fa : RIdx) : MatchesRow.Statement (.pconst fd fa) := fun hw =>
  formatR_and 0x12 fd fa 0 0 0xFC0FFFFF (by decide)
    (by clear hw; revert fd; decide) (by clear hw; revert fa; decide)
    (by decide) (by decide)

theorem MatchesRow.padd (fd fa fb : PIdx) : MatchesRow.Statement (.padd fd fa fb) := fun hw =>
  formatR_and 0x13 fd fa fb 0 0xFC01FFFF (by decide)
    (by clear hw; revert fd; decide) (by clear hw; revert fa; decide)
    (by clear hw; revert fb; decide) (by decide)

theorem MatchesRow.pmul (fd fa fb : PIdx) : MatchesRow.Statement (.pmul fd fa fb) := fun hw =>
  formatR_and 0x14 fd fa fb 0 0xFC01FFFF (by decide)
    (by clear hw; revert fd; decide) (by clear hw; revert fa; decide)
    (by clear hw; revert fb; decide) (by decide)

theorem MatchesRow.pscl (fd fa : PIdx) (fb : RIdx) : MatchesRow.Statement (.pscl fd fa fb) := fun hw =>
  formatR_and 0x15 fd fa fb 0 0xFC01FFFF (by decide)
    (by clear hw; revert fd; decide) (by clear hw; revert fa; decide)
    (by clear hw; revert fb; decide) (by decide)

theorem MatchesRow.pmono (fd fa : PIdx) (fb fc : RIdx) : MatchesRow.Statement (.pmono fd fa fb fc) := fun hw =>
  formatR_and 0x16 fd fa fb fc 0xFC003FFF (by decide)
    (by clear hw; revert fd; decide) (by clear hw; revert fa; decide)
    (by clear hw; revert fb; decide) (by clear hw; revert fc; decide)

theorem MatchesRow.pdiv (fd fa fb fc : PIdx) : MatchesRow.Statement (.pdiv fd fa fb fc) := fun hw =>
  formatR_and 0x17 fd fa fb fc 0xFC003FFF (by decide)
    (by clear hw; revert fd; decide) (by clear hw; revert fa; decide)
    (by clear hw; revert fb; decide) (by clear hw; revert fc; decide)

theorem MatchesRow.peval (fd : RIdx) (fa : PIdx) (fb : RIdx) : MatchesRow.Statement (.peval fd fa fb) := fun hw =>
  formatR_and 0x18 fd fa fb 0 0xFC01FFFF (by decide)
    (by clear hw; revert fd; decide) (by clear hw; revert fa; decide)
    (by clear hw; revert fb; decide) (by decide)

theorem MatchesRow.pdeg (fd : RIdx) (fa : PIdx) : MatchesRow.Statement (.pdeg fd fa) := fun hw =>
  formatR_and 0x19 fd fa 0 0 0xFC0FFFFF (by decide)
    (by clear hw; revert fd; decide) (by clear hw; revert fa; decide)
    (by decide) (by decide)

theorem MatchesRow.pcoef (fd : RIdx) (fa : PIdx) (fb : RIdx) : MatchesRow.Statement (.pcoef fd fa fb) := fun hw =>
  formatR_and 0x1A fd fa fb 0 0xFC01FFFF (by decide)
    (by clear hw; revert fd; decide) (by clear hw; revert fa; decide)
    (by clear hw; revert fb; decide) (by decide)

theorem MatchesRow.pgen (fd : PIdx) (fa : RIdx) : MatchesRow.Statement (.pgen fd fa) := fun hw =>
  formatR_and 0x1B fd fa 0 0 0xFC0FFFFF (by decide)
    (by clear hw; revert fd; decide) (by clear hw; revert fa; decide)
    (by decide) (by decide)

theorem MatchesRow.cinit (fa fb : RIdx) : MatchesRow.Statement (.cinit fa fb) := fun hw =>
  formatR_and 0x20 0 fa fb 0 0xFF81FFFF (by decide)
    (by decide) (by clear hw; revert fa; decide)
    (by clear hw; revert fb; decide) (by decide)

theorem MatchesRow.enc (fd fa fb fc : RIdx) : MatchesRow.Statement (.enc fd fa fb fc) := fun hw =>
  formatR_and 0x21 fd fa fb fc 0xFC003FFF (by decide)
    (by clear hw; revert fd; decide) (by clear hw; revert fa; decide)
    (by clear hw; revert fb; decide) (by clear hw; revert fc; decide)

theorem MatchesRow.dec (fd fa fb fc : RIdx) : MatchesRow.Statement (.dec fd fa fb fc) := fun hw =>
  formatR_and 0x22 fd fa fb fc 0xFC003FFF (by decide)
    (by clear hw; revert fd; decide) (by clear hw; revert fa; decide)
    (by clear hw; revert fb; decide) (by clear hw; revert fc; decide)

theorem MatchesRow.synd (fd : PIdx) (fa : RIdx) : MatchesRow.Statement (.synd fd fa) := fun hw =>
  formatR_and 0x23 fd fa 0 0 0xFC0FFFFF (by decide)
    (by clear hw; revert fd; decide) (by clear hw; revert fa; decide)
    (by decide) (by decide)

theorem MatchesRow.kes (fd fa fc : PIdx) : MatchesRow.Statement (.kes fd fa fc) := fun hw =>
  formatR_and 0x24 fd fa 0 fc 0xFC0E3FFF (by decide)
    (by clear hw; revert fd; decide) (by clear hw; revert fa; decide)
    (by decide) (by clear hw; revert fc; decide)

theorem MatchesRow.chien (fd : RIdx) (fa : PIdx) (fc : RIdx) : MatchesRow.Statement (.chien fd fa fc) := fun hw =>
  formatR_and 0x25 fd fa 0 fc 0xFC0E3FFF (by decide)
    (by clear hw; revert fd; decide) (by clear hw; revert fa; decide)
    (by decide) (by clear hw; revert fc; decide)

theorem MatchesRow.forney (fd : RIdx) (fa : PIdx) (fb fc : RIdx) : MatchesRow.Statement (.forney fd fa fb fc) := fun hw =>
  formatR_and 0x26 fd fa fb fc 0xFC003FFF (by decide)
    (by clear hw; revert fd; decide) (by clear hw; revert fa; decide)
    (by clear hw; revert fb; decide) (by clear hw; revert fc; decide)

theorem MatchesRow.corr (fd fa fb fc : RIdx) : MatchesRow.Statement (.corr fd fa fb fc) := fun hw =>
  formatR_and 0x27 fd fa fb fc 0xFC003FFF (by decide)
    (by clear hw; revert fd; decide) (by clear hw; revert fa; decide)
    (by clear hw; revert fb; decide) (by clear hw; revert fc; decide)

end Sys2Proof.Laws
end

