-- ==== Sys2Proof/Laws/State.lean ====
section
/-! SUPPORT. What every named update of the state does to every field, one lemma each, true by rfl;
and reading a register back after a write. -/

namespace Sys2Proof.Machine

/-! ### `State.setReg` -/

@[simp] theorem State.setReg_regs (s : State) (i : RIdx) (v : Half) : (s.setReg i v).regs = s.regs.set i.val v := rfl
@[simp] theorem State.setReg_polys (s : State) (i : RIdx) (v : Half) : (s.setReg i v).polys = s.polys := rfl
@[simp] theorem State.setReg_pc (s : State) (i : RIdx) (v : Half) : (s.setReg i v).pc = s.pc := rfl
@[simp] theorem State.setReg_flags (s : State) (i : RIdx) (v : Half) : (s.setReg i v).flags = s.flags := rfl
@[simp] theorem State.setReg_ctrl (s : State) (i : RIdx) (v : Half) : (s.setReg i v).ctrl = s.ctrl := rfl
@[simp] theorem State.setReg_status (s : State) (i : RIdx) (v : Half) : (s.setReg i v).status = s.status := rfl
@[simp] theorem State.setReg_cause (s : State) (i : RIdx) (v : Half) : (s.setReg i v).cause = s.cause := rfl
@[simp] theorem State.setReg_epc (s : State) (i : RIdx) (v : Half) : (s.setReg i v).epc = s.epc := rfl
@[simp] theorem State.setReg_info (s : State) (i : RIdx) (v : Half) : (s.setReg i v).info = s.info := rfl
@[simp] theorem State.setReg_field (s : State) (i : RIdx) (v : Half) : (s.setReg i v).field = s.field := rfl
@[simp] theorem State.setReg_coder (s : State) (i : RIdx) (v : Half) : (s.setReg i v).coder = s.coder := rfl
@[simp] theorem State.setReg_mem (s : State) (i : RIdx) (v : Half) : (s.setReg i v).mem = s.mem := rfl
@[simp] theorem State.setReg_dmem0 (s : State) (i : RIdx) (v : Half) : (s.setReg i v).dmem0 = s.dmem0 := rfl
@[simp] theorem State.setReg_inputs (s : State) (i : RIdx) (v : Half) : (s.setReg i v).inputs = s.inputs := rfl
@[simp] theorem State.setReg_hostData (s : State) (i : RIdx) (v : Half) : (s.setReg i v).hostData = s.hostData := rfl
@[simp] theorem State.setReg_freeCount (s : State) (i : RIdx) (v : Half) : (s.setReg i v).freeCount = s.freeCount := rfl

/-! ### `State.setPoly` -/

@[simp] theorem State.setPoly_regs (s : State) (i : PIdx) (p : Poly) : (s.setPoly i p).regs = s.regs := rfl
@[simp] theorem State.setPoly_polys (s : State) (i : PIdx) (p : Poly) : (s.setPoly i p).polys = s.polys.set i.val p := rfl
@[simp] theorem State.setPoly_pc (s : State) (i : PIdx) (p : Poly) : (s.setPoly i p).pc = s.pc := rfl
@[simp] theorem State.setPoly_flags (s : State) (i : PIdx) (p : Poly) : (s.setPoly i p).flags = s.flags := rfl
@[simp] theorem State.setPoly_ctrl (s : State) (i : PIdx) (p : Poly) : (s.setPoly i p).ctrl = s.ctrl := rfl
@[simp] theorem State.setPoly_status (s : State) (i : PIdx) (p : Poly) : (s.setPoly i p).status = s.status := rfl
@[simp] theorem State.setPoly_cause (s : State) (i : PIdx) (p : Poly) : (s.setPoly i p).cause = s.cause := rfl
@[simp] theorem State.setPoly_epc (s : State) (i : PIdx) (p : Poly) : (s.setPoly i p).epc = s.epc := rfl
@[simp] theorem State.setPoly_info (s : State) (i : PIdx) (p : Poly) : (s.setPoly i p).info = s.info := rfl
@[simp] theorem State.setPoly_field (s : State) (i : PIdx) (p : Poly) : (s.setPoly i p).field = s.field := rfl
@[simp] theorem State.setPoly_coder (s : State) (i : PIdx) (p : Poly) : (s.setPoly i p).coder = s.coder := rfl
@[simp] theorem State.setPoly_mem (s : State) (i : PIdx) (p : Poly) : (s.setPoly i p).mem = s.mem := rfl
@[simp] theorem State.setPoly_dmem0 (s : State) (i : PIdx) (p : Poly) : (s.setPoly i p).dmem0 = s.dmem0 := rfl
@[simp] theorem State.setPoly_inputs (s : State) (i : PIdx) (p : Poly) : (s.setPoly i p).inputs = s.inputs := rfl
@[simp] theorem State.setPoly_hostData (s : State) (i : PIdx) (p : Poly) : (s.setPoly i p).hostData = s.hostData := rfl
@[simp] theorem State.setPoly_freeCount (s : State) (i : PIdx) (p : Poly) : (s.setPoly i p).freeCount = s.freeCount := rfl

/-! ### `State.storeBytes` -/

@[simp] theorem State.storeBytes_regs (s : State) (a : Nat) (bs : List Byte) : (s.storeBytes a bs).regs = s.regs := rfl
@[simp] theorem State.storeBytes_polys (s : State) (a : Nat) (bs : List Byte) : (s.storeBytes a bs).polys = s.polys := rfl
@[simp] theorem State.storeBytes_pc (s : State) (a : Nat) (bs : List Byte) : (s.storeBytes a bs).pc = s.pc := rfl
@[simp] theorem State.storeBytes_flags (s : State) (a : Nat) (bs : List Byte) : (s.storeBytes a bs).flags = s.flags := rfl
@[simp] theorem State.storeBytes_ctrl (s : State) (a : Nat) (bs : List Byte) : (s.storeBytes a bs).ctrl = s.ctrl := rfl
@[simp] theorem State.storeBytes_status (s : State) (a : Nat) (bs : List Byte) : (s.storeBytes a bs).status = s.status := rfl
@[simp] theorem State.storeBytes_cause (s : State) (a : Nat) (bs : List Byte) : (s.storeBytes a bs).cause = s.cause := rfl
@[simp] theorem State.storeBytes_epc (s : State) (a : Nat) (bs : List Byte) : (s.storeBytes a bs).epc = s.epc := rfl
@[simp] theorem State.storeBytes_info (s : State) (a : Nat) (bs : List Byte) : (s.storeBytes a bs).info = s.info := rfl
@[simp] theorem State.storeBytes_field (s : State) (a : Nat) (bs : List Byte) : (s.storeBytes a bs).field = s.field := rfl
@[simp] theorem State.storeBytes_coder (s : State) (a : Nat) (bs : List Byte) : (s.storeBytes a bs).coder = s.coder := rfl
@[simp] theorem State.storeBytes_mem (s : State) (a : Nat) (bs : List Byte) : (s.storeBytes a bs).mem = s.mem.writeBytes a bs := rfl
@[simp] theorem State.storeBytes_dmem0 (s : State) (a : Nat) (bs : List Byte) : (s.storeBytes a bs).dmem0 = s.dmem0 := rfl
@[simp] theorem State.storeBytes_inputs (s : State) (a : Nat) (bs : List Byte) : (s.storeBytes a bs).inputs = s.inputs := rfl
@[simp] theorem State.storeBytes_hostData (s : State) (a : Nat) (bs : List Byte) : (s.storeBytes a bs).hostData = s.hostData := rfl
@[simp] theorem State.storeBytes_freeCount (s : State) (a : Nat) (bs : List Byte) : (s.storeBytes a bs).freeCount = s.freeCount := rfl

/-! ### `State.advance` -/

@[simp] theorem State.advance_regs (s : State) : (s.advance).regs = s.regs := rfl
@[simp] theorem State.advance_polys (s : State) : (s.advance).polys = s.polys := rfl
@[simp] theorem State.advance_pc (s : State) : (s.advance).pc = s.pc + 4 := rfl
@[simp] theorem State.advance_flags (s : State) : (s.advance).flags = s.flags := rfl
@[simp] theorem State.advance_ctrl (s : State) : (s.advance).ctrl = s.ctrl := rfl
@[simp] theorem State.advance_status (s : State) : (s.advance).status = s.status := rfl
@[simp] theorem State.advance_cause (s : State) : (s.advance).cause = s.cause := rfl
@[simp] theorem State.advance_epc (s : State) : (s.advance).epc = s.epc := rfl
@[simp] theorem State.advance_info (s : State) : (s.advance).info = s.info := rfl
@[simp] theorem State.advance_field (s : State) : (s.advance).field = s.field := rfl
@[simp] theorem State.advance_coder (s : State) : (s.advance).coder = s.coder := rfl
@[simp] theorem State.advance_mem (s : State) : (s.advance).mem = s.mem := rfl
@[simp] theorem State.advance_dmem0 (s : State) : (s.advance).dmem0 = s.dmem0 := rfl
@[simp] theorem State.advance_inputs (s : State) : (s.advance).inputs = s.inputs := rfl
@[simp] theorem State.advance_hostData (s : State) : (s.advance).hostData = s.hostData := rfl
@[simp] theorem State.advance_freeCount (s : State) : (s.advance).freeCount = s.freeCount := rfl

/-! ### `State.errorEntry` -/

@[simp] theorem State.errorEntry_regs (s : State) (c : Cause) : (s.errorEntry c).regs = s.regs := rfl
@[simp] theorem State.errorEntry_polys (s : State) (c : Cause) : (s.errorEntry c).polys = s.polys := rfl
@[simp] theorem State.errorEntry_pc (s : State) (c : Cause) : (s.errorEntry c).pc = s.pc := rfl
@[simp] theorem State.errorEntry_flags (s : State) (c : Cause) : (s.errorEntry c).flags = s.flags := rfl
@[simp] theorem State.errorEntry_ctrl (s : State) (c : Cause) : (s.errorEntry c).ctrl = s.ctrl := rfl
@[simp] theorem State.errorEntry_status (s : State) (c : Cause) : (s.errorEntry c).status = { s.status with run := false, err := true } := rfl
@[simp] theorem State.errorEntry_cause (s : State) (c : Cause) : (s.errorEntry c).cause = { code := c.code, sub := c.sub } := rfl
@[simp] theorem State.errorEntry_epc (s : State) (c : Cause) : (s.errorEntry c).epc = s.pc := rfl
@[simp] theorem State.errorEntry_info (s : State) (c : Cause) : (s.errorEntry c).info = fetchWord s := rfl
@[simp] theorem State.errorEntry_field (s : State) (c : Cause) : (s.errorEntry c).field = s.field := rfl
@[simp] theorem State.errorEntry_coder (s : State) (c : Cause) : (s.errorEntry c).coder = s.coder := rfl
@[simp] theorem State.errorEntry_mem (s : State) (c : Cause) : (s.errorEntry c).mem = s.mem := rfl
@[simp] theorem State.errorEntry_dmem0 (s : State) (c : Cause) : (s.errorEntry c).dmem0 = s.dmem0 := rfl
@[simp] theorem State.errorEntry_inputs (s : State) (c : Cause) : (s.errorEntry c).inputs = s.inputs := rfl
@[simp] theorem State.errorEntry_hostData (s : State) (c : Cause) : (s.errorEntry c).hostData = s.hostData := rfl
@[simp] theorem State.errorEntry_freeCount (s : State) (c : Cause) : (s.errorEntry c).freeCount = s.freeCount := rfl

/-! ### `State.decodeFail` -/

@[simp] theorem State.decodeFail_regs (s : State) (r : DFReason) : (s.decodeFail r).regs = s.regs := rfl
@[simp] theorem State.decodeFail_polys (s : State) (r : DFReason) : (s.decodeFail r).polys = s.polys := rfl
@[simp] theorem State.decodeFail_pc (s : State) (r : DFReason) : (s.decodeFail r).pc = s.pc := rfl
@[simp] theorem State.decodeFail_flags (s : State) (r : DFReason) : (s.decodeFail r).flags = { s.flags with df := true, dfr := r.code } := rfl
@[simp] theorem State.decodeFail_ctrl (s : State) (r : DFReason) : (s.decodeFail r).ctrl = s.ctrl := rfl
@[simp] theorem State.decodeFail_status (s : State) (r : DFReason) : (s.decodeFail r).status = s.status := rfl
@[simp] theorem State.decodeFail_cause (s : State) (r : DFReason) : (s.decodeFail r).cause = s.cause := rfl
@[simp] theorem State.decodeFail_epc (s : State) (r : DFReason) : (s.decodeFail r).epc = s.epc := rfl
@[simp] theorem State.decodeFail_info (s : State) (r : DFReason) : (s.decodeFail r).info = s.info := rfl
@[simp] theorem State.decodeFail_field (s : State) (r : DFReason) : (s.decodeFail r).field = s.field := rfl
@[simp] theorem State.decodeFail_coder (s : State) (r : DFReason) : (s.decodeFail r).coder = s.coder := rfl
@[simp] theorem State.decodeFail_mem (s : State) (r : DFReason) : (s.decodeFail r).mem = s.mem := rfl
@[simp] theorem State.decodeFail_dmem0 (s : State) (r : DFReason) : (s.decodeFail r).dmem0 = s.dmem0 := rfl
@[simp] theorem State.decodeFail_inputs (s : State) (r : DFReason) : (s.decodeFail r).inputs = s.inputs := rfl
@[simp] theorem State.decodeFail_hostData (s : State) (r : DFReason) : (s.decodeFail r).hostData = s.hostData := rfl
@[simp] theorem State.decodeFail_freeCount (s : State) (r : DFReason) : (s.decodeFail r).freeCount = s.freeCount := rfl

/-! ### `State.setZ` -/

@[simp] theorem State.setZ_regs (s : State) (z : Bool) : (s.setZ z).regs = s.regs := rfl
@[simp] theorem State.setZ_polys (s : State) (z : Bool) : (s.setZ z).polys = s.polys := rfl
@[simp] theorem State.setZ_pc (s : State) (z : Bool) : (s.setZ z).pc = s.pc := rfl
@[simp] theorem State.setZ_flags (s : State) (z : Bool) : (s.setZ z).flags = { s.flags with z := z } := rfl
@[simp] theorem State.setZ_ctrl (s : State) (z : Bool) : (s.setZ z).ctrl = s.ctrl := rfl
@[simp] theorem State.setZ_status (s : State) (z : Bool) : (s.setZ z).status = s.status := rfl
@[simp] theorem State.setZ_cause (s : State) (z : Bool) : (s.setZ z).cause = s.cause := rfl
@[simp] theorem State.setZ_epc (s : State) (z : Bool) : (s.setZ z).epc = s.epc := rfl
@[simp] theorem State.setZ_info (s : State) (z : Bool) : (s.setZ z).info = s.info := rfl
@[simp] theorem State.setZ_field (s : State) (z : Bool) : (s.setZ z).field = s.field := rfl
@[simp] theorem State.setZ_coder (s : State) (z : Bool) : (s.setZ z).coder = s.coder := rfl
@[simp] theorem State.setZ_mem (s : State) (z : Bool) : (s.setZ z).mem = s.mem := rfl
@[simp] theorem State.setZ_dmem0 (s : State) (z : Bool) : (s.setZ z).dmem0 = s.dmem0 := rfl
@[simp] theorem State.setZ_inputs (s : State) (z : Bool) : (s.setZ z).inputs = s.inputs := rfl
@[simp] theorem State.setZ_hostData (s : State) (z : Bool) : (s.setZ z).hostData = s.hostData := rfl
@[simp] theorem State.setZ_freeCount (s : State) (z : Bool) : (s.setZ z).freeCount = s.freeCount := rfl

/-! ### `State.clearFlags` -/

@[simp] theorem State.clearFlags_regs (s : State) : (s.clearFlags).regs = s.regs := rfl
@[simp] theorem State.clearFlags_polys (s : State) : (s.clearFlags).polys = s.polys := rfl
@[simp] theorem State.clearFlags_pc (s : State) : (s.clearFlags).pc = s.pc := rfl
@[simp] theorem State.clearFlags_flags (s : State) : (s.clearFlags).flags = { z := false, df := false, dfr := 0 } := rfl
@[simp] theorem State.clearFlags_ctrl (s : State) : (s.clearFlags).ctrl = s.ctrl := rfl
@[simp] theorem State.clearFlags_status (s : State) : (s.clearFlags).status = s.status := rfl
@[simp] theorem State.clearFlags_cause (s : State) : (s.clearFlags).cause = s.cause := rfl
@[simp] theorem State.clearFlags_epc (s : State) : (s.clearFlags).epc = s.epc := rfl
@[simp] theorem State.clearFlags_info (s : State) : (s.clearFlags).info = s.info := rfl
@[simp] theorem State.clearFlags_field (s : State) : (s.clearFlags).field = s.field := rfl
@[simp] theorem State.clearFlags_coder (s : State) : (s.clearFlags).coder = s.coder := rfl
@[simp] theorem State.clearFlags_mem (s : State) : (s.clearFlags).mem = s.mem := rfl
@[simp] theorem State.clearFlags_dmem0 (s : State) : (s.clearFlags).dmem0 = s.dmem0 := rfl
@[simp] theorem State.clearFlags_inputs (s : State) : (s.clearFlags).inputs = s.inputs := rfl
@[simp] theorem State.clearFlags_hostData (s : State) : (s.clearFlags).hostData = s.hostData := rfl
@[simp] theorem State.clearFlags_freeCount (s : State) : (s.clearFlags).freeCount = s.freeCount := rfl

/-! ### `State.installField` -/

@[simp] theorem State.installField_regs (s : State) (prim : BitVec 9) (gb : Bool) : (s.installField prim gb).regs = s.regs := rfl
@[simp] theorem State.installField_polys (s : State) (prim : BitVec 9) (gb : Bool) : (s.installField prim gb).polys = s.polys := rfl
@[simp] theorem State.installField_pc (s : State) (prim : BitVec 9) (gb : Bool) : (s.installField prim gb).pc = s.pc := rfl
@[simp] theorem State.installField_flags (s : State) (prim : BitVec 9) (gb : Bool) : (s.installField prim gb).flags = s.flags := rfl
@[simp] theorem State.installField_ctrl (s : State) (prim : BitVec 9) (gb : Bool) : (s.installField prim gb).ctrl = s.ctrl := rfl
@[simp] theorem State.installField_status (s : State) (prim : BitVec 9) (gb : Bool) : (s.installField prim gb).status = s.status := rfl
@[simp] theorem State.installField_cause (s : State) (prim : BitVec 9) (gb : Bool) : (s.installField prim gb).cause = s.cause := rfl
@[simp] theorem State.installField_epc (s : State) (prim : BitVec 9) (gb : Bool) : (s.installField prim gb).epc = s.epc := rfl
@[simp] theorem State.installField_info (s : State) (prim : BitVec 9) (gb : Bool) : (s.installField prim gb).info = s.info := rfl
@[simp] theorem State.installField_field (s : State) (prim : BitVec 9) (gb : Bool) : (s.installField prim gb).field = { prim := prim, gb := gb, fieldOk := true, exp := buildExp prim, log := buildLog prim } := rfl
@[simp] theorem State.installField_coder (s : State) (prim : BitVec 9) (gb : Bool) : (s.installField prim gb).coder = { k := 0, e := 0, coderOk := false } := rfl
@[simp] theorem State.installField_mem (s : State) (prim : BitVec 9) (gb : Bool) : (s.installField prim gb).mem = s.mem := rfl
@[simp] theorem State.installField_dmem0 (s : State) (prim : BitVec 9) (gb : Bool) : (s.installField prim gb).dmem0 = s.dmem0 := rfl
@[simp] theorem State.installField_inputs (s : State) (prim : BitVec 9) (gb : Bool) : (s.installField prim gb).inputs = s.inputs := rfl
@[simp] theorem State.installField_hostData (s : State) (prim : BitVec 9) (gb : Bool) : (s.installField prim gb).hostData = s.hostData := rfl
@[simp] theorem State.installField_freeCount (s : State) (prim : BitVec 9) (gb : Bool) : (s.installField prim gb).freeCount = s.freeCount := rfl

/-! ### `State.installCoder` -/

@[simp] theorem State.installCoder_regs (s : State) (k e : Int) : (s.installCoder k e).regs = s.regs := rfl
@[simp] theorem State.installCoder_polys (s : State) (k e : Int) : (s.installCoder k e).polys = s.polys := rfl
@[simp] theorem State.installCoder_pc (s : State) (k e : Int) : (s.installCoder k e).pc = s.pc := rfl
@[simp] theorem State.installCoder_flags (s : State) (k e : Int) : (s.installCoder k e).flags = s.flags := rfl
@[simp] theorem State.installCoder_ctrl (s : State) (k e : Int) : (s.installCoder k e).ctrl = s.ctrl := rfl
@[simp] theorem State.installCoder_status (s : State) (k e : Int) : (s.installCoder k e).status = s.status := rfl
@[simp] theorem State.installCoder_cause (s : State) (k e : Int) : (s.installCoder k e).cause = s.cause := rfl
@[simp] theorem State.installCoder_epc (s : State) (k e : Int) : (s.installCoder k e).epc = s.epc := rfl
@[simp] theorem State.installCoder_info (s : State) (k e : Int) : (s.installCoder k e).info = s.info := rfl
@[simp] theorem State.installCoder_field (s : State) (k e : Int) : (s.installCoder k e).field = s.field := rfl
@[simp] theorem State.installCoder_coder (s : State) (k e : Int) : (s.installCoder k e).coder = { k := BitVec.ofInt 8 k, e := BitVec.ofInt 8 e, coderOk := true } := rfl
@[simp] theorem State.installCoder_mem (s : State) (k e : Int) : (s.installCoder k e).mem = s.mem := rfl
@[simp] theorem State.installCoder_dmem0 (s : State) (k e : Int) : (s.installCoder k e).dmem0 = s.dmem0 := rfl
@[simp] theorem State.installCoder_inputs (s : State) (k e : Int) : (s.installCoder k e).inputs = s.inputs := rfl
@[simp] theorem State.installCoder_hostData (s : State) (k e : Int) : (s.installCoder k e).hostData = s.hostData := rfl
@[simp] theorem State.installCoder_freeCount (s : State) (k e : Int) : (s.installCoder k e).freeCount = s.freeCount := rfl

/-! ### `State.replied` -/

@[simp] theorem State.replied_regs (s : State) (v : Word) : (s.replied v).regs = s.regs := rfl
@[simp] theorem State.replied_polys (s : State) (v : Word) : (s.replied v).polys = s.polys := rfl
@[simp] theorem State.replied_pc (s : State) (v : Word) : (s.replied v).pc = s.pc := rfl
@[simp] theorem State.replied_flags (s : State) (v : Word) : (s.replied v).flags = s.flags := rfl
@[simp] theorem State.replied_ctrl (s : State) (v : Word) : (s.replied v).ctrl = s.ctrl := rfl
@[simp] theorem State.replied_status (s : State) (v : Word) : (s.replied v).status = s.status := rfl
@[simp] theorem State.replied_cause (s : State) (v : Word) : (s.replied v).cause = s.cause := rfl
@[simp] theorem State.replied_epc (s : State) (v : Word) : (s.replied v).epc = s.epc := rfl
@[simp] theorem State.replied_info (s : State) (v : Word) : (s.replied v).info = s.info := rfl
@[simp] theorem State.replied_field (s : State) (v : Word) : (s.replied v).field = s.field := rfl
@[simp] theorem State.replied_coder (s : State) (v : Word) : (s.replied v).coder = s.coder := rfl
@[simp] theorem State.replied_mem (s : State) (v : Word) : (s.replied v).mem = s.mem := rfl
@[simp] theorem State.replied_dmem0 (s : State) (v : Word) : (s.replied v).dmem0 = s.dmem0 := rfl
@[simp] theorem State.replied_inputs (s : State) (v : Word) : (s.replied v).inputs = s.inputs := rfl
@[simp] theorem State.replied_hostData (s : State) (v : Word) : (s.replied v).hostData = v := rfl
@[simp] theorem State.replied_freeCount (s : State) (v : Word) : (s.replied v).freeCount = s.freeCount := rfl

/-! ### `State.repliedFree` -/

@[simp] theorem State.repliedFree_regs (s : State) (n : Nat) : (s.repliedFree n).regs = s.regs := rfl
@[simp] theorem State.repliedFree_polys (s : State) (n : Nat) : (s.repliedFree n).polys = s.polys := rfl
@[simp] theorem State.repliedFree_pc (s : State) (n : Nat) : (s.repliedFree n).pc = s.pc := rfl
@[simp] theorem State.repliedFree_flags (s : State) (n : Nat) : (s.repliedFree n).flags = s.flags := rfl
@[simp] theorem State.repliedFree_ctrl (s : State) (n : Nat) : (s.repliedFree n).ctrl = s.ctrl := rfl
@[simp] theorem State.repliedFree_status (s : State) (n : Nat) : (s.repliedFree n).status = s.status := rfl
@[simp] theorem State.repliedFree_cause (s : State) (n : Nat) : (s.repliedFree n).cause = s.cause := rfl
@[simp] theorem State.repliedFree_epc (s : State) (n : Nat) : (s.repliedFree n).epc = s.epc := rfl
@[simp] theorem State.repliedFree_info (s : State) (n : Nat) : (s.repliedFree n).info = s.info := rfl
@[simp] theorem State.repliedFree_field (s : State) (n : Nat) : (s.repliedFree n).field = s.field := rfl
@[simp] theorem State.repliedFree_coder (s : State) (n : Nat) : (s.repliedFree n).coder = s.coder := rfl
@[simp] theorem State.repliedFree_mem (s : State) (n : Nat) : (s.repliedFree n).mem = s.mem := rfl
@[simp] theorem State.repliedFree_dmem0 (s : State) (n : Nat) : (s.repliedFree n).dmem0 = s.dmem0 := rfl
@[simp] theorem State.repliedFree_inputs (s : State) (n : Nat) : (s.repliedFree n).inputs = s.inputs := rfl
@[simp] theorem State.repliedFree_hostData (s : State) (n : Nat) : (s.repliedFree n).hostData = BitVec.ofNat 32 ((Config.unspecifiedRead s.freeCount).toNat % 2 ^ (8 * n)) := rfl
@[simp] theorem State.repliedFree_freeCount (s : State) (n : Nat) : (s.repliedFree n).freeCount = s.freeCount + 1 := rfl

/-! ### `State.running` -/

@[simp] theorem State.running_regs (s : State) : (s.running).regs = s.regs := rfl
@[simp] theorem State.running_polys (s : State) : (s.running).polys = s.polys := rfl
@[simp] theorem State.running_pc (s : State) : (s.running).pc = s.pc := rfl
@[simp] theorem State.running_flags (s : State) : (s.running).flags = s.flags := rfl
@[simp] theorem State.running_ctrl (s : State) : (s.running).ctrl = s.ctrl := rfl
@[simp] theorem State.running_status (s : State) : (s.running).status = { s.status with run := true, done := false, err := false } := rfl
@[simp] theorem State.running_cause (s : State) : (s.running).cause = { code := 0, sub := 0 } := rfl
@[simp] theorem State.running_epc (s : State) : (s.running).epc = s.epc := rfl
@[simp] theorem State.running_info (s : State) : (s.running).info = s.info := rfl
@[simp] theorem State.running_field (s : State) : (s.running).field = s.field := rfl
@[simp] theorem State.running_coder (s : State) : (s.running).coder = s.coder := rfl
@[simp] theorem State.running_mem (s : State) : (s.running).mem = s.mem := rfl
@[simp] theorem State.running_dmem0 (s : State) : (s.running).dmem0 = s.dmem0 := rfl
@[simp] theorem State.running_inputs (s : State) : (s.running).inputs = [] := rfl
@[simp] theorem State.running_hostData (s : State) : (s.running).hostData = s.hostData := rfl
@[simp] theorem State.running_freeCount (s : State) : (s.running).freeCount = s.freeCount := rfl

/-! ### Reading back -/

@[simp] theorem State.reg_setReg_same (s : State) (i : RIdx) (v : Half) : (s.setReg i v).reg i = v := by
  simp [State.reg, State.setReg]

theorem State.reg_setReg_ne (s : State) {i j : RIdx} (v : Half) (h : j ≠ i) :
    (s.setReg i v).reg j = s.reg j := by
  have h' : i.val ≠ j.val := fun e => h (Fin.ext e.symm)
  simp [State.reg, State.setReg, h']

theorem State.reg_setReg (s : State) (i j : RIdx) (v : Half) :
    (s.setReg i v).reg j = if j = i then v else s.reg j := by
  by_cases h : j = i
  · subst h; simp
  · simp [h, s.reg_setReg_ne v h]

@[simp] theorem State.poly_setPoly_same (s : State) (i : PIdx) (p : Poly) :
    (s.setPoly i p).poly i = p := by
  simp [State.poly, State.setPoly]

theorem State.poly_setPoly_ne (s : State) {i j : PIdx} (p : Poly) (h : j ≠ i) :
    (s.setPoly i p).poly j = s.poly j := by
  have h' : i.val ≠ j.val := fun e => h (Fin.ext e.symm)
  simp [State.poly, State.setPoly, h']

theorem State.poly_setPoly (s : State) (i j : PIdx) (p : Poly) :
    (s.setPoly i p).poly j = if j = i then p else s.poly j := by
  by_cases h : j = i
  · subst h; simp
  · simp [h, s.poly_setPoly_ne p h]

/-- Two states with the same `R` registers read alike. -/
theorem State.reg_congr {s t : State} (h : s.regs = t.regs) (i : RIdx) : s.reg i = t.reg i := by
  simp [State.reg, h]

/-- Two states with the same `P` registers read alike. -/
theorem State.poly_congr {s t : State} (h : s.polys = t.polys) (i : PIdx) : s.poly i = t.poly i := by
  simp [State.poly, h]

/-- Two states that read alike in every `R` register have the same ones. -/
theorem State.regs_ext {s t : State} (h : ∀ i, s.reg i = t.reg i) : s.regs = t.regs :=
  Vector.ext fun i hi => h ⟨i, hi⟩

/-- Two states that read alike in every `P` register have the same ones. -/
theorem State.polys_ext {s t : State} (h : ∀ i, s.poly i = t.poly i) : s.polys = t.polys :=
  Vector.ext fun i hi => h ⟨i, hi⟩

end Sys2Proof.Machine
end

