-- ==== Sys2Proof/Tests/Slice0.lean ====
section
/-! SUPPORT. Tests. Expected values come from the spec: words from the bit patterns of 30_encoding.md R94,
results from 95_test_vectors.md and the examples of the rules. The last part shows, for each statement with
hypotheses, a state and operands that meet them. -/

namespace Sys2Proof.Tests

open Sys2Proof Sys2Proof.Machine Sys2Proof.Safety

-- One theorem at a time: a hundred kernel evaluations at once need a hundred threads' stacks.
set_option Elab.async false

/-! ### Helpers -/

/-- Whether a command or a step answers a next state of which `p` holds. -/
def answers (r : Result) (p : State → Bool) : Bool :=
  match r with
  | .next t => p t
  | _ => false

theorem exists_next {r : Result} {p : State → Bool} (h : answers r p = true) :
    ∃ t, r = .next t ∧ p t = true := by
  cases r with
  | next t => exact ⟨t, rfl, h⟩
  | fault f => cases f
  | refused r => simp [answers] at h

/-- Set several `R` registers. -/
def regs (s : State) (l : List (RIdx × Half)) : State := l.foldl (fun s c => s.setReg c.1 c.2) s

theorem inv_regs {s : State} (h : Inv s) (l : List (RIdx × Half)) : Inv (regs s l) := by
  induction l generalizing s with
  | nil => exact h
  | cons c l ih => exact ih (h.setReg c.1 c.2)

/-- The table `EXP` of 95_test_vectors.md §2.1, row by row. -/
def exp11DRows : List Byte :=
  [0x01, 0x02, 0x04, 0x08, 0x10, 0x20, 0x40, 0x80, 0x1D, 0x3A, 0x74, 0xE8, 0xCD, 0x87, 0x13, 0x26] ++
  [0x4C, 0x98, 0x2D, 0x5A, 0xB4, 0x75, 0xEA, 0xC9, 0x8F, 0x03, 0x06, 0x0C, 0x18, 0x30, 0x60, 0xC0] ++
  [0x9D, 0x27, 0x4E, 0x9C, 0x25, 0x4A, 0x94, 0x35, 0x6A, 0xD4, 0xB5, 0x77, 0xEE, 0xC1, 0x9F, 0x23] ++
  [0x46, 0x8C, 0x05, 0x0A, 0x14, 0x28, 0x50, 0xA0, 0x5D, 0xBA, 0x69, 0xD2, 0xB9, 0x6F, 0xDE, 0xA1] ++
  [0x5F, 0xBE, 0x61, 0xC2, 0x99, 0x2F, 0x5E, 0xBC, 0x65, 0xCA, 0x89, 0x0F, 0x1E, 0x3C, 0x78, 0xF0] ++
  [0xFD, 0xE7, 0xD3, 0xBB, 0x6B, 0xD6, 0xB1, 0x7F, 0xFE, 0xE1, 0xDF, 0xA3, 0x5B, 0xB6, 0x71, 0xE2] ++
  [0xD9, 0xAF, 0x43, 0x86, 0x11, 0x22, 0x44, 0x88, 0x0D, 0x1A, 0x34, 0x68, 0xD0, 0xBD, 0x67, 0xCE] ++
  [0x81, 0x1F, 0x3E, 0x7C, 0xF8, 0xED, 0xC7, 0x93, 0x3B, 0x76, 0xEC, 0xC5, 0x97, 0x33, 0x66, 0xCC] ++
  [0x85, 0x17, 0x2E, 0x5C, 0xB8, 0x6D, 0xDA, 0xA9, 0x4F, 0x9E, 0x21, 0x42, 0x84, 0x15, 0x2A, 0x54] ++
  [0xA8, 0x4D, 0x9A, 0x29, 0x52, 0xA4, 0x55, 0xAA, 0x49, 0x92, 0x39, 0x72, 0xE4, 0xD5, 0xB7, 0x73] ++
  [0xE6, 0xD1, 0xBF, 0x63, 0xC6, 0x91, 0x3F, 0x7E, 0xFC, 0xE5, 0xD7, 0xB3, 0x7B, 0xF6, 0xF1, 0xFF] ++
  [0xE3, 0xDB, 0xAB, 0x4B, 0x96, 0x31, 0x62, 0xC4, 0x95, 0x37, 0x6E, 0xDC, 0xA5, 0x57, 0xAE, 0x41] ++
  [0x82, 0x19, 0x32, 0x64, 0xC8, 0x8D, 0x07, 0x0E, 0x1C, 0x38, 0x70, 0xE0, 0xDD, 0xA7, 0x53, 0xA6] ++
  [0x51, 0xA2, 0x59, 0xB2, 0x79, 0xF2, 0xF9, 0xEF, 0xC3, 0x9B, 0x2B, 0x56, 0xAC, 0x45, 0x8A, 0x09] ++
  [0x12, 0x24, 0x48, 0x90, 0x3D, 0x7A, 0xF4, 0xF5, 0xF7, 0xF3, 0xFB, 0xEB, 0xCB, 0x8B, 0x0B, 0x16] ++
  [0x2C, 0x58, 0xB0, 0x7D, 0xFA, 0xE9, 0xCF, 0x83, 0x1B, 0x36, 0x6C, 0xD8, 0xAD, 0x47, 0x8E, 0x01]

/-- The table `LOG` of 95_test_vectors.md §2.1, row by row; `LOG[0]` is 0 (92_eei_decisions.md D7). -/
def log11DRows : List Byte :=
  [0, 0, 1, 25, 2, 50, 26, 198, 3, 223, 51, 238, 27, 104, 199, 75] ++
  [4, 100, 224, 14, 52, 141, 239, 129, 28, 193, 105, 248, 200, 8, 76, 113] ++
  [5, 138, 101, 47, 225, 36, 15, 33, 53, 147, 142, 218, 240, 18, 130, 69] ++
  [29, 181, 194, 125, 106, 39, 249, 185, 201, 154, 9, 120, 77, 228, 114, 166] ++
  [6, 191, 139, 98, 102, 221, 48, 253, 226, 152, 37, 179, 16, 145, 34, 136] ++
  [54, 208, 148, 206, 143, 150, 219, 189, 241, 210, 19, 92, 131, 56, 70, 64] ++
  [30, 66, 182, 163, 195, 72, 126, 110, 107, 58, 40, 84, 250, 133, 186, 61] ++
  [202, 94, 155, 159, 10, 21, 121, 43, 78, 212, 229, 172, 115, 243, 167, 87] ++
  [7, 112, 192, 247, 140, 128, 99, 13, 103, 74, 222, 237, 49, 197, 254, 24] ++
  [227, 165, 153, 119, 38, 184, 180, 124, 17, 68, 146, 217, 35, 32, 137, 46] ++
  [55, 63, 209, 91, 149, 188, 207, 205, 144, 135, 151, 178, 220, 252, 190, 97] ++
  [242, 86, 211, 171, 20, 42, 93, 158, 132, 60, 57, 83, 71, 109, 65, 162] ++
  [31, 45, 67, 216, 183, 123, 164, 118, 196, 23, 73, 236, 127, 12, 111, 246] ++
  [108, 161, 59, 82, 41, 157, 85, 170, 251, 96, 134, 177, 187, 204, 62, 90] ++
  [203, 89, 95, 176, 156, 169, 160, 81, 11, 245, 22, 235, 122, 117, 44, 215] ++
  [79, 174, 213, 233, 230, 231, 173, 232, 116, 214, 244, 234, 168, 80, 88, 175]

/-- The field of 95_test_vectors.md, `PRIM = 0x11D`, with its tables as printed there. -/
def field11D : Field :=
  { prim := 0x11D, gb := false, fieldOk := true
    exp := ⟨exp11DRows.toArray, by decide +kernel⟩
    log := ⟨log11DRows.toArray, by decide +kernel⟩ }

theorem test_table_exp : (buildExp 0x11D).toList = exp11DRows := by decide +kernel

theorem test_table_log : (buildLog 0x11D).toList = log11DRows := by decide +kernel

theorem vector_eq {v : Vector Byte 256} {l : List Byte} (hl : l.toArray.size = 256) (h : v.toList = l) :
    (⟨l.toArray, hl⟩ : Vector Byte 256) = v := by
  subst h
  simp [Vector.toList]

theorem valid11D : FieldValid field11D :=
  ⟨by decide, by decide +kernel, vector_eq _ test_table_exp, vector_eq _ test_table_log⟩

theorem valid11D_one : FieldValid { field11D with gb := true } :=
  ⟨valid11D.degree, valid11D.primitive, valid11D.exp, valid11D.log⟩

/-- `K = 11`, `E = 4`. -/
def coder11 : Coder := { k := 11, e := 4, coderOk := true }

/-- A machine in a run, with that field and that coder. -/
def ready : State :=
  { State.reset with
    field := field11D
    coder := coder11
    status := { run := true, done := false, err := false, hwe := false } }

theorem inv_ready : Inv ready where
  mem := Memory.wf_nil
  dmem0 := Memory.wf_nil
  pc := by decide
  polys := by decide
  status := by decide
  cause := by decide
  field := fun _ => valid11D
  coder := fun _ => ⟨rfl, by decide⟩

/-- The same machine, idle. -/
def idle : State := { ready with status := { run := false, done := false, err := false, hwe := false } }

/-- "Hello world". -/
def hello : List Byte := [0x48, 0x65, 0x6C, 0x6C, 0x6F, 0x20, 0x77, 0x6F, 0x72, 0x6C, 0x64]

/-- The codeword `C` of 95_test_vectors.md §1.2. -/
def codeword : List Byte := hello ++ [0x90, 0x6A, 0x21, 0xDB]

/-- `p` and `q` of 95_test_vectors.md §3 in `P1` and `P2`. -/
def withPolys : State := (ready.setPoly 1 [0x12, 0x34, 0x56]).setPoly 2 [0x01, 0x0F]

theorem inv_withPolys : Inv withPolys := (inv_ready.setPoly 1 (by decide)).setPoly 2 (by decide)

/-! ### Well-formedness (30_encoding.md R92) -/

theorem test_wf_finit_too_wide : ¬ (Instr.finit 0x0400).WellFormed := by decide

theorem test_wf_finit_widest : (Instr.finit 0x03FF).WellFormed := by decide

/-! ### Decoding: one word of each command, written out bit by bit (30_encoding.md R94) -/

theorem test_decode_endRun :
    decode 0b000001_00000000000000000000000000 = .ok .endRun := by decide

theorem test_decode_nop :
    decode 0b000010_00000000000000000000000000 = .ok .nop := by decide

theorem test_decode_li :
    decode 0b000011_101_0000000_1010010111000011 = .ok (.li 5 0xA5C3) := by decide

theorem test_decode_clrf :
    decode 0b000100_00000000000000000000000000 = .ok .clrf := by decide

theorem test_decode_finit :
    decode 0b001000_000_0000000_0000001100101101 = .ok (.finit 0x32D) := by decide

theorem test_decode_gfadd :
    decode 0b001001_001_010_011_000_00000000000000 = .ok (.gfadd 1 2 3) := by decide

theorem test_decode_gfmul :
    decode 0b001010_100_101_110_000_00000000000000 = .ok (.gfmul 4 5 6) := by decide

theorem test_decode_gfinv :
    decode 0b001011_111_001_000_000_00000000000000 = .ok (.gfinv 7 1) := by decide

theorem test_decode_gfexp :
    decode 0b001100_010_110_000_000_00000000000000 = .ok (.gfexp 2 6) := by decide

theorem test_decode_gflog :
    decode 0b001101_011_101_000_000_00000000000000 = .ok (.gflog 3 5) := by decide

theorem test_decode_pld :
    decode 0b010000_110_001_100_000_00000000000000 = .ok (.pld 6 1 4) := by decide

theorem test_decode_pst :
    decode 0b010001_000_011_001_010_00000000000000 = .ok (.pst 3 1 2) := by decide

theorem test_decode_pconst :
    decode 0b010010_101_011_000_000_00000000000000 = .ok (.pconst 5 3) := by decide

theorem test_decode_padd :
    decode 0b010011_001_100_111_000_00000000000000 = .ok (.padd 1 4 7) := by decide

theorem test_decode_pmul :
    decode 0b010100_010_101_011_000_00000000000000 = .ok (.pmul 2 5 3) := by decide

theorem test_decode_pscl :
    decode 0b010101_111_110_001_000_00000000000000 = .ok (.pscl 7 6 1) := by decide

theorem test_decode_pmono :
    decode 0b010110_001_010_011_100_00000000000000 = .ok (.pmono 1 2 3 4) := by decide

theorem test_decode_pdiv :
    decode 0b010111_011_001_010_100_00000000000000 = .ok (.pdiv 3 1 2 4) := by decide

theorem test_decode_peval :
    decode 0b011000_110_101_010_000_00000000000000 = .ok (.peval 6 5 2) := by decide

theorem test_decode_pdeg :
    decode 0b011001_100_001_000_000_00000000000000 = .ok (.pdeg 4 1) := by decide

theorem test_decode_pcoef :
    decode 0b011010_011_111_101_000_00000000000000 = .ok (.pcoef 3 7 5) := by decide

theorem test_decode_pgen :
    decode 0b011011_010_011_000_000_00000000000000 = .ok (.pgen 2 3) := by decide

theorem test_decode_cinit :
    decode 0b100000_000_001_010_000_00000000000000 = .ok (.cinit 1 2) := by decide

theorem test_decode_enc :
    decode 0b100001_100_001_010_011_00000000000000 = .ok (.enc 4 1 2 3) := by decide

theorem test_decode_dec :
    decode 0b100010_101_110_111_001_00000000000000 = .ok (.dec 5 6 7 1) := by decide

theorem test_decode_synd :
    decode 0b100011_001_110_000_000_00000000000000 = .ok (.synd 1 6) := by decide

theorem test_decode_kes :
    decode 0b100100_010_001_000_011_00000000000000 = .ok (.kes 2 1 3) := by decide

theorem test_decode_chien :
    decode 0b100101_100_010_000_101_00000000000000 = .ok (.chien 4 2 5) := by decide

theorem test_decode_forney :
    decode 0b100110_110_011_101_100_00000000000000 = .ok (.forney 6 3 5 4) := by decide

theorem test_decode_corr :
    decode 0b100111_001_101_110_100_00000000000000 = .ok (.corr 1 5 6 4) := by decide

/-- Unlisted opcodes and must-be-zero bits (30_encoding.md R96). -/
theorem test_decode_rejects :
    decode 0x00000000 = .error .unlistedOpcode ∧ decode 0xA0000000 = .error .unlistedOpcode ∧
    decode 0x08000001 = .error .reservedBitSet ∧ decode 0x20000400 = .error .reservedBitSet ∧
    decode 0x28A60001 = .error .reservedBitSet := by decide

theorem test_decode_table_word : decodeTableWord 32 0x28A60000 = some (.gfmul 1 2 3) := by decide

/-! ### One step of each command -/

/-- R114 and program P1: `DONE`, and `pc` past the `END`. -/
theorem test_end : answers (exec .endRun { ready with pc := 0x0010 }) (fun t =>
    t.pc == 0x0014 && t.status == { run := false, done := true, err := false, hwe := false }) = true := by
  decide +kernel

/-- R118: `pc` wraps from `0xFFFC` to 0. -/
theorem test_nop_wraps : answers (exec .nop { ready with pc := 0xFFFC }) (fun t => t.pc == 0) = true := by
  decide +kernel

/-- R116: the immediate is not sign-extended or shifted. -/
theorem test_li : answers (exec (.li 2 0x811D) ready) (fun t =>
    t.reg 2 == 0x811D && t.reg 1 == 0) = true := by decide +kernel

theorem test_clrf : answers (exec .clrf { ready with flags := { z := true, df := true, dfr := 5 } })
    (fun t => flagsWord t == 0) = true := by decide +kernel

/-- Program P1: `FIELDCFG = 0x8000011D`. -/
theorem test_finit : answers (exec (.finit 0x011D) ready) (fun t =>
    fieldcfgWord t == 0x8000011D && codercfgWord t == 0) = true := by decide +kernel

/-- Programs P5i and P5j: `CAUSE = 0x00000202` and `0x00000102`. -/
theorem test_finit_rejects :
    answers (exec (.finit 0x011B) State.reset) (fun t => causeWord t == 0x00000202 && t.pc == 0) = true ∧
    answers (exec (.finit 0x001D) State.reset) (fun t => causeWord t == 0x00000102) = true := by
  decide +kernel

/-- §2.2; bits 15:8 of the operands are ignored, and no field is needed (R140, R141). -/
theorem test_gfadd : answers (exec (.gfadd 3 1 2) (regs State.reset [(1, 0xAA53), (2, 0x55CA)]))
    (fun t => t.reg 3 == 0x0099) = true := by decide +kernel

theorem test_gfmul : answers (exec (.gfmul 3 1 2) (regs ready [(1, 0x0053), (2, 0x00CA)]))
    (fun t => t.reg 3 == 0x008F) = true := by decide +kernel

/-- §2.2, and program P5b: without a field `CAUSE = 0x00000003`. -/
theorem test_gfmul_self :
    answers (exec (.gfmul 1 1 1) (regs ready [(1, 0xFFFF)])) (fun t => t.reg 1 == 0x00E2) = true ∧
    answers (exec (.gfmul 3 1 2) (regs State.reset [(1, 3), (2, 7)]))
      (fun t => causeWord t == 0x00000003 && t.reg 3 == 0) = true := by decide +kernel

theorem test_gfinv_one : answers (exec (.gfinv 2 1) (regs ready [(1, 1)])) (fun t => t.reg 2 == 1) = true := by
  decide +kernel

/-- Program P5a: `INV0`, `EPC`, `INFO` and the destination kept. -/
theorem test_gfinv_zero : answers (step ((regs { ready with pc := 0x0014 } [(2, 4)]).withFetchWord 32 0x2D100000))
    (fun t => causeWord t == 0x00000007 && t.epc == 0x0014 && t.pc == 0x0014 && t.info == 0x2D100000 &&
      t.reg 2 == 4 && statusWord t == 0x4) = true := by decide +kernel

theorem test_gfexp : answers (exec (.gfexp 2 1) (regs ready [(1, 255)])) (fun t => t.reg 2 == 1) = true ∧
    answers (exec (.gfexp 2 1) (regs ready [(1, 8)])) (fun t => t.reg 2 == 0x1D) = true := by decide +kernel

theorem test_gflog : answers (exec (.gflog 2 1) (regs ready [(1, 0x008E)])) (fun t => t.reg 2 == 254) = true ∧
    answers (exec (.gflog 2 1) ready) (fun t => causeWord t == 0x00000008) = true := by decide +kernel

/-- The bytes `00 12 34 56` at `0x1000` are `[12 34 56]` (R61, R179). -/
theorem test_pld : answers (exec (.pld 1 2 3)
      (regs (ready.storeBytes 0x1000 [0x00, 0x12, 0x34, 0x56]) [(2, 0x1000), (3, 4)]))
    (fun t => t.poly 1 == [0x12, 0x34, 0x56]) = true := by decide +kernel

/-- An operand of length 0 at the top of DMEM is `Zero` (R66, R179). -/
theorem test_pld_empty : answers (exec (.pld 1 2 3) (regs withPolys [(2, 0xFFFF)]))
    (fun t => t.poly 1 == [0]) = true := by decide +kernel

theorem test_pst : answers (exec (.pst 1 2 3) (regs withPolys [(2, 0xFFFC), (3, 4)]))
    (fun t => t.loadBytes 0xFFFC 4 == [0x00, 0x12, 0x34, 0x56]) = true := by decide +kernel

/-- §7: `PST` of two coefficients with length 1. -/
theorem test_pst_length : answers (exec (.pst 2 2 3) (regs withPolys [(2, 0xFFFF), (3, 1)]))
    (fun t => causeWord t == 0x0000000C) = true := by decide +kernel

theorem test_pconst : answers (exec (.pconst 1 2) (regs withPolys [(2, 0x1200)]))
    (fun t => t.poly 1 == [0x00]) = true := by decide +kernel

/-- §3: the leading terms cancel. -/
theorem test_padd : answers (exec (.padd 3 1 2) (withPolys.setPoly 2 [0x12, 0x00, 0x01]))
    (fun t => t.poly 3 == [0x34, 0x57]) = true := by decide +kernel

theorem test_pmul : answers (exec (.pmul 1 1 2) withPolys)
    (fun t => t.poly 1 == [0x12, 0xDA, 0x67, 0x35]) = true := by decide +kernel

theorem test_pscl : answers (exec (.pscl 3 1 2) (regs withPolys [(2, 2)]))
    (fun t => t.poly 3 == [0x24, 0x68, 0xAC]) = true := by decide +kernel

theorem test_pmono : answers (exec (.pmono 3 1 2 3) (regs withPolys [(2, 2), (3, 3)]))
    (fun t => t.poly 3 == [0x36, 0x5C, 0xFA, 0x00, 0x00]) = true := by decide +kernel

/-- §7: a degree of -1 raises `NEGDEG`. -/
theorem test_pmono_negative : answers (exec (.pmono 3 1 2 3) (regs withPolys [(2, 0xFFFF)]))
    (fun t => causeWord t == 0x0000000A) = true := by decide +kernel

theorem test_pdiv : answers (exec (.pdiv 3 1 2 4) withPolys)
    (fun t => t.poly 3 == [0x12, 0xDA] && t.poly 4 == [0xF4]) = true := by decide +kernel

/-- R194: with one register for both results the remainder, written last, stays; a `Zero` divisor raises
`DIV0`. -/
theorem test_pdiv_same :
    answers (exec (.pdiv 3 1 2 3) withPolys) (fun t => t.poly 3 == [0xF4]) = true ∧
    answers (exec (.pdiv 3 1 5 4) withPolys) (fun t => causeWord t == 0x00000009) = true := by decide +kernel

theorem test_peval : answers (exec (.peval 3 1 2) (regs withPolys [(2, 0x53)]))
    (fun t => t.reg 3 == 0x8A) = true := by decide +kernel

theorem test_peval_shortcuts :
    answers (exec (.peval 3 1 2) withPolys) (fun t => t.reg 3 == 0x56) = true ∧
    answers (exec (.peval 3 1 2) (regs withPolys [(2, 1)])) (fun t => t.reg 3 == 0x70) = true := by
  decide +kernel

theorem test_pdeg : answers (exec (.pdeg 3 1) withPolys) (fun t => t.reg 3 == 2) = true := by decide +kernel

theorem test_pcoef :
    answers (exec (.pcoef 3 1 2) (regs withPolys [(2, 2)])) (fun t => t.reg 3 == 0x12) = true ∧
    answers (exec (.pcoef 3 1 2) (regs withPolys [(2, 0xFFFF)])) (fun t => t.reg 3 == 0) = true := by
  decide +kernel

theorem test_pgen :
    answers (exec (.pgen 3 2) (regs ready [(2, 2)])) (fun t => t.poly 3 == [1, 3, 2]) = true ∧
    answers (exec (.pgen 3 2) (regs { ready with field := { field11D with gb := true } } [(2, 2)]))
      (fun t => t.poly 3 == [1, 6, 8]) = true := by decide +kernel

/-- §7: `PGEN` of degree 256. -/
theorem test_pgen_capacity : answers (exec (.pgen 3 2) (regs ready [(2, 256)]))
    (fun t => causeWord t == 0x0000000B) = true := by decide +kernel

/-- Program P1: `CODERCFG = 0x8000040B`. -/
theorem test_cinit : answers (exec (.cinit 1 2) (regs ready [(1, 11), (2, 4)]))
    (fun t => codercfgWord t == 0x8000040B) = true := by decide +kernel

/-- §7: `CINIT` SUB 3, 4 and 5. -/
theorem test_cinit_rejects :
    answers (exec (.cinit 1 2) (regs ready [(1, 5), (2, 4)])) (fun t => causeWord t == 0x00000302) = true ∧
    answers (exec (.cinit 1 2) (regs ready [(1, 11), (2, 0)])) (fun t => causeWord t == 0x00000402) = true ∧
    answers (exec (.cinit 1 2) (regs ready [(1, 250), (2, 10)])) (fun t => causeWord t == 0x00000502) =
      true := by decide +kernel

/-- §4.1: "Hello world" with `E = 4`. -/
theorem test_enc : answers (exec (.enc 4 1 2 3)
      (regs (ready.storeBytes 0x1000 hello) [(1, 0x1000), (2, 11), (3, 0x2000)]))
    (fun t => t.loadBytes 0x2000 15 == codeword && t.reg 4 == 15) = true := by decide +kernel

/-- §7, program P5g: the output would overlap the input. -/
theorem test_enc_overlap : answers (exec (.enc 4 1 2 3) (regs ready [(1, 0x1000), (2, 11), (3, 0x1008)]))
    (fun t => causeWord t == 0x00000005) = true := by decide +kernel

/-- §1.2, the last row of the flips: byte 14 changed from `DB` to `24` is corrected. -/
theorem test_dec : answers (exec (.dec 4 1 2 3)
      (regs (ready.storeBytes 0x2000 (codeword.set 14 0x24)) [(1, 0x2000), (2, 15), (3, 0x3000)]))
    (fun t => t.loadBytes 0x3000 11 == hello && t.reg 4 == 0 && t.flags == ready.flags) = true := by
  decide +kernel

/-- §5: the `KES_T0` block fails with `DFR = 3`. -/
theorem test_dec_fails : answers (exec (.dec 4 1 2 3)
      (regs (ready.storeBytes 0x2000 [0x7D, 0xCE, 0xBC, 0x2A, 0x6A, 0x80, 0xC7, 0x62, 0x5C, 0x55, 0xA7, 0x91,
        0x73, 0x64, 0x73]) [(1, 0x2000), (2, 15), (3, 0x3000)]))
    (fun t => t.reg 4 == 1 && flagsWord t == 0x32) = true := by
  decide +kernel

/-- §4.2: the two-error block. -/
theorem test_synd : answers (exec (.synd 1 1)
      (regs (ready.storeBytes 0x2000 ((codeword.set 0 0x49).set 13 0xDE)) [(1, 0x2000)]))
    (fun t => t.poly 1 == [0x1E, 0xC3, 0xF0, 0xFE] && t.flags.z == false) = true := by decide +kernel

/-- Program P5h: `CAUSE = 0x00000004`. -/
theorem test_synd_range : answers (exec (.synd 1 1) (regs ready [(1, 0xFFF8)]))
    (fun t => causeWord t == 0x00000004) = true := by decide +kernel

theorem test_kes : answers (exec (.kes 2 1 3) (ready.setPoly 1 [0x1E, 0xC3, 0xF0, 0xFE]))
    (fun t => t.poly 2 == [0x26, 0x11, 0x01] && t.poly 3 == [0x55, 0xFE]) = true := by decide +kernel

/-- §7, program P5k. -/
theorem test_kes_operand : answers (exec (.kes 2 1 3) (ready.setPoly 1 [1, 2, 3, 4, 5]))
    (fun t => causeWord t == 0x00000006) = true := by decide +kernel

/-- `(x+1)(x+2) = x^2+3x+2` (§3, `generator(2)`) has the roots 1 and 2; their inverses are `01` and `8E`
(§2.2). -/
theorem test_chien : answers (exec (.chien 4 2 5) (regs (ready.setPoly 2 [1, 3, 2]) [(5, 0x4000)]))
    (fun t => t.reg 4 == 2 && t.loadBytes 0x4000 2 == [0x01, 0x8E]) = true := by decide +kernel

/-- Program P4: the magnitudes of the two-error block. -/
theorem test_forney : answers (exec (.forney 6 3 5 4)
      (regs ((ready.setPoly 3 [0x55, 0xFE]).storeBytes 0x4000 [0x13, 0x02])
        [(4, 2), (5, 0x4000), (6, 0x4100)]))
    (fun t => t.loadBytes 0x4100 2 == [0x01, 0xFF]) = true := by decide +kernel

/-- §7: equal locations raise `INV0`. -/
theorem test_forney_repeats : answers (exec (.forney 6 3 5 4)
      (regs (ready.storeBytes 0x4000 [0x13, 0x13]) [(4, 2), (5, 0x4000), (6, 0x4100)]))
    (fun t => causeWord t == 0x00000007) = true := by decide +kernel

/-- Program P4: the corrected block. -/
theorem test_corr : answers (exec (.corr 1 5 6 4)
      (regs (((ready.storeBytes 0x2000 ((codeword.set 0 0x49).set 13 0xDE)).storeBytes 0x4000
        [0x13, 0x02]).storeBytes 0x4100 [0x01, 0xFF]) [(1, 0x2000), (4, 2), (5, 0x4000), (6, 0x4100)]))
    (fun t => t.loadBytes 0x2000 15 == codeword) = true := by decide +kernel

/-- 44_decoder_stages.md R254: the locations `92 95` lie outside the block. -/
theorem test_corr_outside : answers (exec (.corr 1 5 6 4)
      (regs (ready.storeBytes 0x4000 [0x92, 0x95]) [(1, 0x2000), (4, 2), (5, 0x4000), (6, 0x4100)]))
    (fun t => flagsWord t == 0x52 && t.status.err == false) = true := by decide +kernel

/-! ### The step and the host -/

/-- Program P5c: the all-zero word. -/
theorem test_illegal : answers (step { ready with pc := 4 }) (fun t =>
    causeWord t == 0x00000001 && t.epc == 4 && t.pc == 4 && statusWord t == 0x4) = true := by decide +kernel

/-- R110: `GO` on an idle machine, then one command of the run. -/
theorem test_go : answers (step { State.reset with inputs := [.host (.write 0x10000 .word 0x7)] }) (fun t =>
    statusWord t == 0x1 && ctrlWord t == 0x6) = true := by decide +kernel

/-- R64: a 16-bit write and a 32-bit read of DMEM, little-endian. -/
theorem test_host_dmem :
    (hostAccess (hostAccess idle (.write 0x0FFFE .half 0xABCD1234)) (.read 0x0FFFC .word)).hostData =
      0x12340000 := by decide +kernel

/-- R24: clearing `ERR` clears `CAUSE`; `EPC` keeps its value. -/
theorem test_host_clears_err :
    let s := hostAccess { (ready.errorEntry .inv0) with epc := 0x14 } (.write 0x10004 .word 0x4)
    statusWord s = 0 ∧ causeWord s = 0 ∧ s.epc = 0x14 := by decide +kernel

/-- R31, R331: during a run a `STATUS` read shows `RUN`, and a write to DMEM, a misaligned one too, is dropped
and sets `HWE`. -/
theorem test_host_in_run :
    (hostAccess ready (.read 0x10004 .word)).hostData = 0x1 ∧
    statusWord (hostAccess ready (.write 0x02001 .half 0xABCD)) = 0x9 ∧
    (hostAccess ready (.write 0x02001 .half 0xABCD)).mem = [] := by decide +kernel

/-- R26: bits 1:0 of `PC` ignore writes. -/
theorem test_host_pc : (hostAccess idle (.write 0x10014 .word 0xFFFF0017)).pc = 0x0014 := by decide +kernel

/-! ### Witnesses: hypotheses of the statements, met together -/

/-- `DecodeInvertsEncode`. -/
theorem test_witness_well_formed : (Instr.finit 0x03FF).WellFormed ∧ (Instr.li 7 0xFFFF).WellFormed := by
  decide

/-- `EncodeInvertsDecode`, `WordsDecodeByMaskAndMatch`. -/
theorem test_witness_decodes : decode 0x200003FF = .ok (.finit 0x03FF) ∧
    (0x200003FF : Word) &&& (Instr.finit 0).mask = (Instr.finit 0).pattern := by decide

/-- `UnlistedWordsRaiseIllegal`, first clause. -/
theorem test_witness_illegal : State.reset.running.inputs = [] ∧ State.reset.running.status.run = true ∧
    ∀ i : Instr, fetchWord State.reset.running &&& i.mask ≠ i.pattern := by
  refine ⟨rfl, rfl, fun i => ?_⟩
  rw [(by decide : fetchWord State.reset.running = 0#32), BitVec.zero_and]
  cases i <;> simp [Instr.pattern, Instr.opcode, formatN]

/-- `UnlistedWordsRaiseIllegal`, the other clauses. -/
theorem test_witness_reserved :
    (fieldOp 0x7C000000).toNat ∈ [0x00, 0x05, 0x06, 0x07, 0x0E, 0x0F, 0x1C, 0x1D, 0x1E, 0x1F] ∧
    0x28 ≤ (fieldOp 0xA0000000).toNat ∧
    fieldOp 0x20000400 = (Instr.finit 0).opcode ∧
    (0x20000400 : Word) &&& (Instr.finit 0).mask &&& 0x03FFFFFF ≠ 0 := by decide

/-- `StepRunsTheDecodedCommand`. -/
theorem test_witness_step :
    let s := ready.withFetchWord 32 0x08000000
    s.status.run = true ∧ decodeBytes (s.loadBytes s.pc.toNat 4) = .ok (.nop, []) ∧ s.inputs = [] ∧
    { s with inputs := [.sequencer] }.inputs = [.sequencer] ∧ idle.status.run = false ∧
    idle.inputs = [] ∧ { idle with inputs := [.sequencer] }.inputs = [.sequencer] ∧
    { idle with inputs := [.reset] }.inputs = [.reset] ∧
    { idle with inputs := [.host (.read 0 .byte)] }.inputs = [.host (.read 0 .byte)] := by decide

/-- `ErrorsArePrecise`. -/
theorem test_witness_precise : ready.inputs = [] ∧ ready.status.run = true ∧ ready.status.err = false ∧
    ∃ t, step ready = .next t ∧ t.status.err = true :=
  ⟨rfl, rfl, rfl, exists_next (by decide +kernel)⟩

/-- `CommandsRaiseOnlyListedCauses`. -/
theorem test_witness_cause : Inv ready ∧ ready.status.err = false ∧
    ∃ t, exec (.gfinv 2 1) ready = .next t ∧ t.status.err = true :=
  ⟨inv_ready, rfl, exists_next (by decide +kernel)⟩

/-- `UnconfiguredCommandsRaise`: without a field, and with a field and no coder. -/
theorem test_witness_unconfigured :
    (requiresField (.gfmul 1 2 3) = true ∧ State.reset.field.fieldOk = false) ∧
    (requiresCoder (.kes 1 2 3) = true ∧
      { ready with coder := State.reset.coder }.coder.coderOk = false) := by decide

/-- `UnconstructedTablesAreNeverRead`: a command that leaves the field, and a `FINIT`. -/
theorem test_witness_tables : State.reset.field.fieldOk = false ∧ State.reset.coder.coderOk = false ∧
    (∃ t, exec .nop State.reset = .next t ∧ (t.field.fieldOk == false) = true) ∧
    ∃ t, exec (.finit 0x11D) State.reset = .next t ∧ (t.field.fieldOk == true) = true :=
  ⟨rfl, rfl, exists_next (by decide +kernel), exists_next (by decide +kernel)⟩

/-- `MemoryChecksComeInOrder`, the operands of `PLD`, `PST`, `SYND` and `CHIEN`: past the top of DMEM by
one byte. -/
theorem test_witness_ranges :
    let s := regs withPolys [(1, 0xFFF1), (2, 0x0010), (3, 0xFFF2), (4, 0x0001), (5, 0xFFFF)]
    s.coder.coderOk = true ∧ s.field.fieldOk = true ∧
    ¬ InRange (s.unsigned 1) (s.unsigned 2) ∧ s.unsigned 4 < (s.poly 2).length ∧
    ((s.poly 1).length ≤ s.unsigned 2 ∧ ¬ InRange (s.unsigned 1) (s.unsigned 2)) ∧
    ¬ InRange (s.unsigned 3) s.coder.blockLen ∧ ¬ InRange (s.unsigned 5) (deg (s.poly 1)) := by
  decide +kernel

/-- `MemoryChecksComeInOrder`, `ENC`: 11 bytes become 15, at an address one too high, one that overlaps by
one byte; and 0xFFFF bytes, whose output is too long. -/
theorem test_witness_enc_ranges :
    let s := regs ready [(1, 0xFFF2), (2, 11), (3, 10), (4, 0xFFFF)]
    let outlen := blockCount (s.unsigned 2) s.coder.dataLen * s.coder.blockLen
    s.coder.coderOk = true ∧ ¬ InRange (s.unsigned 1) outlen ∧
    blockCount (s.unsigned 4) s.coder.dataLen * s.coder.blockLen > 0xFFFF ∧
    ¬ InRange (s.unsigned 1) (s.unsigned 4) ∧
    (InRange (s.unsigned 5) (s.unsigned 2) ∧ outlen ≤ 0xFFFF ∧ InRange (s.unsigned 3) outlen ∧
      Overlap (s.unsigned 5) (s.unsigned 2) (s.unsigned 3) outlen) := by decide +kernel

/-- `MemoryChecksComeInOrder`, `DEC`: 15 bytes become 11. -/
theorem test_witness_dec_ranges :
    let s := regs ready [(1, 0xFFF6), (2, 15), (3, 14), (4, 0xFFFF)]
    let outlen := blockCount (s.unsigned 2) s.coder.blockLen * s.coder.dataLen
    s.coder.coderOk = true ∧ ¬ InRange (s.unsigned 1) outlen ∧ ¬ InRange (s.unsigned 1) (s.unsigned 4) ∧
    (InRange (s.unsigned 5) (s.unsigned 2) ∧ InRange (s.unsigned 3) outlen ∧
      Overlap (s.unsigned 5) (s.unsigned 2) (s.unsigned 3) outlen) := by decide +kernel

/-- `MemoryChecksComeInOrder`, `FORNEY` and `CORR`: two locations, the second one the first byte of the
other operand. -/
theorem test_witness_stage_ranges :
    let s := regs ready [(1, 0x4000), (2, 2), (3, 0x4001), (4, 0xFFFF)]
    s.coder.coderOk = true ∧ s.field.fieldOk = true ∧ ¬ InRange (s.unsigned 4) (s.unsigned 2) ∧
    ¬ InRange (s.unsigned 4) s.coder.blockLen ∧
    (InRange (s.unsigned 1) (s.unsigned 2) ∧ InRange (s.unsigned 3) (s.unsigned 2) ∧
      Overlap (s.unsigned 1) (s.unsigned 2) (s.unsigned 3) (s.unsigned 2)) ∧
    (InRange (s.unsigned 3) s.coder.blockLen ∧
      Overlap (s.unsigned 1) (s.unsigned 2) (s.unsigned 3) s.coder.blockLen) := by decide +kernel

/-- `ResetLeavesTheResetState`, in a run. -/
theorem test_witness_reset : { ready with inputs := [.reset] }.inputs = .reset :: [] := rfl

/-- `InvariantHoldsAtReset`, `EveryRunFromResetKeepsTheInvariant`: memories in their canonical form. -/
theorem test_witness_memory : Memory.wf [(0x0000, 0x1D), (0xFFFF, 0x01)] ∧
    ¬ Memory.wf [(0x10000, 0x01)] ∧ ¬ Memory.wf [(5, 0x00)] ∧ ¬ Memory.wf [(5, 1), (5, 2)] := by decide

/-- `EveryStepKeepsTheInvariant`. -/
theorem test_witness_invariant : Inv ready ∧ ∃ t, step ready = .next t ∧ (t.status.run == false) = true :=
  ⟨inv_ready, exists_next (by decide +kernel)⟩

/-- `GoStartsARun`: `GO` accepted, and ignored in each of its three cases. -/
theorem test_witness_go : (1 : Word).getLsbD 0 = true ∧ idle.status.run = false ∧ idle.status.err = false ∧
    (6 : Word).getLsbD 0 = false ∧ ready.status.run = true ∧
    (idle.errorEntry .illegal).status.err = true := by decide

/-- `HostAccessDuringARun`: the last byte of DMEM, which is misaligned for a word, and the last register; a
reserved offset, an unmapped address, a narrow access, a misaligned one; a read-only register. -/
theorem test_witness_host_in_run : ready.status.run = true ∧ (0x0FFFF : BitVec 17).toNat < 0x10000 ∧
    (0x0FFFF : BitVec 17).toNat % AccessWidth.word.size ≠ 0 ∧
    (∃ i : Fin 8, (0x1005C : BitVec 17).toNat = 0x10040 + 4 * i.val) ∧
    (0x10024 ≤ (0x1003C : BitVec 17).toNat ∧ (0x1003C : BitVec 17).toNat < 0x10040) ∧
    0x10060 ≤ (0x1FFFF : BitVec 17).toNat ∧
    (0x10000 ≤ (0x10014 : BitVec 17).toNat ∧ AccessWidth.half ≠ .word) ∧
    (0x10000 ≤ (0x10015 : BitVec 17).toNat ∧ (0x10015 : BitVec 17).toNat % 4 ≠ 0) ∧
    (0x1001C : BitVec 17) ∈ [(0x10008 : BitVec 17), 0x1000C, 0x10010, 0x10018, 0x1001C] := by decide

/-- `HostReadsBackDmem`: an aligned access and a misaligned one. -/
theorem test_witness_host_dmem : idle.status.run = false ∧ idle.mem.wf ∧
    (0x0FFFC : BitVec 17).toNat < 0x10000 ∧ (0x0FFFC : BitVec 17).toNat % AccessWidth.word.size = 0 ∧
    (0x0FFFE : BitVec 17).toNat < 0x10000 ∧ (0x0FFFE : BitVec 17).toNat % AccessWidth.word.size ≠ 0 := by
  decide

/-- `HostRegistersReadAsTabled`, `HostRegistersWriteAsTabled`: a reserved offset, an unmapped address, a
narrow access. -/
theorem test_witness_host_registers : idle.status.run = false ∧
    (0x1003C : BitVec 17).toNat < 0x10040 ∧ 0x10060 ≤ (0x1FFFF : BitVec 17).toNat ∧
    (0x10000 ≤ (0x10000 : BitVec 17).toNat ∧ AccessWidth.half ≠ .word) ∧
    (0x10008 : BitVec 17) ∈ [(0x10008 : BitVec 17), 0x1000C, 0x10010, 0x10018, 0x1001C] := by decide

/-- `IrqFollowsStatusAndEnables`. -/
theorem test_witness_irq :
    let s := { ready with ctrl := { ieDone := true, ieErr := true } }
    s.ctrl.ieDone = true ∧ s.ctrl.ieErr = true ∧ (∃ t, exec .endRun s = .next t ∧ (t.irq == true) = true) ∧
    ((6 : Word).getLsbD 1 = true ∧ (6 : Word).getLsbD 2 = true) ∧
    (1 : Word).getLsbD 1 = false ∧ (1 : Word).getLsbD 2 = false :=
  ⟨rfl, rfl, exists_next (by decide +kernel), by decide, by decide⟩

/-- `OnlyFinitWritesTheField` and, with `FINIT`, `OnlyCinitAndFinitWriteTheCoder`: a step that changes both. -/
theorem test_witness_finit_step :
    (ready.withFetchWord 32 0x2000032D).inputs.head? ≠ some .reset ∧
    ∃ t, step (ready.withFetchWord 32 0x2000032D) = .next t ∧
      (t.field.prim != ready.field.prim && t.coder != ready.coder) = true :=
  ⟨by decide, exists_next (by decide +kernel)⟩

/-- `OnlyCinitAndFinitWriteTheCoder` with `CINIT`. -/
theorem test_witness_cinit_step :
    ∃ t, step ((regs ready [(1, 12), (2, 4)]).withFetchWord 32 0x80140000) = .next t ∧
      (t.coder != ready.coder) = true := exists_next (by decide +kernel)

/-- `FlagsAreWrittenOnlyByTheirCommands`: `SYND`, `KES` and `CORR` that change the flags, and a `CLRF`. -/
theorem test_witness_flags :
    (∃ t, exec (.corr 1 5 6 4) (regs (ready.storeBytes 0x4000 [0x92, 0x95])
        [(1, 0x2000), (4, 2), (5, 0x4000), (6, 0x4100)]) = .next t ∧
      ((t.flags.df, t.flags.dfr) != (ready.flags.df, ready.flags.dfr)) = true) ∧
    (∃ t, exec (.synd 1 1) ready = .next t ∧ (t.flags.z != ready.flags.z) = true) ∧
    (∃ t, exec (.kes 2 1 3) (ready.setPoly 1 [0xC2, 0x30, 0x1A, 0x31]) = .next t ∧
      ((t.flags.df, t.flags.dfr) != (ready.flags.df, ready.flags.dfr)) = true) ∧
    (ready.decodeFail .corr).flags.df = true ∧
    ∃ t, exec .clrf (ready.decodeFail .corr) = .next t ∧ (t.flags.df == false) = true :=
  ⟨exists_next (by decide +kernel), exists_next (by decide +kernel), exists_next (by decide +kernel), rfl,
    exists_next (by decide +kernel)⟩

/-- `FrameOfCommandsThatStoreNothing`: `GFMUL`, whose destination is one register of eight. -/
theorem test_witness_frame : stores (.gfmul 1 2 3) = false ∧ (2 : RIdx) ∉ destR (.gfmul 1 2 3) ∧
    ready.status.err = false ∧ ∃ t, exec (.gfmul 1 2 3) ready = .next t ∧ (t.status.err == false) = true :=
  ⟨rfl, by decide, rfl, exists_next (by decide +kernel)⟩

/-- `FrameOfStoringCommands`: `PST` of 4 bytes at the top of DMEM. -/
theorem test_witness_store_frame :
    let s := regs withPolys [(2, 0xFFFC), (3, 4)]
    Inv s ∧ stores (.pst 1 2 3) = true ∧ storeRange (.pst 1 2 3) s = (0xFFFC, 4) ∧ 0xFFFB < 0xFFFC ∧
    ∃ t, exec (.pst 1 2 3) s = .next t ∧ (t.status.err == false) = true :=
  ⟨inv_regs inv_withPolys _, rfl, by decide +kernel, by decide, exists_next (by decide +kernel)⟩

/-- `FinitBuildsTheField`. -/
theorem test_witness_finit : ((0x032D : Half).extractLsb' 0 9).getLsbD 8 = true ∧
    ((buildExp ((0x032D : Half).extractLsb' 0 9)).toList.take 255).Nodup := by
  refine ⟨by decide, ?_⟩
  rw [buildExp_toList, powersFrom_take _ 255 256 _ (by decide)]
  exact (isPrimitive_iff _).1 (by decide +kernel)

/-- `FinitRejectsBadMasks`. -/
theorem test_witness_finit_rejects : ((0x00FF : Half).extractLsb' 0 9).getLsbD 8 = false ∧
    ((0x011B : Half).extractLsb' 0 9).getLsbD 8 = true ∧
    ¬ ((buildExp ((0x011B : Half).extractLsb' 0 9)).toList.take 255).Nodup := by
  refine ⟨by decide, by decide, ?_⟩
  rw [buildExp_toList, powersFrom_take _ 255 256 _ (by decide), ← isPrimitive_iff]
  decide +kernel

/-- `GfmulMultipliesModuloPrim`, `GfinvGfexpAndGflogComplete`: a zero and a non-zero operand. -/
theorem test_witness_field :
    let s := regs ready [(1, 0xAB53)]
    Inv s ∧ s.field.fieldOk = true ∧ s.elem 1 ≠ 0 ∧ s.elem 2 = 0 :=
  ⟨inv_regs inv_ready _, rfl, by decide, by decide⟩

/-- `FieldLaws`, and for either base. -/
theorem test_witness_field_valid : FieldValid field11D ∧ FieldValid { field11D with gb := true } ∧
    (0x53 : Byte) ≠ 0 := ⟨valid11D, valid11D_one, by decide⟩

/-- `PolynomialLaws`, with a divisor that is not `Zero`. -/
theorem test_witness_polys : FieldValid field11D ∧
    ([0x12, 0x34, 0x56] : Poly).headD 0 ≠ 0 ∧ ([0x01, 0x0F] : Poly).headD 0 ≠ 0 ∧
    ([0x01, 0x0F] : Poly) ≠ zeroPoly ∧ (zeroPoly = zeroPoly ∨ zeroPoly.headD 0 ≠ 0) :=
  ⟨valid11D, by decide, by decide, by decide, .inl rfl⟩

/-- `MorePassesChangeNothing`. -/
theorem test_witness_passes : FieldValid field11D ∧ ([0x12, 0x34, 0x56] : Poly).headD 0 ≠ 0 ∧
    ([0x01, 0x0F] : Poly).headD 0 ≠ 0 ∧ gfInv field11D (lead [0x01, 0x0F]) = .ok 0x01 ∧
    ([0x12, 0x34, 0x56] : Poly).length ≤ 3 ∧ ([0x1E, 0xC3] : Poly) ≠ [] ∧
    ([0x1E, 0xC3] : Poly).length ≤ 2 := by
  refine ⟨valid11D, by decide, by decide, ?_, by decide, by decide, by decide⟩
  exact congrArg Except.ok (by decide +kernel : gfExp field11D (255 - field11D.logEntry 0x01) = 0x01)

/-- `PconstPdegAndPcoefComplete`: a power inside the polynomial and the first one above it. -/
theorem test_witness_pcoef :
    let s := regs withPolys [(2, 2), (3, 3)]
    s.unsigned 2 < (s.poly 1).length ∧ (s.poly 1).length ≤ s.unsigned 3 ∧ s.poly 1 ≠ [] := by decide

/-- `PaddAddsCoefficients`, `PevalEvaluates`. -/
theorem test_witness_padd : Inv withPolys ∧ withPolys.field.fieldOk = true := ⟨inv_withPolys, rfl⟩

/-- The longest polynomial. -/
def longest : Poly := 1 :: zeros 255

/-- `PmulConvolves`: a zero operand, degree 255, degree 256. -/
theorem test_witness_pmul :
    let s := (withPolys.setPoly 3 longest).setPoly 4 [7]
    Inv s ∧ s.field.fieldOk = true ∧ s.poly 5 = zeroPoly ∧ s.poly 3 ≠ zeroPoly ∧ s.poly 4 ≠ zeroPoly ∧
    deg (s.poly 3) + deg (s.poly 4) ≤ 255 ∧ s.poly 2 ≠ zeroPoly ∧
    255 < deg (s.poly 3) + deg (s.poly 2) :=
  ⟨(inv_withPolys.setPoly 3 (by decide +kernel)).setPoly 4 (by decide), rfl, by decide +kernel,
    by decide +kernel, by decide +kernel, by decide +kernel, by decide +kernel, by decide +kernel⟩

/-- `PsclAndPmonoScale`: a negative degree, the result of degree 255, and of degree 256. -/
theorem test_witness_pmono :
    let s := regs withPolys [(1, 0xFFFF), (2, 253), (3, 254), (4, 1)]
    Inv s ∧ s.field.fieldOk = true ∧ s.signed 1 < 0 ∧ 0 ≤ s.signed 2 ∧
    deg (s.poly 1) + s.signed 2 ≤ 255 ∧ s.elem 4 ≠ 0 ∧ s.poly 1 ≠ zeroPoly ∧ s.elem 5 = 0 ∧
    255 < deg (s.poly 1) + s.signed 3 :=
  ⟨inv_regs inv_withPolys _, rfl, by decide, by decide, by decide, by decide, by decide, by decide,
    by decide⟩

/-- `PdivDivides`: a divisor, and `Zero`. -/
theorem test_witness_pdiv : Inv withPolys ∧ withPolys.field.fieldOk = true ∧ withPolys.poly 2 ≠ zeroPoly ∧
    withPolys.poly 5 = zeroPoly := ⟨inv_withPolys, rfl, by decide, by decide⟩

/-- `PgenHasItsRoots`: the degrees 255 and 256. -/
theorem test_witness_pgen :
    let s := regs ready [(1, 255), (2, 256)]
    Inv s ∧ s.field.fieldOk = true ∧ s.unsigned 1 ≤ 255 ∧ 255 < s.unsigned 2 :=
  ⟨inv_regs inv_ready _, rfl, by decide, by decide⟩

/-- `PldReadsHighestFirst`: 257 bytes with a first byte 0, and the same with a first byte 1. -/
theorem test_witness_pld :
    let s := regs ready [(2, 0x1000), (3, 257)]
    let s' := s.storeBytes 0x1000 [1]
    InRange (s.unsigned 2) (s.unsigned 3) ∧
    (∀ i, i + 256 < s.unsigned 3 → s.mem.read (s.unsigned 2 + i) = 0) ∧
    InRange (s'.unsigned 2) (s'.unsigned 3) ∧
    ∃ i, i + 256 < s'.unsigned 3 ∧ s'.mem.read (s'.unsigned 2 + i) ≠ 0 :=
  ⟨by decide, fun _ _ => rfl, by decide, 0, by decide, by decide⟩

/-- `PstStoresAndPldReadsBack`, at the top of DMEM. -/
theorem test_witness_pst :
    let s := regs withPolys [(2, 0xFFFD), (3, 3)]
    Inv s ∧ (s.poly 1).length ≤ s.unsigned 3 ∧ InRange (s.unsigned 2) (s.unsigned 3) :=
  ⟨inv_regs inv_withPolys _, by decide, by decide⟩

/-- `CinitConstructsTheCoder`: each bound met and missed by one. -/
theorem test_witness_cinit :
    let s := regs ready [(1, 11), (2, 1), (3, 244), (4, 245), (5, 10), (6, 0), (7, 0xFFFF)]
    s.field.fieldOk = true ∧ (11 ≤ s.signed 1 ∧ 1 ≤ s.signed 2 ∧ s.signed 1 + s.signed 3 ≤ 255) ∧
    s.signed 5 < 11 ∧ s.signed 7 < 11 ∧ (s.signed 6 < 1 ∧ s.signed 7 < 1) ∧
    255 < s.signed 1 + s.signed 4 := by decide

/-- `EncWritesCodewords`: 12 bytes make two blocks. -/
theorem test_witness_enc :
    let s := regs (ready.storeBytes 0x1000 hello) [(1, 0x1000), (2, 12), (3, 0x100C)]
    Inv s ∧ s.coder.coderOk = true ∧ blockCount (s.unsigned 2) s.coder.dataLen * s.coder.blockLen = 30 ∧
    InRange (s.unsigned 1) (s.unsigned 2) ∧ InRange (s.unsigned 3) 30 ∧
    ¬ Overlap (s.unsigned 1) (s.unsigned 2) (s.unsigned 3) 30 :=
  ⟨inv_regs (inv_ready.storeBytes _ _ (.inr (by decide))) _, rfl, by decide +kernel, by decide +kernel,
    by decide +kernel, by decide +kernel⟩

/-- `DecDecodesEveryBlock`, with a block that decodes and one that fails (the `KES_T0` block). -/
theorem test_witness_dec :
    let s := regs (ready.storeBytes 0x2000 (codeword ++ [0x7D, 0xCE, 0xBC, 0x2A, 0x6A, 0x80, 0xC7, 0x62, 0x5C,
      0x55, 0xA7, 0x91, 0x73, 0x64, 0x73])) [(1, 0x2000), (2, 30), (3, 0x3000)]
    Inv s ∧ s.coder.coderOk = true ∧ InRange (s.unsigned 1) (s.unsigned 2) ∧
    blockCount (s.unsigned 2) s.coder.blockLen * s.coder.dataLen = 22 ∧ InRange (s.unsigned 3) 22 ∧
    ¬ Overlap (s.unsigned 1) (s.unsigned 2) (s.unsigned 3) 22 ∧
    (decodeBlock s.field s.coder (blockAt (s.loadBytes 0x2000 30) 15 0)).isOk = true ∧
    (match decodeBlock s.field s.coder (blockAt (s.loadBytes 0x2000 30) 15 1) with
      | .error (.df r) => r.code == 3
      | _ => false) = true :=
  ⟨inv_regs (inv_ready.storeBytes _ _ (.inr (by decide))) _, rfl, by decide +kernel, by decide +kernel,
    by decide +kernel, by decide +kernel, by decide +kernel, by decide +kernel⟩

/-- `MarkerBlockFillsTheBlock`, `EncodedBlocksDecode`, `DegreeZeroSyndromesAreAccepted`: the smallest and the
largest coder, a data block, a block, and `E = 1`. -/
theorem test_witness_coder : FieldValid field11D ∧ CoderValid coder11 ∧
    CoderValid { k := 254, e := 1, coderOk := true } ∧ CoderValid { k := 11, e := 244, coderOk := true } ∧
    Coder.parityLen { k := 254, e := 1, coderOk := true } = 1 ∧
    hello.length = coder11.dataLen ∧ codeword.length = coder11.blockLen :=
  ⟨valid11D, by decide, by decide, by decide, by decide, by decide, by decide⟩

/-- `DegreeZeroSyndromesAreAccepted`, first clause: a codeword. -/
theorem test_witness_syndromes : ∀ i, 1 ≤ i → i < coder11.parityLen →
    eval field11D (normalize codeword) (gfExp field11D (i + field11D.base)) = 0 := by
  intro i h1 h2
  have h2 : i < 4 := h2
  obtain rfl | rfl | rfl : i = 1 ∨ i = 2 ∨ i = 3 := by omega
  all_goals decide +kernel

/-- `ErrorsWithinTheBoundAreCorrected`: two bytes of the codeword changed. -/
theorem test_witness_errors : FieldValid field11D ∧ CoderValid coder11 ∧ hello.length = coder11.dataLen ∧
    (match encodeBlock field11D coder11 hello with
      | .ok b => b == codeword
      | _ => false) = true ∧
    ((codeword.set 0 0x49).set 13 0xDE).length = codeword.length ∧
    distance codeword ((codeword.set 0 0x49).set 13 0xDE) ≤ coder11.parityLen / 2 :=
  ⟨valid11D, by decide, by decide, by decide +kernel, by decide, by decide⟩

/-- `SyndComputesSyndromes`: a block at the top of DMEM. -/
theorem test_witness_synd :
    let s := regs ready [(1, 0xFFF1)]
    Inv s ∧ s.coder.coderOk = true ∧ InRange (s.unsigned 1) s.coder.blockLen :=
  ⟨inv_regs inv_ready _, rfl, by decide⟩

/-- `KesSolvesTheKeyEquation`: degrees 3 and 4 with `E = 4`, and degree 1. -/
theorem test_witness_kes :
    let s := ((ready.setPoly 1 [0x1E, 0xC3, 0xF0, 0xFE]).setPoly 2 [1, 2, 3, 4, 5]).setPoly 3 [7, 9]
    Inv s ∧ s.coder.coderOk = true ∧ deg (s.poly 1) < s.coder.parityLen ∧
    s.coder.parityLen ≤ deg (s.poly 2) ∧ 2 * deg (s.poly 3) < s.coder.parityLen :=
  ⟨((inv_ready.setPoly 1 (by decide)).setPoly 2 (by decide)).setPoly 3 (by decide), rfl, by decide, by decide,
    by decide⟩

/-- No power of `α` is 0. -/
theorem gfExp_ne_zero (i : Nat) : gfExp field11D i ≠ 0 :=
  (by decide +kernel : ∀ b ∈ exp11DRows, b ≠ 0) _ (List.getElem_mem (l := exp11DRows) _)

/-- `ChienFindsTheRoots`: `(x+1)` has the root 1 among the candidates, `x` has none. -/
theorem test_witness_chien :
    let s := regs ((ready.setPoly 2 [1, 1]).setPoly 3 [1, 0]) [(5, 0xFFFF)]
    Inv s ∧ s.field.fieldOk = true ∧ InRange (s.unsigned 5) (deg (s.poly 2)) ∧
    deg (s.poly 2) ≤ (chienCandidates.filter fun x => eval s.field (s.poly 2) x = 0).length ∧
    InRange (s.unsigned 5) (deg (s.poly 3)) ∧
    (chienCandidates.filter fun x => eval s.field (s.poly 3) x = 0).length < deg (s.poly 3) := by
  refine ⟨inv_regs ((inv_ready.setPoly 2 (by decide)).setPoly 3 (by decide)) _, rfl, by decide, ?_, by decide,
    ?_⟩
  · exact List.length_pos_of_mem (a := 1) (List.mem_filter.2 ⟨by decide +kernel, by decide +kernel⟩)
  · have h : chienCandidates.filter (fun x => eval field11D [1, 0] x = 0) = [] := by
      rw [List.filter_eq_nil_iff]
      intro x hx
      have h0 : x ≠ 0 := by
        obtain ⟨i, hi, rfl⟩ := List.mem_map.1 hx
        intro h
        have := congrArg BitVec.toNat h
        have := List.mem_range.1 hi
        simp at *
        omega
      by_cases h1 : x = 1
      · subst h1; decide
      · have := gfExp_ne_zero ((field11D.logEntry x + field11D.logEntry 1) % 255)
        have e : eval field11D [1, 0] x =
            gfExp field11D ((field11D.logEntry x + field11D.logEntry 1) % 255) := by
          rw [eval, if_neg h0, if_neg h1]
          change gfMul field11D x 1 ^^^ 0 = _
          rw [gfMul, if_neg (not_or.2 ⟨h0, by decide⟩)]
          exact BitVec.xor_zero
        rw [e]
        simpa using this
    exact (congrArg List.length h).trans_lt (by decide : 0 < deg [1, 0])

/-- `ForneyComputesMagnitudes`: distinct locations, equal ones, a zero. -/
theorem test_witness_forney :
    let s := regs (ready.storeBytes 0x4000 [0x13, 0x02, 0x02, 0x00])
      [(1, 0x4000), (2, 0x4001), (3, 0x4002), (4, 2), (5, 0x4002)]
    Inv s ∧ s.field.fieldOk = true ∧ InRange (s.unsigned 1) (s.unsigned 4) ∧
    InRange (s.unsigned 5) (s.unsigned 4) ∧ ¬ Overlap (s.unsigned 1) (s.unsigned 4) (s.unsigned 5) (s.unsigned 4) ∧
    (∀ x ∈ s.loadBytes (s.unsigned 1) 2, x ≠ 0) ∧ (s.loadBytes (s.unsigned 1) 2).Nodup ∧
    ¬ (s.loadBytes (s.unsigned 2) 2).Nodup ∧ (∃ x ∈ s.loadBytes (s.unsigned 3) 2, x = 0) ∧
    gfMul field11D 0x02 0x8E = 1 :=
  ⟨inv_regs (inv_ready.storeBytes _ _ (.inr (by decide))) _, rfl, by decide +kernel, by decide +kernel,
    by decide +kernel, by decide +kernel, by decide +kernel, by decide +kernel, by decide +kernel,
    by decide +kernel⟩

/-- `CorrXorsMagnitudes`: the locations `α^14` and `α^0` at the two ends of the block; a zero location; and
`α^15` just outside. -/
theorem test_witness_corr :
    let s := regs (ready.storeBytes 0x4000 [0x13, 0x01, 0x00, 0x26])
      [(1, 0x2000), (2, 0x4000), (3, 0x4100), (4, 2), (5, 0x4002), (6, 0x4003), (7, 1)]
    Inv s ∧ s.coder.coderOk = true ∧ InRange (s.unsigned 1) s.coder.blockLen ∧
    InRange (s.unsigned 2) (s.unsigned 4) ∧ InRange (s.unsigned 3) (s.unsigned 4) ∧
    ¬ Overlap (s.unsigned 2) (s.unsigned 4) (s.unsigned 1) s.coder.blockLen ∧
    ¬ Overlap (s.unsigned 3) (s.unsigned 4) (s.unsigned 1) s.coder.blockLen ∧
    (∀ x ∈ s.loadBytes (s.unsigned 2) 2, ∃ j, j < 15 ∧ gfPow s.field 2 j = x) ∧
    (s.loadBytes (s.unsigned 5) 1)[0]? = some 0 ∧
    ((s.loadBytes (s.unsigned 6) 1)[0]? = some 0x26 ∧ ∀ j, j < 15 → gfPow s.field 2 j ≠ 0x26) :=
  ⟨inv_regs (inv_ready.storeBytes _ _ (.inr (by decide))) _, rfl, by decide +kernel, by decide +kernel,
    by decide +kernel, by decide +kernel, by decide +kernel, by decide +kernel, by decide +kernel,
    by decide +kernel⟩

/-- `DecReadsOnlyItsOperands`: two states that differ in another register, in `pc` and in the flags. -/
theorem test_witness_dec_operands :
    let s := regs (ready.storeBytes 0x2000 codeword) [(1, 0x2000), (2, 15), (3, 0x3000)]
    let s' := { s.setReg 7 5 with pc := 8, flags := { z := true, df := false, dfr := 0 } }
    Inv s ∧ Inv s' ∧ s.coder.coderOk = true ∧ s.status.err = false ∧ s'.field = s.field ∧ s'.coder = s.coder ∧
    s'.reg 1 = s.reg 1 ∧ s'.reg 2 = s.reg 2 ∧ s'.reg 3 = s.reg 3 ∧
    s'.loadBytes (s.unsigned 1) (s.unsigned 2) = s.loadBytes (s.unsigned 1) (s.unsigned 2) ∧
    ∃ t, exec (.dec 4 1 2 3) s = .next t ∧ (t.status.err == false) = true :=
  have h := inv_regs (inv_ready.storeBytes 0x2000 codeword (.inr (by decide)))
    [(1, 0x2000), (2, 15), (3, 0x3000)]
  ⟨h, ⟨h.mem, h.dmem0, by decide, h.polys, h.status, h.cause, h.field, h.coder⟩, rfl, rfl, rfl, rfl, rfl, rfl,
    rfl, rfl, exists_next (by decide +kernel)⟩

end Sys2Proof.Tests
end

section
/-! SUPPORT. Multiplication in a valid field, with the tables and without them. In a valid field the
non-zero bytes are the 255 first powers of `α = 2` (41_field.md R132); the tables hold these powers and
their exponents, and multiplying by a power of `α` is repeated doubling, since doubling is linear. -/

namespace Sys2Proof.Proofs

open Sys2Proof.Machine Sys2Proof.Safety

/-! ### Doubling -/

/-- Doubling is a shift, corrected by the low byte of `prim` when the top bit falls out. -/
theorem gfDouble_eq (prim : BitVec 9) (x : Byte) :
    gfDouble prim x = x <<< 1 ^^^ (if x.msb then prim.setWidth 8 else 0) := by
  have hbig : (x.setWidth 9 <<< 1).toNat ≥ 256 ↔ x.msb = true := by
    simp only [BitVec.toNat_shiftLeft, BitVec.toNat_setWidth, Nat.shiftLeft_eq, BitVec.msb_eq_decide,
      decide_eq_true_eq]
    omega
  have hlow : (x.setWidth 9 <<< 1).setWidth 8 = x <<< 1 := by
    apply BitVec.eq_of_toNat_eq
    simp only [BitVec.toNat_shiftLeft, BitVec.toNat_setWidth, Nat.shiftLeft_eq]
    omega
  simp only [gfDouble, hbig, BitVec.setWidth_xor, hlow]
  split <;> simp

/-- Doubling is linear. -/
theorem gfDouble_xor (prim : BitVec 9) (x y : Byte) :
    gfDouble prim (x ^^^ y) = gfDouble prim x ^^^ gfDouble prim y := by
  simp only [gfDouble_eq, BitVec.shiftLeft_xor_distrib, BitVec.msb_xor]
  cases x.msb <;> cases y.msb <;> simp <;> ac_nf
  simp

@[simp] theorem gfDouble_zero (prim : BitVec 9) : gfDouble prim 0#8 = 0#8 := by simp [gfDouble_eq]

/-- A doubled byte is odd only after a reduction by an odd `prim`. -/
theorem gfDouble_getLsbD_zero (prim : BitVec 9) (x : Byte) :
    (gfDouble prim x).getLsbD 0 = (x.msb && prim.getLsbD 0) := by
  rw [gfDouble_eq]
  cases x.msb <;> simp

/-- Doubling modulo an odd `prim` loses nothing: what doubles to 0 was not reduced, so it was shifted. -/
theorem gfDouble_injective {prim : BitVec 9} (h : prim.getLsbD 0 = true) :
    Function.Injective (gfDouble prim) := by
  intro x y hxy
  have hz : gfDouble prim (x ^^^ y) = 0 := by rw [gfDouble_xor, hxy, BitVec.xor_self]; rfl
  have hmsb : (x ^^^ y).msb = false := by
    have hbit := gfDouble_getLsbD_zero prim (x ^^^ y)
    rw [hz, h, Bool.and_true] at hbit
    exact hbit.symm
  have hlt : (x ^^^ y).toNat < 128 := by simpa [BitVec.msb_eq_decide] using hmsb
  rw [gfDouble_of_lt _ _ hlt] at hz
  have hnat : (x ^^^ y).toNat <<< 1 % 256 = 0 := congrArg BitVec.toNat hz
  rw [Nat.shiftLeft_eq] at hnat
  exact BitVec.xor_eq_zero_iff.1 (BitVec.eq_of_toNat_eq (by simp only [BitVec.toNat_ofNat]; omega))

/-! ### The powers of `α` -/

/-- `α^i`: 1 doubled `i` times. -/
def alphaPow (prim : BitVec 9) (i : Nat) : Byte := (gfDouble prim)^[i] 1

@[simp] theorem alphaPow_zero (prim : BitVec 9) : alphaPow prim 0 = 1 := rfl

theorem alphaPow_succ (prim : BitVec 9) (i : Nat) :
    alphaPow prim (i + 1) = gfDouble prim (alphaPow prim i) := Function.iterate_succ_apply' _ _ _

theorem iterate_gfDouble_alphaPow (prim : BitVec 9) (i j : Nat) :
    (gfDouble prim)^[j] (alphaPow prim i) = alphaPow prim (j + i) :=
  (Function.iterate_add_apply _ j i 1).symm

/-- The values of the construction loop are iterates of doubling. -/
theorem powersFrom_eq_iterate (prim : BitVec 9) (n : Nat) (x : Byte) :
    powersFrom prim n x = List.iterate (gfDouble prim) x n := by
  induction n generalizing x with
  | zero => rfl
  | succ n ih => rw [powersFrom, List.iterate, ih]

theorem powersFrom_getElem? (prim : BitVec 9) {n i : Nat} (h : i < n) :
    (powersFrom prim n 1)[i]? = some (alphaPow prim i) := by
  rw [powersFrom_eq_iterate]
  exact List.getElem?_iterate _ _ n i h

/-! ### Check (2) of R132 -/

section Primitive

variable {prim : BitVec 9} (h : isPrimitive prim = true)
include h

/-- The 255 powers are pairwise distinct. -/
theorem alphaPow_inj {i j : Nat} (hi : i < 255) (hj : j < 255)
    (e : alphaPow prim i = alphaPow prim j) : i = j := by
  have hn := (isPrimitive_iff prim).1 h
  refine (List.getElem?_inj (by rwa [powersFrom_length]) hn).1 ?_
  rw [powersFrom_getElem? prim hi, powersFrom_getElem? prim hj, e]

/-- A mask that passes the check is odd: modulo an even one the powers above 1 are even, and there are
only 128 even bytes. -/
theorem getLsbD_zero_of_isPrimitive : prim.getLsbD 0 = true := by
  by_contra hodd
  have heven (i : Nat) : (alphaPow prim (i + 1)).toNat % 2 = 0 := by
    have hbit := gfDouble_getLsbD_zero prim (alphaPow prim i)
    rw [← alphaPow_succ, Bool.eq_false_of_not_eq_true hodd, Bool.and_false] at hbit
    simpa [BitVec.getLsbD] using hbit
  have hhalf (i : Nat) : (alphaPow prim (i + 1)).toNat / 2 < 128 := by omega
  obtain ⟨i, j, hij, e⟩ := Fintype.exists_ne_map_eq_of_card_lt
    (fun i : Fin 129 => (⟨_, hhalf i⟩ : Fin 128)) (by simp)
  have hi := heven i
  have hj := heven j
  rw [Fin.mk.injEq] at e
  have hsucc := alphaPow_inj h (i := i + 1) (j := j + 1) (by omega) (by omega)
    (BitVec.eq_of_toNat_eq (by omega))
  exact hij (Fin.ext (by omega))

/-- No power is 0. -/
theorem alphaPow_ne_zero (i : Nat) : alphaPow prim i ≠ 0 := by
  induction i with
  | zero => simp
  | succ i ih =>
    rw [alphaPow_succ]
    have hinj := gfDouble_injective (getLsbD_zero_of_isPrimitive h)
    exact fun e => ih (hinj (e.trans (gfDouble_zero prim).symm))

/-- Every non-zero byte is a power: 255 distinct powers fill the 255 non-zero bytes. -/
theorem exists_alphaPow {a : Byte} (ha : a ≠ 0) : ∃ i < 255, alphaPow prim i = a := by
  have hpos {b : Byte} (hb : b ≠ 0) : 0 < b.toNat :=
    Nat.pos_of_ne_zero fun e => hb (BitVec.eq_of_toNat_eq e)
  have hlt (b : Byte) (hb : b ≠ 0) : b.toNat - 1 < 255 := by have := hpos hb; omega
  have hinj : Function.Injective fun i : Fin 255 =>
      (⟨_, hlt _ (alphaPow_ne_zero h i)⟩ : Fin 255) := by
    intro i j e
    have hi := hpos (alphaPow_ne_zero h i)
    have hj := hpos (alphaPow_ne_zero h j)
    rw [Fin.mk.injEq] at e
    exact Fin.ext (alphaPow_inj h i.isLt j.isLt (BitVec.eq_of_toNat_eq (by omega)))
  obtain ⟨i, hi⟩ := Finite.injective_iff_surjective.1 hinj ⟨_, hlt a ha⟩
  rw [Fin.mk.injEq] at hi
  have hi₀ := hpos (alphaPow_ne_zero h i)
  have ha₀ := hpos ha
  exact ⟨i, i.isLt, BitVec.eq_of_toNat_eq (by omega)⟩

/-- The powers repeat after 255: `α^255` is some `α^i` with `i < 255`, and if `i` were not 0, then undoing
one doubling would make `α^254` a repeated power. -/
theorem alphaPow_255 : alphaPow prim 255 = 1 := by
  obtain ⟨i, hi, e⟩ := exists_alphaPow h (alphaPow_ne_zero h 255)
  cases i with
  | zero => exact e.symm
  | succ i =>
    rw [alphaPow_succ, alphaPow_succ _ 254] at e
    have hprev := gfDouble_injective (getLsbD_zero_of_isPrimitive h) e
    exact absurd (alphaPow_inj h (by omega) (by omega) hprev) (by omega)

theorem alphaPow_mod (i : Nat) : alphaPow prim (i % 255) = alphaPow prim i :=
  Function.IsPeriodicPt.iterate_mod_apply (alphaPow_255 h) i

end Primitive

/-! ### The tables of a valid field -/

section Tables

variable {F : Field} (h : FieldValid F)
include h

/-- `EXP` holds the powers (41_field.md R131). -/
theorem gfExp_eq_alphaPow {i : Nat} (hi : i < 256) : gfExp F i = alphaPow F.prim i := by
  have hget := powersFrom_getElem? F.prim hi
  rw [← buildExp_toList, ← h.exp, Vector.getElem?_toList, Vector.getElem?_eq_getElem hi] at hget
  simpa only [gfExp, Nat.mod_eq_of_lt hi] using Option.some.inj hget

/-- `LOG` holds the exponents (41_field.md R131); the entry of 0, set last, is not one of them. -/
theorem logEntry_alphaPow {i : Nat} (hi : i < 255) : F.logEntry (alphaPow F.prim i) = i := by
  have hne : 0 ≠ (alphaPow F.prim i).toNat := fun e =>
    alphaPow_ne_zero h.primitive i (BitVec.eq_of_toNat_eq e.symm)
  simp only [Field.logEntry, h.log, buildLog]
  rw [Vector.getElem_set_ne _ _ hne,
    setLogs_of_getElem _ 0 _ ((isPrimitive_iff _).1 h.primitive) i _ (powersFrom_getElem? _ hi)]
  simp only [BitVec.toNat_ofNat]
  omega

/-- The product of two powers adds their exponents (41_field.md R135). -/
theorem gfMul_alphaPow {i j : Nat} (hi : i < 255) (hj : j < 255) :
    gfMul F (alphaPow F.prim i) (alphaPow F.prim j) = alphaPow F.prim (i + j) := by
  have hne := alphaPow_ne_zero h.primitive
  rw [gfMul, if_neg (not_or.2 ⟨hne i, hne j⟩), logEntry_alphaPow h hi, logEntry_alphaPow h hj,
    gfExp_eq_alphaPow h (by omega), alphaPow_mod h.primitive]

end Tables

/-! ### Multiplication without tables -/

@[simp] theorem carrylessMul_zero_left (prim : BitVec 9) (b : Byte) (n : Nat) :
    carrylessMul prim 0#8 b n = 0#8 := by
  induction n with
  | zero => rfl
  | succ n ih => simp [carrylessMul, ih]

@[simp] theorem carrylessMul_zero_right (prim : BitVec 9) (a : Byte) (n : Nat) :
    carrylessMul prim a 0#8 n = 0#8 := by
  induction n generalizing a with
  | zero => rfl
  | succ n ih => simp [carrylessMul, ih]

/-- A byte is its upper bits, shifted back, and its lowest one. -/
theorem shiftLeft_shiftRight_xor_bit (a : Byte) :
    (a >>> 1) <<< 1 ^^^ (if a.getLsbD 0 then 1 else 0) = a := by
  ext i hi
  cases i with
  | zero => cases hbit : a[0] <;> simp [hbit]
  | succ i => cases hbit : a[0] <;> simp [hbit, Nat.add_comm 1 i, BitVec.getLsbD_eq_getElem hi]

/-- 1 is neutral: no bit of `a` reaches the reduction. -/
theorem carrylessMul_one_right (prim : BitVec 9) {n : Nat} (hn : n ≤ 8) (a : Byte) (ha : a.toNat < 2 ^ n) :
    carrylessMul prim a 1 n = a := by
  induction n generalizing a with
  | zero => exact BitVec.eq_of_toNat_eq (by simp [carrylessMul]; omega)
  | succ n ih =>
    have hhalf : (a >>> 1).toNat = a.toNat / 2 := by simp [Nat.shiftRight_eq_div_pow]
    rw [carrylessMul, ih (by omega) _ (by rw [hhalf]; omega), gfDouble_of_lt _ _ (by omega),
      shiftLeft_shiftRight_xor_bit]

/-- Doubling a factor doubles the product. -/
theorem carrylessMul_gfDouble (prim : BitVec 9) (a b : Byte) (n : Nat) :
    carrylessMul prim a (gfDouble prim b) n = gfDouble prim (carrylessMul prim a b n) := by
  induction n generalizing a with
  | zero => simp [carrylessMul]
  | succ n ih => rw [carrylessMul, carrylessMul, ih, gfDouble_xor, apply_ite (gfDouble prim)]; rfl

/-- Multiplying by a power of `α` is repeated doubling. -/
theorem carrylessMul_alphaPow (prim : BitVec 9) (a : Byte) (j : Nat) :
    carrylessMul prim a (alphaPow prim j) 8 = (gfDouble prim)^[j] a := by
  induction j with
  | zero => exact carrylessMul_one_right prim (by decide) a a.isLt
  | succ j ih => rw [alphaPow_succ, carrylessMul_gfDouble, ih, Function.iterate_succ_apply']

/-- The table product is the product of binary polynomials modulo `prim`. -/
theorem gfMul_eq_carrylessMul {F : Field} (h : FieldValid F) (a b : Byte) :
    gfMul F a b = carrylessMul F.prim a b 8 := by
  by_cases ha : a = 0
  · simp [gfMul, ha]
  by_cases hb : b = 0
  · simp [gfMul, hb]
  obtain ⟨i, hi, rfl⟩ := exists_alphaPow h.primitive ha
  obtain ⟨j, hj, rfl⟩ := exists_alphaPow h.primitive hb
  calc gfMul F (alphaPow F.prim i) (alphaPow F.prim j)
    _ = alphaPow F.prim (j + i) := by rw [gfMul_alphaPow h hi hj, Nat.add_comm]
    _ = (gfDouble F.prim)^[j] (alphaPow F.prim i) := (iterate_gfDouble_alphaPow _ _ _).symm
    _ = carrylessMul F.prim (alphaPow F.prim i) (alphaPow F.prim j) 8 :=
      (carrylessMul_alphaPow _ _ _).symm

/-! ### The command -/

/-- With a constructed field `GFMUL` completes and writes the table product (41_field.md R147). -/
theorem exec_gfmul_of_fieldOk (fd fa fb : RIdx) {s : State} (hok : s.field.fieldOk = true) :
    exec (.gfmul fd fa fb) s =
      .next (s.setReg fd (zext16 (gfMul s.field (s.elem fa) (s.elem fb)))).advance := by
  change execGfmul fd fa fb s = _
  rw [execGfmul, requireField_of_ok hok]
  rfl

/-- Settles O34: in a valid field the table product is the product modulo `PRIM`. -/
theorem gfmulMultipliesModuloPrim : Obligations.GfmulMultipliesModuloPrim := by
  intro s fd fa fb hinv hok
  rw [exec_gfmul_of_fieldOk fd fa fb hok, gfMul_eq_carrylessMul (hinv.field hok)]

end Sys2Proof.Proofs
end

section
/-! SUPPORT. A triple for computations that may stop early (00_scope.md R11): what holds of the value when
there is one, and which decode failures it may end with. One rule per shared operation; the errors a
computation may raise are not tracked. -/

namespace Sys2Proof.Proofs

open Sys2Proof.Machine Sys2Proof.Safety

/-- A value of the computation meets `P`, and a decode failure it ends with has its reason in `rs`. -/
def Ends {α : Type} (P : α → Prop) (rs : List DFReason) : Except Stop α → Prop
  | .ok a => P a
  | .error (.raise _) => True
  | .error (.df r) => r ∈ rs

section Rules

variable {α β : Type} {P Q : α → Prop} {R : β → Prop} {rs : List DFReason} {x : Except Stop α}

@[simp] theorem ends_ok (a : α) : Ends P rs (.ok a) ↔ P a := Iff.rfl

@[simp] theorem ends_raise (c : Cause) : Ends P rs (raise c) := trivial

@[simp] theorem ends_failDF (r : DFReason) : Ends P rs (failDF r) ↔ r ∈ rs := Iff.rfl

theorem Ends.of_ok {a : α} (h : Ends P rs x) (e : x = .ok a) : P a := by rwa [e] at h

theorem Ends.reason_mem {r : DFReason} (h : Ends P rs x) (e : x = .error (.df r)) : r ∈ rs := by rwa [e] at h

theorem Ends.mono (h : Ends P rs x) (hPQ : ∀ a, P a → Q a) : Ends Q rs x := by
  match x with
  | .ok a => exact hPQ a h
  | .error (.raise _) => trivial
  | .error (.df _) => exact h

/-- In sequence: the second part starts from what the first one promises. -/
theorem Ends.bind {f : α → Except Stop β} (h : Ends P rs x) (hf : ∀ a, P a → Ends R rs (f a)) :
    Ends R rs (x >>= f) := by
  match x with
  | .ok a => exact hf a h
  | .error (.raise _) => trivial
  | .error (.df _) => exact h

end Rules

/-! ### The checks and the field functions -/

section Checks

variable {rs : List DFReason}

theorem requireField_ends (s : State) : Ends (fun _ => s.field.fieldOk = true) rs (requireField s) := by
  obtain ⟨h, e⟩ | ⟨-, e⟩ := requireField_cases s
  · rwa [e]
  · simp [e]

theorem requireCoder_ends (s : State) : Ends (fun _ => s.coder.coderOk = true) rs (requireCoder s) := by
  obtain ⟨h, e⟩ | ⟨-, e⟩ := requireCoder_cases s
  · rwa [e]
  · simp [e]

theorem checkRange_ends (a n : Nat) : Ends (fun _ => InRange a n) rs (checkRange a n) := by
  obtain ⟨h, e⟩ | ⟨-, e⟩ := checkRange_cases a n
  · rwa [e]
  · simp [e]

theorem checkOverlap_ends (a n b m : Nat) :
    Ends (fun _ => ¬ Overlap a n b m) rs (checkOverlap a n b m) := by
  obtain ⟨h, e⟩ | ⟨-, e⟩ := checkOverlap_cases a n b m
  · rwa [e]
  · simp [e]

theorem checkCapacity_ends (p : Poly) :
    Ends (fun _ => p.length ≤ Config.maxDegree + 1) rs (checkCapacity p) := by
  obtain ⟨h, e⟩ | ⟨-, e⟩ := checkCapacity_cases p
  · rwa [e]
  · simp [e]

theorem gfInv_ends (F : Field) (a : Byte) :
    Ends (fun u => a ≠ 0 ∧ gfInv F a = .ok u) rs (gfInv F a) := by
  by_cases h : a = 0
  · rw [gfInv, if_pos h]
    trivial
  · rw [gfInv, if_neg h]
    exact ⟨h, rfl⟩

theorem gfLog_ends (F : Field) (a : Byte) :
    Ends (fun l => a ≠ 0 ∧ gfLog F a = .ok l) rs (gfLog F a) := by
  by_cases h : a = 0
  · rw [gfLog, if_pos h]
    trivial
  · rw [gfLog, if_neg h]
    exact ⟨h, rfl⟩

end Checks

end Sys2Proof.Proofs
end

section
/-! SUPPORT. Degrees, leading coefficients and normal forms of what the polynomial functions build
(42_polynomial.md R160–R170, R176). -/

namespace Sys2Proof.Proofs

open Sys2Proof.Machine Sys2Proof.Safety

/-! ### Polynomial values of bounded degree -/

/-- A polynomial value: `Zero`, or a coefficient list whose first one is not 0 (42_polynomial.md R160). -/
abbrev IsValue (p : Poly) : Prop := p = zeroPoly ∨ p.headD 0 ≠ 0

/-- A polynomial value of degree at most `n`. -/
structure DegLe (n : Nat) (p : Poly) : Prop where
  deg_le : deg p ≤ n
  form : IsValue p

theorem DegLe.mono {m n : Nat} {p : Poly} (h : DegLe m p) (hmn : m ≤ n) : DegLe n p :=
  ⟨h.deg_le.trans hmn, h.form⟩

theorem normalized_iff_degLe (p : Poly) : Normalized p ↔ DegLe Config.maxDegree p := by
  have hdeg : deg p ≤ Config.maxDegree ↔ p.length ≤ Config.maxDegree + 1 := Nat.sub_le_iff_le_add
  exact ⟨fun h => ⟨hdeg.2 h.1, h.2⟩, fun h => ⟨hdeg.1 h.deg_le, h.form⟩⟩

/-- A polynomial value other than `Zero` starts with a coefficient that is not 0. -/
theorem exists_cons_of_isValue {p : Poly} (h : IsValue p) (hz : ¬ isZero p) :
    ∃ c cs, p = c :: cs ∧ c ≠ 0 := by
  have hne := h.resolve_left hz
  cases p with
  | nil => simp at hne
  | cons c cs => exact ⟨c, cs, rfl, by simpa using hne⟩

theorem degLe_zeroPoly (n : Nat) : DegLe n zeroPoly := ⟨Nat.zero_le _, .inl rfl⟩

theorem degLe_normalize {cs : List Byte} {n : Nat} (h : cs.length ≤ n + 1) : DegLe n (normalize cs) := by
  refine ⟨?_, normalize_form cs⟩
  have := normalize_length_le cs
  simp only [deg]
  omega

theorem degLe_onePoly (n : Nat) : DegLe n onePoly := ⟨Nat.zero_le _, .inr (by decide)⟩

theorem degLe_monomial (d : Nat) (c : Byte) : DegLe d (monomial d c) := by
  unfold monomial
  split
  · exact degLe_zeroPoly d
  · next h => exact ⟨by simp [deg], .inr h⟩

theorem degLe_polyAdd {n : Nat} {p q : Poly} (hp : deg p ≤ n) (hq : deg q ≤ n) :
    DegLe n (polyAdd p q) := by
  refine ⟨?_, normalize_form _⟩
  have := polyAdd_length_le p q
  simp only [deg] at *
  omega

theorem degLe_polyMul {m n : Nat} (F : Field) {p q : Poly} (hp : deg p ≤ m) (hq : deg q ≤ n) :
    DegLe (m + n) (polyMul F p q) := by
  unfold polyMul
  split
  · exact degLe_zeroPoly _
  · refine degLe_normalize ?_
    simp only [deg] at hp hq
    rw [convolve_length]
    omega

theorem degLe_polyScale {n : Nat} (F : Field) {p : Poly} (s : Byte) (hp : DegLe n p) :
    DegLe n (polyScale F p s) := by
  have hlen := hp.deg_le
  unfold polyScale
  split
  · exact degLe_zeroPoly n
  · split
    · exact hp
    · exact degLe_normalize (by simpa [deg] using hlen)

theorem degLe_polyShift {n : Nat} (F : Field) {p : Poly} {d : Nat} (c : Byte) (hp : deg p + d ≤ n) :
    DegLe n (polyShift F p d c) := by
  unfold polyShift
  split
  · exact degLe_zeroPoly n
  · refine degLe_normalize ?_
    simp only [deg] at hp
    simp only [List.length_append, List.length_map, zeros_length]
    omega

theorem degLe_generator (F : Field) (d : Nat) : DegLe d (generator F d) := by
  induction d with
  | zero => exact degLe_onePoly 0
  | succ d ih => exact degLe_polyMul F ih.deg_le (Nat.le_refl 1)

/-! ### Long division (42_polynomial.md R170) -/

/-- What every pass keeps holds of quotient and remainder. -/
theorem divLoop_induction {F : Field} {b : Poly} {invLead : Byte} {P : Poly → Poly → Prop}
    (step : ∀ q r, P q r → deg b ≤ deg r → ¬ isZero r →
      P (polyAdd q (monomial (deg r - deg b) (gfMul F (lead r) invLead)))
        (polyAdd r (polyShift F b (deg r - deg b) (gfMul F (lead r) invLead))))
    (fuel : Nat) {q r : Poly} (h : P q r) :
    P (divLoop F b invLead fuel q r).1 (divLoop F b invLead fuel q r).2 := by
  induction fuel generalizing q r with
  | zero => exact h
  | succ fuel ih =>
    simp only [divLoop]
    split
    · next hpass => exact ih (step q r h hpass.1 hpass.2)
    · exact h

/-- In any field, valid or not, quotient and remainder are polynomial values within the degrees of the
operands. -/
theorem polyDiv_ends {rs : List DFReason} (F : Field) (a b : Poly) :
    Ends (fun qr => IsValue a → DegLe (deg a - deg b) qr.1 ∧ DegLe (deg a) qr.2) rs
      (polyDiv F a b) := by
  unfold polyDiv
  split
  · trivial
  · refine (gfInv_ends F (lead b)).bind fun u _ ha => ?_
    refine divLoop_induction (P := fun q r => DegLe (deg a - deg b) q ∧ DegLe (deg a) r) ?_ _
      ⟨degLe_zeroPoly _, le_rfl, ha⟩
    intro q r ⟨hq, hr⟩ hpass _
    have hdeg := hr.deg_le
    have hmono := degLe_monomial (deg r - deg b) (gfMul F (lead r) u)
    exact ⟨degLe_polyAdd hq.deg_le (hmono.deg_le.trans (Nat.sub_le_sub_right hdeg _)),
      degLe_polyAdd hdeg (degLe_polyShift F _ (by omega)).deg_le⟩

end Sys2Proof.Proofs
end

section
/-! SUPPORT. Division in a valid field leaves a remainder below the divisor, and the generator polynomial
is monic of its degree (42_polynomial.md R170, R176). -/

namespace Sys2Proof.Proofs

open Sys2Proof.Machine Sys2Proof.Safety

section ValidField

variable {F : Field} (h : FieldValid F)
include h

/-- The product of any two powers adds their exponents. -/
theorem gfMul_alphaPow_any (i j : Nat) :
    gfMul F (alphaPow F.prim i) (alphaPow F.prim j) = alphaPow F.prim (i + j) := by
  rw [← alphaPow_mod h.primitive i, ← alphaPow_mod h.primitive j,
    gfMul_alphaPow h (Nat.mod_lt _ (by decide)) (Nat.mod_lt _ (by decide)),
    ← alphaPow_mod h.primitive (i % 255 + j % 255), ← alphaPow_mod h.primitive (i + j), ← Nat.add_mod]

/-- Dividing by a byte and multiplying by it again gives the byte back. -/
theorem gfMul_gfInv_cancel {a b u : Byte} (ha : a ≠ 0) (hb : b ≠ 0) (hu : gfInv F b = .ok u) :
    gfMul F b (gfMul F a u) = a := by
  obtain ⟨i, hi, rfl⟩ := exists_alphaPow h.primitive ha
  obtain ⟨j, hj, rfl⟩ := exists_alphaPow h.primitive hb
  obtain rfl : alphaPow F.prim (255 - j) = u := by
    rw [gfInv, if_neg hb, logEntry_alphaPow h hj, gfExp_eq_alphaPow h (by omega)] at hu
    exact Except.ok.inj hu
  rw [gfMul_alphaPow_any h, gfMul_alphaPow_any h, ← alphaPow_mod h.primitive]
  congr 1
  omega

theorem gfMul_one_one : gfMul F 1 1 = 1 := gfMul_alphaPow_any h 0 0

omit h in
/-- Equal leading coefficients of polynomials of one length cancel. -/
theorem polyAdd_cons_cons (c : Byte) {cs ds : List Byte} (hlen : cs.length = ds.length) :
    polyAdd (c :: cs) (c :: ds) = normalize (List.zipWith (· ^^^ ·) cs ds) := by
  have hpad (p : List Byte) : padLeft p.length p = p := by simp [padLeft, zeros]
  have hmax : max (c :: cs).length (c :: ds).length = (c :: cs).length := by simp [hlen]
  have hds : padLeft (c :: cs).length (c :: ds) = c :: ds := by simpa [hlen] using hpad (c :: ds)
  simp only [polyAdd, hmax, hpad, hds, List.zipWith_cons_cons, BitVec.xor_self]
  exact normalize_zero_cons _

/-- A pass of long division removes the leading term. -/
theorem divPass_length_lt {b r : Poly} {u : Byte} (hb : IsValue b) (hb0 : ¬ isZero b)
    (hr : IsValue r) (hr0 : ¬ isZero r) (hu : gfInv F (lead b) = .ok u)
    (hpass : deg b ≤ deg r) :
    isZero (polyAdd r (polyShift F b (deg r - deg b) (gfMul F (lead r) u))) ∨
      (polyAdd r (polyShift F b (deg r - deg b) (gfMul F (lead r) u))).length < r.length := by
  obtain ⟨x, xs, rfl, hx⟩ := exists_cons_of_isValue hr hr0
  obtain ⟨y, ys, rfl, hy⟩ := exists_cons_of_isValue hb hb0
  simp only [lead, List.headD_cons] at hu ⊢
  have hcancel : gfMul F y (gfMul F x u) = x := gfMul_gfInv_cancel h hx hy hu
  have hscale : gfMul F x u ≠ 0 := fun e => hx (by rw [← hcancel, e]; simp [gfMul])
  have hdeg : ys.length ≤ xs.length := by simpa [deg] using hpass
  set zs := ys.map (gfMul F · (gfMul F x u)) ++ zeros (deg (x :: xs) - deg (y :: ys)) with hzs
  have hshift : polyShift F (y :: ys) (deg (x :: xs) - deg (y :: ys)) (gfMul F x u) = x :: zs := by
    rw [polyShift, if_neg hscale, List.map_cons, List.cons_append, hcancel, normalize_cons_of_ne hx]
  have hlen : xs.length = zs.length := by simp [hzs, deg]; omega
  rw [hshift, polyAdd_cons_cons x hlen]
  cases xs with
  | nil => exact .inl rfl
  | cons x' xs' =>
    refine .inr ((normalize_length_le _).trans_lt ?_)
    simp only [List.length_zipWith, List.length_cons] at *
    omega

/-- Each pass shortens the remainder, so `len(r)` passes bring it below the divisor (log entry 6). -/
theorem divLoop_remainder {b : Poly} {u : Byte} (hb : IsValue b) (hb0 : ¬ isZero b)
    (hu : gfInv F (lead b) = .ok u) {fuel : Nat} {q r : Poly} (hr : IsValue r)
    (hfuel : isZero r ∨ r.length ≤ fuel) :
    isZero (divLoop F b u fuel q r).2 ∨ deg (divLoop F b u fuel q r).2 < deg b := by
  induction fuel generalizing q r with
  | zero =>
    refine .inl (hfuel.elim id fun hlen => ?_)
    rw [List.length_eq_zero_iff.1 (Nat.le_zero.1 hlen)] at hr
    exact absurd hr (by decide)
  | succ fuel ih =>
    simp only [divLoop]
    split
    · next hpass =>
      refine ih (normalize_form _) ?_
      refine (divPass_length_lt h hb hb0 hr hpass.2 hu hpass.1).imp_right fun hlt => ?_
      have := hfuel.resolve_left hpass.2
      omega
    · next hstop => exact (not_and_or.1 hstop).symm.imp not_not.1 Nat.lt_of_not_le

/-- The remainder lies below the divisor. -/
theorem polyDiv_remainder {rs : List DFReason} {a b : Poly} (ha : IsValue a)
    (hb : IsValue b) :
    Ends (fun qr => isZero qr.2 ∨ deg qr.2 < deg b) rs (polyDiv F a b) := by
  unfold polyDiv
  split
  · trivial
  · next hb0 =>
    exact (gfInv_ends F (lead b)).bind fun u hu => divLoop_remainder h hb hb0 hu.2 ha (.inr le_rfl)

/-- The generator polynomial is monic of degree `d` (42_polynomial.md R176). -/
theorem exists_generator_eq_cons (d : Nat) : ∃ gs, generator F d = 1 :: gs ∧ gs.length = d := by
  induction d with
  | zero => exact ⟨[], rfl, rfl⟩
  | succ d ih =>
    obtain ⟨gs, hg, hlen⟩ := ih
    have hnz : ¬ (isZero (1 :: gs) ∨ isZero [1, gfExp F (d + F.base)]) := by simp [zeroPoly]
    have hlength := convolve_length F (1 :: gs) [1, gfExp F (d + F.base)]
    rw [generator, hg, polyMul, if_neg hnz]
    simp only [convolve, List.map_cons, gfMul_one_one h, List.cons_append,
      List.zipWith_cons_cons] at hlength ⊢
    rw [normalize_cons_of_ne (by simp)]
    exact ⟨_, rfl, by simpa [hlen] using hlength⟩

theorem deg_generator (d : Nat) : deg (generator F d) = d := by
  obtain ⟨gs, hg, hlen⟩ := exists_generator_eq_cons h d
  simp [hg, deg, hlen]

end ValidField

end Sys2Proof.Proofs
end

section
/-! SUPPORT. What the decoder's stages and the coder answer: how long their byte sequences are, within
which degrees the key-equation solver stays, and with which decode failures each may end
(43_coder.md R212–R217, 44_decoder_stages.md R242–R249). -/

namespace Sys2Proof.Proofs

open Sys2Proof.Machine Sys2Proof.Safety

/-! ### The key equation (44_decoder_stages.md R245) -/

/-- The reasons of the key-equation solver. -/
def kesReasons : List DFReason := [.kesZero, .kesDeg, .kesT0]

/-- What holds before each pass of the Euclidean loop: remainders fall, and the degrees of a cofactor and
of the remainder before it never exceed `e` together. -/
structure EuclidInv (e : Nat) (rLast r tLast t : Poly) : Prop where
  rLast_le : DegLe e rLast
  r_form : IsValue r
  t_form : IsValue t
  falls : deg r < deg rLast
  t_rLast : deg t + deg rLast ≤ e
  tLast_r : deg tLast + deg r ≤ e

theorem EuclidInv.result {e : Nat} {rLast r tLast t : Poly} (h : EuclidInv e rLast r tLast t) :
    DegLe e t ∧ DegLe e r :=
  ⟨⟨(Nat.le_add_right _ _).trans h.t_rLast, h.t_form⟩, (Nat.le_add_left _ _).trans h.tLast_r, h.r_form⟩

theorem EuclidInv.start {e : Nat} {sp : Poly} (hform : IsValue sp) (hdeg : deg sp < e) :
    EuclidInv e (monomial e 1) sp zeroPoly onePoly := by
  have hmono : deg (monomial e 1) = e := by simp [monomial, deg]
  exact ⟨degLe_monomial e 1, hform, .inr (by decide), by rwa [hmono],
    by rw [hmono]; exact (Nat.zero_add e).le,
    by simpa [zeroPoly, deg] using hdeg.le⟩

/-- One pass: the quotient has degree `deg rLast - deg r` at most. -/
theorem EuclidInv.pass {e : Nat} {F : Field} {rLast r tLast t q r' : Poly} (h : EuclidInv e rLast r tLast t)
    (hq : DegLe (deg rLast - deg r) q) (hr' : DegLe (deg rLast) r') (hfalls : deg r' < deg r) :
    EuclidInv e r r' t (polyAdd (polyMul F q t) tLast) := by
  have hmul := degLe_polyMul F hq.deg_le (Nat.le_refl (deg t))
  have hadd : DegLe (e - deg r) (polyAdd (polyMul F q t) tLast) := by
    refine degLe_polyAdd (hmul.deg_le.trans ?_) ?_
    · have := h.t_rLast
      have := h.falls
      omega
    · exact Nat.le_sub_of_add_le h.tLast_r
  refine ⟨h.result.2, hr'.form, hadd.form, hfalls, ?_, ?_⟩
  · have := hadd.deg_le
    have := h.result.2.deg_le
    omega
  · have := h.t_rLast
    have := h.falls
    omega

theorem euclidLoop_ends (F : Field) (e fuel : Nat) (rLast r tLast t : Poly) :
    Ends (fun tr => EuclidInv e rLast r tLast t → DegLe e tr.1 ∧ DegLe e tr.2) kesReasons
      (euclidLoop F e fuel rLast r tLast t) := by
  induction fuel generalizing rLast r tLast t with
  | zero =>
    unfold euclidLoop
    split
    · exact (ends_failDF _).2 (by decide)
    · exact EuclidInv.result
  | succ fuel ih =>
    unfold euclidLoop
    split
    · split
      · exact (ends_failDF _).2 (by decide)
      · refine (polyDiv_ends F rLast r).bind fun ⟨q, r'⟩ hqr => ?_
        dsimp only
        split
        · exact (ends_failDF _).2 (by decide)
        · next hfalls =>
          refine (ih _ _ _ _).mono fun tr htr hinv => htr ?_
          obtain ⟨hq, hr'⟩ := hqr hinv.rLast_le.form
          exact hinv.pass hq hr' (Nat.lt_of_not_le hfalls)
    · exact EuclidInv.result

/-- `sigma` and `omega` have degree `E` at most. -/
theorem euclid_ends (F : Field) (e : Nat) (sp : Poly) :
    Ends (fun so => IsValue sp → deg sp < e → DegLe e so.1 ∧ DegLe e so.2) kesReasons
      (euclid F e sp) := by
  refine (euclidLoop_ends F e _ _ _ _ _).bind fun ⟨t, r⟩ htr => ?_
  dsimp only
  split
  · exact (ends_failDF _).2 (by decide)
  · refine (gfInv_ends F _).bind fun u _ hform hdeg => ?_
    obtain ⟨ht, hr⟩ := htr (.start hform hdeg)
    exact ⟨degLe_polyScale F u ht, degLe_polyScale F u hr⟩

/-! ### The other stages -/

/-- The Chien search answers as many locations as it looks for (R247). -/
theorem chienFrom_ends (F : Field) (sigma : Poly) (n : Nat) (xs locs : List Byte) (h : locs.length ≤ n) :
    Ends (fun l => l.length = n) [.chien] (chienFrom F sigma n xs locs) := by
  induction xs generalizing locs with
  | nil =>
    unfold chienFrom
    split
    · exact (ends_failDF _).2 (by decide)
    · exact (ends_ok _).2 (by omega)
  | cons x xs ih =>
    unfold chienFrom
    split
    · split
      · exact (gfInv_ends F x).bind fun loc _ => ih _ (by simpa using Nat.succ_le_of_lt ‹_›)
      · exact ih locs h
    · exact (ends_ok _).2 (by omega)

theorem chien_ends (F : Field) (sigma : Poly) :
    Ends (fun l => l.length = deg sigma) [.chien] (chien F sigma) :=
  chienFrom_ends F sigma _ _ [] (Nat.zero_le _)

/-- Forney's formula answers one magnitude for each location (R248). -/
theorem forneyFrom_ends {rs : List DFReason} (F : Field) (omega : Poly) (locs : List Byte) (i : Nat)
    (xs : List Byte) : Ends (fun ms => ms.length = xs.length) rs (forneyFrom F omega locs i xs) := by
  induction xs generalizing i with
  | nil => rfl
  | cons x xs ih =>
    have hat : Ends (fun _ => True) rs (forneyAt F omega locs i x) :=
      (gfInv_ends F x).bind fun _ _ => (gfInv_ends F _).bind fun _ _ => trivial
    exact hat.bind fun _ _ => (ih (i + 1)).bind fun _ hms => congrArg (· + 1) hms

theorem forney_ends {rs : List DFReason} (F : Field) (omega : Poly) (locs : List Byte) :
    Ends (fun ms => ms.length = locs.length) rs (forney F omega locs) :=
  forneyFrom_ends F omega locs 0 locs

theorem positions_ends (F : Field) (n : Nat) (xs : List Byte) :
    Ends (fun _ => True) [.corr] (positions F n xs) := by
  induction xs with
  | nil => trivial
  | cons x xs ih =>
    refine (gfLog_ends F x).bind fun l _ => ?_
    split
    · exact (ends_failDF _).2 (by decide)
    · exact ih.bind fun _ _ => trivial

@[simp] theorem applyCorrections_length (block : List Byte) (cs : List (Nat × Byte)) :
    (applyCorrections block cs).length = block.length := by
  induction cs generalizing block with
  | nil => rfl
  | cons c cs ih => simp [applyCorrections, ih]

/-- Correcting keeps the length of the block (R249). -/
theorem correct_ends (F : Field) (n : Nat) (block locs mags : List Byte) :
    Ends (fun b => b.length = block.length) [.corr] (correct F n block locs mags) :=
  (positions_ends F n locs).bind fun _ _ => applyCorrections_length _ _

/-! ### The encoder (43_coder.md R213) -/

/-- An encoded block has `N` bytes: in a valid field the remainder fits into the `E` parity bytes. -/
theorem encodeBlock_ends {rs : List DFReason} (F : Field) (C : Coder) (block : List Byte) :
    Ends (fun out => FieldValid F → 1 ≤ C.parityLen → block.length = C.dataLen →
      out.length = C.blockLen) rs (encodeBlock F C block) := by
  by_cases hF : FieldValid F
  · have hshift := degLe_polyShift F (p := normalize block) (d := C.parityLen) 1 le_rfl
    have hgen := degLe_generator F C.parityLen
    refine (polyDiv_remainder hF hshift.form hgen.form).bind fun ⟨_, r⟩ hr _ hE hK => ?_
    have hfit : r.length ≤ C.parityLen := by
      rw [deg_generator hF] at hr
      rcases hr with rfl | hr
      · exact hE
      · simp only [deg] at hr
        omega
    simp [padLeft_length hfit, hK, Coder.blockLen]
  · exact (polyDiv_ends F _ _).bind fun _ _ hF' => absurd hF' hF

theorem encodeBlocks_ends {rs : List DFReason} (F : Field) (C : Coder) (blocks : List (List Byte)) :
    Ends (fun out => FieldValid F → 1 ≤ C.parityLen → (∀ b ∈ blocks, b.length = C.dataLen) →
      out.length = blocks.length * C.blockLen) rs (encodeBlocks F C blocks) := by
  induction blocks with
  | nil => simp [encodeBlocks]
  | cons b bs ih =>
    refine (encodeBlock_ends F C b).bind fun out hout => ih.bind fun rest hrest hF hE hK => ?_
    rw [List.length_append, hout hF hE (hK b (by simp)), hrest hF hE fun c hc => hK c (by simp [hc]),
      List.length_cons]
    ring

/-! ### The decoder (43_coder.md R216, R217, R222) -/

/-- A decoded block has `K` bytes. -/
theorem decodeBlock_length {F : Field} {C : Coder} {block out : List Byte} (hlen : block.length = C.blockLen)
    (h : decodeBlock F C block = .ok out) : out.length = C.dataLen := by
  have hK : C.dataLen ≤ C.blockLen := Nat.le_add_right _ _
  simp only [decodeBlock] at h
  split at h
  · obtain rfl := Except.ok.inj h
    simp [hlen, hK]
  · obtain ⟨⟨sigma, omega⟩, -, h⟩ := bind_eq_ok.1 h
    obtain ⟨locs, -, h⟩ := bind_eq_ok.1 h
    obtain ⟨mags, -, h⟩ := bind_eq_ok.1 h
    obtain ⟨fixed, hfixed, h⟩ := bind_eq_ok.1 h
    obtain rfl := Except.ok.inj h
    have := (correct_ends F C.blockLen block locs mags).of_ok hfixed
    simp [this, hlen, hK]

theorem markerBlock_length {C : Coder} (h : 11 ≤ C.dataLen) : (markerBlock C).length = C.dataLen := by
  simp [markerBlock, markerBytes_length, Config.markerLen, h]

/-- The decoder's loop gives `K` bytes for every block, failed or not, and ends with no decode failure:
it counts them. -/
theorem decodeBlocks_ends {rs : List DFReason} (F : Field) (C : Coder) (blocks : List (List Byte))
    (acc : DecodeTally) :
    Ends (fun t => 11 ≤ C.dataLen → (∀ b ∈ blocks, b.length = C.blockLen) →
      t.out.length = acc.out.length + blocks.length * C.dataLen) rs (decodeBlocks F C blocks acc) := by
  induction blocks generalizing acc with
  | nil => simp [decodeBlocks]
  | cons b bs ih =>
    have hsum (n : Nat) : n + C.dataLen + bs.length * C.dataLen = n + (bs.length + 1) * C.dataLen := by ring
    unfold decodeBlocks
    split
    · next v hv =>
      refine (ih _).mono fun t ht hK hN => ?_
      rw [ht hK fun c hc => hN c (by simp [hc]), List.length_append,
        decodeBlock_length (hN b (by simp)) hv, List.length_cons, hsum]
    · refine (ih _).mono fun t ht hK hN => ?_
      rw [ht hK fun c hc => hN c (by simp [hc]), List.length_append, markerBlock_length hK,
        List.length_cons, hsum]
    · trivial

/-- Every block of a segmentation has the block length. -/
theorem length_of_mem_segments {data block : List Byte} {n : Nat} (h : block ∈ segments data n) :
    block.length = n := by
  obtain ⟨b, -, rfl⟩ := List.mem_map.1 h
  exact blockAt_length

@[simp] theorem loadBytes_length (s : State) (a n : Nat) : (s.loadBytes a n).length = n :=
  Memory.readBytes_length _ _ _

end Sys2Proof.Proofs
end

section
/-! SUPPORT. Everything a command can do, said once: what it writes when it completes, and with which decode
failures it may end. What every command keeps is proved from this, without unfolding a command again. -/

namespace Sys2Proof.Proofs

open Sys2Proof.Machine Sys2Proof.Safety

/-! ### The writes of a command that completes -/

/-- The bytes that command `i` stores fill its operand, which lies inside DMEM. -/
def FillsStoreRange (i : Instr) (s : State) (bytes : List Byte) : Prop :=
  bytes.length = (storeRange i s).2 ∧ InRange (storeRange i s).1 (storeRange i s).2

/-- `Completes s i u`: command `i` may complete at `s` with `u`, before the advance of `pc`. Register
values and stored bytes are left open, and bounded where `s` meets the invariants. -/
inductive Completes (s : State) : Instr → State → Prop
  | endRun : Completes s .endRun { s with status := { s.status with run := false, done := true } }
  | nop : Completes s .nop s
  | clrf : Completes s .clrf s.clearFlags
  | finit (imm : Half) (degree : (imm.extractLsb' 0 9).getLsbD 8 = true)
      (primitive : isPrimitive (imm.extractLsb' 0 9) = true) :
      Completes s (.finit imm) (s.installField (imm.extractLsb' 0 9) (imm.getLsbD 9))
  | cinit (fa fb : RIdx) (field : s.field.fieldOk = true) (long : 11 ≤ s.signed fa)
      (parity : 0 < s.signed fb) (short : s.signed fa + s.signed fb ≤ 255) :
      Completes s (.cinit fa fb) (s.installCoder (s.signed fa) (s.signed fb))
  | reg {i : Instr} {fd : RIdx} (dest : destR i = [fd]) (v : Half) : Completes s i (s.setReg fd v)
  | poly {i : Instr} {fd : PIdx} (dest : destP i = [fd]) {p : Poly} (value : Inv s → Normalized p) :
      Completes s i (s.setPoly fd p)
  | polys {i : Instr} {fd fc : PIdx} (dest : destP i = [fd, fc]) {p q : Poly}
      (values : Inv s → Normalized p ∧ Normalized q) : Completes s i ((s.setPoly fd p).setPoly fc q)
  | synd (fd : PIdx) (fa : RIdx) {p : Poly} (z : Bool) (value : Inv s → Normalized p) :
      Completes s (.synd fd fa) ((s.setPoly fd p).setZ z)
  | store {i : Instr} (isStore : stores i = true) {bytes : List Byte}
      (fills : Inv s → FillsStoreRange i s bytes) : Completes s i (s.storeBytes (storeRange i s).1 bytes)
  | storeReg {i : Instr} (isStore : stores i = true) {fd : RIdx} (dest : destR i = [fd]) {bytes : List Byte}
      (fills : Inv s → FillsStoreRange i s bytes) (v : Half) :
      Completes s i ((s.storeBytes (storeRange i s).1 bytes).setReg fd v)
  | dec (fd fa fb fc : RIdx) (t : DecodeTally)
      (fills : Inv s → FillsStoreRange (.dec fd fa fb fc) s t.out) :
      Completes s (.dec fd fa fb fc) (s.finishDecode fd (s.unsigned fc) t)

/-- The decode failures a command may end with (44_decoder_stages.md R242). `DEC` ends with none: it counts
the failures of its blocks and completes (43_coder.md R222). -/
def endReasons : Instr → List DFReason
  | .kes _ _ _ => kesReasons
  | .chien _ _ _ => [.chien]
  | .corr _ _ _ _ => [.corr]
  | _ => []

/-- `i` at `s` is a computation that completes with the writes of `i`, raises an error, or ends with a decode
failure of `i`. -/
def CommandEnds (i : Instr) (s : State) : Prop :=
  ∃ x, exec i s = command s x ∧ Ends (Completes s i) (endReasons i) x

theorem commandEnds_of_ok {i : Instr} {s u : State} (e : exec i s = command s (.ok u))
    (h : Completes s i u) : CommandEnds i s := ⟨_, e, h⟩

/-! ### Field and polynomial commands -/

theorem commandEnds_finit (imm : Half) (s : State) : CommandEnds (.finit imm) s := by
  refine ⟨_, rfl, ?_⟩
  split
  · trivial
  · next hdeg =>
    split
    · trivial
    · next hprim => exact .finit imm (by simpa using hdeg) (by simpa using hprim)

theorem commandEnds_pld (fd : PIdx) (fa fb : RIdx) (s : State) : CommandEnds (.pld fd fa fb) s :=
  ⟨_, rfl, (checkRange_ends _ _).bind fun _ _ => (checkCapacity_ends _).bind fun _ hcap =>
    .poly rfl fun _ => ⟨hcap, normalize_form _⟩⟩

theorem commandEnds_pst (fa : PIdx) (fb fc : RIdx) (s : State) : CommandEnds (.pst fa fb fc) s := by
  refine ⟨_, rfl, ?_⟩
  dsimp only
  split
  · trivial
  · next hlen =>
    exact (checkRange_ends _ _).bind fun _ hrange =>
      .store rfl fun _ => ⟨padLeft_length (Nat.le_of_not_lt hlen), hrange⟩

theorem commandEnds_padd (fd fa fb : PIdx) (s : State) : CommandEnds (.padd fd fa fb) s :=
  commandEnds_of_ok rfl <| .poly rfl fun hinv => (normalized_iff_degLe _).2 <|
    degLe_polyAdd ((normalized_iff_degLe _).1 (hinv.polys fa)).deg_le
      ((normalized_iff_degLe _).1 (hinv.polys fb)).deg_le

theorem commandEnds_pmul (fd fa fb : PIdx) (s : State) : CommandEnds (.pmul fd fa fb) s :=
  ⟨_, rfl, (requireField_ends s).bind fun _ _ => (checkCapacity_ends _).bind fun _ hcap =>
    .poly rfl fun _ => ⟨hcap, (degLe_polyMul s.field le_rfl le_rfl).form⟩⟩

theorem commandEnds_pscl (fd fa : PIdx) (fb : RIdx) (s : State) : CommandEnds (.pscl fd fa fb) s :=
  ⟨_, rfl, (requireField_ends s).bind fun _ _ => .poly rfl fun hinv => (normalized_iff_degLe _).2 <|
    degLe_polyScale _ _ ((normalized_iff_degLe _).1 (hinv.polys fa))⟩

theorem commandEnds_pmono (fd fa : PIdx) (fb fc : RIdx) (s : State) : CommandEnds (.pmono fd fa fb fc) s := by
  refine ⟨_, rfl, (requireField_ends s).bind fun _ _ => ?_⟩
  have hmono : Ends (IsValue) []
      (polyMono s.field (s.poly fa) (s.signed fb) (s.elem fc)) := by
    unfold polyMono
    split
    · trivial
    · exact (degLe_polyShift s.field _ le_rfl).form
  exact hmono.bind fun _ hform => (checkCapacity_ends _).bind fun _ hcap =>
    .poly rfl fun _ => ⟨hcap, hform⟩

theorem commandEnds_pdiv (fd fa fb fc : PIdx) (s : State) : CommandEnds (.pdiv fd fa fb fc) s := by
  refine ⟨_, rfl, (requireField_ends s).bind fun _ _ => (polyDiv_ends _ _ _).bind fun ⟨q, r⟩ hqr => ?_⟩
  refine .polys rfl fun hinv => ?_
  have ha := (normalized_iff_degLe _).1 (hinv.polys fa)
  obtain ⟨hq, hr⟩ := hqr ha.form
  exact ⟨(normalized_iff_degLe _).2 (hq.mono ((Nat.sub_le _ _).trans ha.deg_le)),
    (normalized_iff_degLe _).2 (hr.mono ha.deg_le)⟩

theorem commandEnds_pgen (fd : PIdx) (fa : RIdx) (s : State) : CommandEnds (.pgen fd fa) s := by
  refine ⟨_, rfl, (requireField_ends s).bind fun _ _ => ?_⟩
  dsimp only
  split
  · trivial
  · next hd =>
    exact .poly rfl fun _ => (normalized_iff_degLe _).2 <|
      (degLe_generator _ _).mono (Nat.le_of_not_lt hd)

/-! ### Coder commands -/

theorem commandEnds_cinit (fa fb : RIdx) (s : State) : CommandEnds (.cinit fa fb) s := by
  refine ⟨_, rfl, (requireField_ends s).bind fun _ hfield => ?_⟩
  dsimp only
  split
  · trivial
  · next hk =>
    split
    · trivial
    · next he =>
      split
      · trivial
      · next hn =>
        exact .cinit fa fb hfield (Int.not_lt.1 hk) (Int.not_le.1 he) (Int.not_lt.1 hn)

theorem commandEnds_enc (fd fa fb fc : RIdx) (s : State) : CommandEnds (.enc fd fa fb fc) s := by
  refine ⟨_, rfl, (requireCoder_ends s).bind fun _ hok => (checkRange_ends _ _).bind fun _ _ => ?_⟩
  split
  · trivial
  · refine (checkRange_ends _ _).bind fun _ hrange => (checkOverlap_ends _ _ _ _).bind fun _ _ =>
      (encodeBlocks_ends _ _ _).bind fun out hout =>
      .storeReg (i := .enc fd fa fb fc) rfl rfl (fun hinv => ⟨?_, hrange⟩) _
    obtain ⟨hfield, hcoder⟩ := hinv.coder hok
    rw [hout (hinv.field hfield) hcoder.2.1 fun _ => length_of_mem_segments, segments_length,
      loadBytes_length]
    rfl

theorem commandEnds_dec (fd fa fb fc : RIdx) (s : State) : CommandEnds (.dec fd fa fb fc) s := by
  refine ⟨_, rfl, (requireCoder_ends s).bind fun _ hok => (checkRange_ends _ _).bind fun _ _ =>
    (checkRange_ends _ _).bind fun _ hrange => (checkOverlap_ends _ _ _ _).bind fun _ _ =>
    (decodeBlocks_ends _ _ _ _).bind fun t ht => .dec fd fa fb fc t fun hinv => ⟨?_, hrange⟩⟩
  rw [ht (hinv.coder hok).2.1 fun _ => length_of_mem_segments, segments_length, loadBytes_length]
  exact Nat.zero_add _

/-! ### Decoder-stage commands -/

theorem commandEnds_synd (fd : PIdx) (fa : RIdx) (s : State) : CommandEnds (.synd fd fa) s := by
  refine ⟨_, rfl, (requireCoder_ends s).bind fun _ hok => (checkRange_ends _ _).bind fun _ _ =>
    .synd fd fa _ fun hinv => normalized_normalize ?_⟩
  obtain ⟨-, -, -, hN⟩ := hinv.coder hok
  simp only [syndromes, List.length_reverse, List.length_map, List.length_range, Coder.blockLen,
    Config.maxDegree] at *
  omega

theorem commandEnds_kes (fd fa fc : PIdx) (s : State) : CommandEnds (.kes fd fa fc) s := by
  refine ⟨_, rfl, (requireCoder_ends s).bind fun _ hok => ?_⟩
  dsimp only
  split
  · trivial
  · next hdeg =>
    refine (euclid_ends _ _ _).bind fun ⟨sigma, omega⟩ hso => .polys rfl fun hinv => ?_
    obtain ⟨-, -, -, hN⟩ := hinv.coder hok
    have hE : s.coder.parityLen ≤ Config.maxDegree := (Nat.le_add_left _ _).trans hN
    obtain ⟨hsigma, homega⟩ := hso (hinv.polys fa).2 (Nat.lt_of_not_le hdeg)
    exact ⟨(normalized_iff_degLe _).2 (hsigma.mono hE), (normalized_iff_degLe _).2 (homega.mono hE)⟩

theorem commandEnds_chien (fd : RIdx) (fa : PIdx) (fc : RIdx) (s : State) :
    CommandEnds (.chien fd fa fc) s :=
  ⟨_, rfl, (requireField_ends s).bind fun _ _ => (checkRange_ends _ _).bind fun _ hrange =>
    (chien_ends _ _).bind fun _ hlocs =>
      .storeReg (i := .chien fd fa fc) rfl rfl (fun _ => ⟨hlocs, hrange⟩) _⟩

theorem commandEnds_forney (fd : RIdx) (fa : PIdx) (fb fc : RIdx) (s : State) :
    CommandEnds (.forney fd fa fb fc) s :=
  ⟨_, rfl, (requireField_ends s).bind fun _ _ => (checkRange_ends _ _).bind fun _ _ =>
    (checkRange_ends _ _).bind fun _ hrange => (checkOverlap_ends _ _ _ _).bind fun _ _ =>
    (forney_ends _ _ _).bind fun _ hmags =>
      .store rfl fun _ => ⟨hmags.trans (loadBytes_length _ _ _), hrange⟩⟩

theorem commandEnds_corr (fd fa fb fc : RIdx) (s : State) : CommandEnds (.corr fd fa fb fc) s :=
  ⟨_, rfl, (requireCoder_ends s).bind fun _ _ => (checkRange_ends _ _).bind fun _ hrange =>
    (checkRange_ends _ _).bind fun _ _ => (checkRange_ends _ _).bind fun _ _ =>
    (checkOverlap_ends _ _ _ _).bind fun _ _ => (checkOverlap_ends _ _ _ _).bind fun _ _ =>
    (correct_ends _ _ _ _ _).bind fun _ hfixed =>
      .store rfl fun _ => ⟨hfixed.trans (loadBytes_length _ _ _), hrange⟩⟩

/-! ### Every command -/

theorem commandEnds (i : Instr) (s : State) : CommandEnds i s := by
  cases i with
  | endRun => exact commandEnds_of_ok rfl .endRun
  | nop => exact commandEnds_of_ok rfl .nop
  | li fd imm => exact commandEnds_of_ok rfl (.reg rfl imm)
  | clrf => exact commandEnds_of_ok rfl .clrf
  | finit imm => exact commandEnds_finit imm s
  | gfadd fd fa fb => exact commandEnds_of_ok rfl (.reg rfl _)
  | gfmul fd fa fb => exact ⟨_, rfl, (requireField_ends s).bind fun _ _ => .reg rfl _⟩
  | gfinv fd fa =>
    exact ⟨_, rfl, (requireField_ends s).bind fun _ _ => (gfInv_ends _ _).bind fun _ _ => .reg rfl _⟩
  | gfexp fd fa => exact ⟨_, rfl, (requireField_ends s).bind fun _ _ => .reg rfl _⟩
  | gflog fd fa =>
    exact ⟨_, rfl, (requireField_ends s).bind fun _ _ => (gfLog_ends _ _).bind fun _ _ => .reg rfl _⟩
  | pld fd fa fb => exact commandEnds_pld fd fa fb s
  | pst fa fb fc => exact commandEnds_pst fa fb fc s
  | pconst fd fa => exact commandEnds_of_ok rfl (.poly rfl fun _ => normalized_normalize (by simp))
  | padd fd fa fb => exact commandEnds_padd fd fa fb s
  | pmul fd fa fb => exact commandEnds_pmul fd fa fb s
  | pscl fd fa fb => exact commandEnds_pscl fd fa fb s
  | pmono fd fa fb fc => exact commandEnds_pmono fd fa fb fc s
  | pdiv fd fa fb fc => exact commandEnds_pdiv fd fa fb fc s
  | peval fd fa fb => exact ⟨_, rfl, (requireField_ends s).bind fun _ _ => .reg rfl _⟩
  | pdeg fd fa => exact commandEnds_of_ok rfl (.reg rfl _)
  | pcoef fd fa fb => exact commandEnds_of_ok rfl (.reg rfl _)
  | pgen fd fa => exact commandEnds_pgen fd fa s
  | cinit fa fb => exact commandEnds_cinit fa fb s
  | enc fd fa fb fc => exact commandEnds_enc fd fa fb fc s
  | dec fd fa fb fc => exact commandEnds_dec fd fa fb fc s
  | synd fd fa => exact commandEnds_synd fd fa s
  | kes fd fa fc => exact commandEnds_kes fd fa fc s
  | chien fd fa fc => exact commandEnds_chien fd fa fc s
  | forney fd fa fb fc => exact commandEnds_forney fd fa fb fc s
  | corr fd fa fb fc => exact commandEnds_corr fd fa fb fc s

/-- A command completes with its own writes, raises an error, or ends with a decode failure of its own. -/
theorem exec_cases {i : Instr} {s t : State} (h : exec i s = .next t) :
    (∃ u, Completes s i u ∧ t = u.advance) ∨ (∃ c, t = s.errorEntry c) ∨
      ∃ r ∈ endReasons i, t = (s.decodeFail r).advance := by
  obtain ⟨x, e, hx⟩ := commandEnds i s
  obtain ⟨u, hu, rfl⟩ | ⟨c, -, rfl⟩ | ⟨r, hr, rfl⟩ := command_cases (e.symm.trans h)
  · exact .inl ⟨u, hx.of_ok hu, rfl⟩
  · exact .inr (.inl ⟨c, rfl⟩)
  · exact .inr (.inr ⟨r, hx.reason_mem hr, rfl⟩)

/-! ### The end of `DEC` -/

/-- `DEC` stores its output and its failure count, and reports a failure if there was one. -/
theorem finishDecode_cases (s : State) (fd : RIdx) (dst : Nat) (t : DecodeTally) :
    s.finishDecode fd dst t = (s.storeBytes dst t.out).setReg fd (BitVec.ofNat 16 t.fails) ∨
      ∃ r, s.finishDecode fd dst t =
        ((s.storeBytes dst t.out).setReg fd (BitVec.ofNat 16 t.fails)).decodeFail r := by
  cases h : t.last with
  | none => exact .inl (by simp [State.finishDecode, h])
  | some r => exact .inr ⟨r, by simp [State.finishDecode, h]⟩

end Sys2Proof.Proofs
end

section
/-! SUPPORT. Every step keeps the invariants: commands by what they write, host accesses by their cases,
the reset input by the reset state. -/

namespace Sys2Proof.Proofs

open Sys2Proof.Machine Sys2Proof.Safety

/-! ### The kinds of step -/

/-- The machine after its next event has been taken from the queue. -/
def dequeue (s : State) : State := { s with inputs := s.inputs.tail }

@[simp] theorem dequeue_field (s : State) : (dequeue s).field = s.field := rfl

@[simp] theorem dequeue_coder (s : State) : (dequeue s).coder = s.coder := rfl

theorem dequeue_inv {s : State} (h : Inv s) : Inv (dequeue s) := h.withInputs _

theorem dequeue_of_nil {s : State} (h : s.inputs = []) : dequeue s = s := by
  rw [dequeue, h, List.tail_nil, ← h]

theorem dequeue_of_cons {s : State} {e : Event} {rest : List Event} (h : s.inputs = e :: rest) :
    dequeue s = { s with inputs := rest } := by
  rw [dequeue, h, List.tail_cons]

/-- The sequencer's turn runs the command at `pc`, raises `ILLEGAL`, or does nothing. -/
theorem sequencerStep_cases {s t : State} (h : sequencerStep s = .next t) :
    (∃ i, s.status.run = true ∧ decode (fetchWord s) = .ok i ∧ exec i s = .next t) ∨
      t = s.errorEntry .illegal ∨ t = s := by
  unfold sequencerStep at h
  split at h
  · next hrun =>
    unfold runCommand at h
    split at h
    · next i hi => exact .inl ⟨i, hrun, hi, h⟩
    · exact .inr (.inl (Host.Outcome.next.inj h).symm)
  · exact .inr (.inr (Host.Outcome.next.inj h).symm)

/-- A step is the sequencer's turn, a host access or a reset. -/
theorem step_cases {s t : State} (h : step s = .next t) :
    sequencerStep (dequeue s) = .next t ∨ (∃ a, t = hostAccess (dequeue s) a) ∨
      (s.inputs.head? = some .reset ∧ t = resetMachine (dequeue s)) := by
  unfold step nextEvent at h
  split at h
  · next hin => exact .inl (by rwa [dequeue_of_nil hin])
  · next rest hin => exact .inl (by rwa [dequeue_of_cons hin])
  · next a rest hin =>
    exact .inr (.inl ⟨a, by rw [dequeue_of_cons hin]; exact (Host.Outcome.next.inj h).symm⟩)
  · next rest hin =>
    exact .inr (.inr ⟨by rw [hin]; rfl, by rw [dequeue_of_cons hin]; exact (Host.Outcome.next.inj h).symm⟩)

/-! ### Commands -/

/-- A successful `FINIT` constructs a valid field and leaves no coder (41_field.md R145). -/
theorem installField_inv {s : State} (h : Inv s) {prim : BitVec 9} (gb : Bool)
    (degree : prim.getLsbD 8 = true) (primitive : isPrimitive prim = true) :
    Inv (s.installField prim gb) :=
  { h with field := fun _ => ⟨degree, primitive, rfl, rfl⟩, coder := nofun }

/-- `CINIT` installs its operands (43_coder.md R211): they fit into the bytes of `CODERCFG`. -/
theorem installCoder_lens (s : State) {k e : Int} (hk : 11 ≤ k) (he : 0 < e) (hn : k + e ≤ 255) :
    ((s.installCoder k e).coder.dataLen : Int) = k ∧
      ((s.installCoder k e).coder.parityLen : Int) = e := by
  simp only [State.installCoder, Coder.dataLen, Coder.parityLen, BitVec.toNat_ofInt]
  omega

/-- The bounds that `CINIT` checked hold of what it installed. -/
theorem installCoder_valid (s : State) {k e : Int} (hk : 11 ≤ k) (he : 0 < e) (hn : k + e ≤ 255) :
    CoderValid (s.installCoder k e).coder := by
  obtain ⟨hK, hE⟩ := installCoder_lens s hk he hn
  simp only [CoderValid, Coder.blockLen]
  omega

theorem installCoder_inv {s : State} (h : Inv s) (field : s.field.fieldOk = true) {k e : Int}
    (hk : 11 ≤ k) (he : 0 < e) (hn : k + e ≤ 255) : Inv (s.installCoder k e) :=
  { h with coder := fun _ => ⟨field, installCoder_valid s hk he hn⟩ }

theorem storeBytes_inv {s : State} (h : Inv s) {i : Instr} {bytes : List Byte}
    (fills : FillsStoreRange i s bytes) : Inv (s.storeBytes (storeRange i s).1 bytes) := by
  obtain ⟨hlen, hrange⟩ := fills
  refine h.storeBytes _ _ (hrange.imp (fun hzero => ?_) fun hfit => by rwa [hlen])
  exact List.length_eq_zero_iff.1 (hlen.trans hzero)

/-- What a command writes when it completes keeps the invariants. -/
theorem Completes.inv {s u : State} {i : Instr} (hu : Completes s i u) (h : Inv s) : Inv u := by
  cases hu with
  | endRun => exact { h with status := nofun }
  | nop => exact h
  | clrf => exact h.clearFlags
  | finit imm degree primitive => exact installField_inv h _ degree primitive
  | cinit fa fb field long parity short => exact installCoder_inv h field long parity short
  | reg _ v => exact h.setReg _ v
  | poly _ value => exact h.setPoly _ (value h)
  | polys _ values => exact (h.setPoly _ (values h).1).setPoly _ (values h).2
  | synd fd fa z value => exact (h.setPoly fd (value h)).setZ z
  | store _ fills => exact storeBytes_inv h (fills h)
  | storeReg _ _ fills v => exact (storeBytes_inv h (fills h)).setReg _ v
  | dec fd fa fb fc t fills =>
    have hstore := (storeBytes_inv h (fills h)).setReg fd
    obtain e | ⟨r, e⟩ := finishDecode_cases s fd (s.unsigned fc) t
    · exact e ▸ hstore _
    · exact e ▸ (hstore _).decodeFail r

/-- A command keeps the invariants, however it ends. -/
theorem exec_inv {i : Instr} {s t : State} (h : Inv s) (ht : exec i s = .next t) : Inv t := by
  obtain ⟨u, hu, rfl⟩ | ⟨c, rfl⟩ | ⟨r, -, rfl⟩ := exec_cases ht
  · exact (hu.inv h).advance
  · exact h.errorEntry c
  · exact (h.decodeFail r).advance

theorem sequencerStep_inv {s t : State} (h : Inv s) (ht : sequencerStep s = .next t) : Inv t := by
  obtain ⟨i, -, -, hexec⟩ | rfl | rfl := sequencerStep_cases ht
  · exact exec_inv h hexec
  · exact h.errorEntry .illegal
  · exact h

/-! ### The host and the reset input -/

theorem hostRead_inv {s : State} (h : Inv s) (addr : BitVec 17) (width : AccessWidth) :
    Inv (hostRead s addr width) := by
  obtain ⟨v, e⟩ | ⟨-, n, e⟩ := hostRead_cases s addr width
  · exact e ▸ { h with }
  · exact e ▸ { h with }

/-- An accepted `GO` clears `DONE` and needs `ERR = 0` (40_control.md R110). -/
theorem writeCtrl_inv {s : State} (h : Inv s) (v : Word) : Inv (writeCtrl s v) := by
  unfold writeCtrl
  split
  · next hgo => exact { h with status := fun _ => ⟨rfl, hgo.2.2⟩ }
  · exact { h with }

/-- `ERR` and `CAUSE` are cleared together (10_state.md R24). -/
theorem writeStatus_inv {s : State} (h : Inv s) (v : Word) : Inv (writeStatus s v) := by
  refine { h with status := fun hrun => ?_, cause := fun herr => ?_ }
  · obtain ⟨hdone, herr⟩ := h.status hrun
    simp [writeStatus, hdone, herr]
  · cases hv : v.getLsbD 2 with
    | true => simp [writeStatus, hv]
    | false =>
      simp only [writeStatus, hv, Bool.not_false, Bool.and_true, Bool.false_eq_true, if_false] at herr ⊢
      exact h.cause herr

/-- `PC` takes bits 15:2 (10_state.md R26). -/
theorem writePc_inv {s : State} (h : Inv s) (v : Word) :
    Inv { s with pc := v.extractLsb' 2 14 ++ (0 : BitVec 2) } := by
  refine { h with pc := ?_ }
  simp only [BitVec.ofNat_eq_ofNat, BitVec.toNat_append, BitVec.toNat_ofNat, Nat.zero_mod,
    Nat.or_zero, Nat.shiftLeft_eq]
  exact Nat.mul_mod_left _ 4

theorem hostWrite_inv {s : State} (h : Inv s) (addr : BitVec 17) (width : AccessWidth) (v : Word) :
    Inv (hostWrite s addr width v) := by
  obtain e | ⟨-, e⟩ | e | e | ⟨-, ⟨a, bytes, ha, e⟩ | e | e | ⟨i, e⟩⟩ := hostWrite_cases s addr width v <;>
    rw [e]
  · exact h
  · exact { h with }
  · exact writeCtrl_inv h v
  · exact writeStatus_inv h v
  · exact h.storeBytes a bytes (.inr ha)
  · exact writePc_inv h v
  · exact { h with }
  · exact h.setReg i _

theorem hostAccess_inv {s : State} (h : Inv s) (a : HostAccess) : Inv (hostAccess s a) := by
  cases a with
  | read addr width => exact hostRead_inv h addr width
  | write addr width v => exact hostWrite_inv h addr width v

/-- The reset state meets the invariants (70_reset_and_hazards.md R320). -/
theorem resetWith_inv {dmem0 : Memory} (h : dmem0.wf) : Inv (State.resetWith dmem0) where
  mem := h
  dmem0 := h
  pc := rfl
  polys i := by
    have : (State.resetWith dmem0).poly i = zeroPoly := by simp [State.poly, State.resetWith, zeroPoly]
    rw [this]
    decide
  status := nofun
  cause _ := rfl
  field := nofun
  coder := nofun

/-- After a reset DMEM is `DMEM0` or what it was, both in canonical form (R321, R322). -/
theorem resetMachine_inv {s : State} (h : Inv s) : Inv (resetMachine s) := by
  refine { resetWith_inv h.dmem0 with mem := ?_ }
  simp only [resetMachine]
  split
  · exact h.mem
  · exact h.dmem0

/-- Settles O15: every kind of step keeps every clause of the invariant. -/
theorem everyStepKeepsTheInvariant : Obligations.EveryStepKeepsTheInvariant := by
  intro s t hs ht
  have h := dequeue_inv hs
  obtain hseq | ⟨a, rfl⟩ | ⟨-, rfl⟩ := step_cases ht
  · exact sequencerStep_inv h hseq
  · exact hostAccess_inv h a
  · exact resetMachine_inv h

end Sys2Proof.Proofs
end

section
/-! SUPPORT. Which commands write the field, the coder and the flags. -/

namespace Sys2Proof.Proofs

open Sys2Proof.Machine Sys2Proof.Safety

/-! ### The field and the coder -/

@[simp] theorem finishDecode_field (s : State) (fd : RIdx) (dst : Nat) (t : DecodeTally) :
    (s.finishDecode fd dst t).field = s.field := by
  obtain e | ⟨r, e⟩ := finishDecode_cases s fd dst t <;> simp [e]

@[simp] theorem finishDecode_coder (s : State) (fd : RIdx) (dst : Nat) (t : DecodeTally) :
    (s.finishDecode fd dst t).coder = s.coder := by
  obtain e | ⟨r, e⟩ := finishDecode_cases s fd dst t <;> simp [e]

/-- Only `FINIT` completes with another field. -/
theorem Completes.field_cases {s u : State} {i : Instr} (h : Completes s i u) :
    u.field = s.field ∨ ∃ imm : Half, i = .finit imm ∧
      (imm.extractLsb' 0 9).getLsbD 8 = true ∧ isPrimitive (imm.extractLsb' 0 9) = true ∧
      u = s.installField (imm.extractLsb' 0 9) (imm.getLsbD 9) := by
  cases h with
  | finit imm degree primitive => exact .inr ⟨imm, rfl, degree, primitive, rfl⟩
  | _ => exact .inl (by simp)

/-- Only `FINIT` and `CINIT` complete with another coder. -/
theorem Completes.coder_cases {s u : State} {i : Instr} (h : Completes s i u) :
    u.coder = s.coder ∨
      (∃ imm, i = .finit imm ∧ u.coder = { k := 0, e := 0, coderOk := false }) ∨
      ∃ fa fb, i = .cinit fa fb ∧ 11 ≤ s.signed fa ∧ 0 < s.signed fb ∧
        s.signed fa + s.signed fb ≤ 255 ∧ u = s.installCoder (s.signed fa) (s.signed fb) := by
  cases h with
  | finit imm _ _ => exact .inr (.inl ⟨imm, rfl, rfl⟩)
  | cinit fa fb _ long parity short => exact .inr (.inr ⟨fa, fb, rfl, long, parity, short, rfl⟩)
  | _ => exact .inl (by simp)

/-- A command that changes the field or the coder has completed. -/
theorem exec_completes_of_ne {i : Instr} {s t : State} (h : exec i s = .next t)
    (hne : t.field ≠ s.field ∨ t.coder ≠ s.coder) : ∃ u, Completes s i u ∧ t = u.advance := by
  obtain hu | ⟨c, rfl⟩ | ⟨r, -, rfl⟩ := exec_cases h
  · exact hu
  · simp at hne
  · simp at hne

/-- The host's accesses write neither the field nor the coder. -/
theorem hostAccess_field_coder (s : State) (a : HostAccess) :
    (hostAccess s a).field = s.field ∧ (hostAccess s a).coder = s.coder := by
  cases a with
  | read addr width =>
    obtain ⟨v, e⟩ | ⟨-, n, e⟩ := hostRead_cases s addr width <;> simp [hostAccess, e]
  | write addr width v =>
    have hctrl : (writeCtrl s v).field = s.field ∧ (writeCtrl s v).coder = s.coder := by
      unfold writeCtrl
      split <;> simp
    obtain e | ⟨-, e⟩ | e | e | ⟨-, ⟨a, bytes, -, e⟩ | e | e | ⟨i, e⟩⟩ :=
        hostWrite_cases s addr width v <;>
      simp [hostAccess, e, hctrl, dropWrite, writeStatus]

/-- A step other than a reset that changes the field or the coder completes a command. -/
theorem step_completes_of_ne {s t : State} (h : step s = .next t) (hreset : s.inputs.head? ≠ some .reset)
    (hne : t.field ≠ s.field ∨ t.coder ≠ s.coder) :
    s.status.run = true ∧ ∃ i u, decode (fetchWord s) = .ok i ∧ Completes (dequeue s) i u ∧
      t = u.advance := by
  obtain hseq | ⟨a, rfl⟩ | ⟨hhead, -⟩ := step_cases h
  · obtain ⟨i, hrun, hi, hexec⟩ | rfl | rfl := sequencerStep_cases hseq
    · obtain ⟨u, hu, rfl⟩ := exec_completes_of_ne hexec hne
      exact ⟨hrun, i, u, hi, hu, rfl⟩
    · simp at hne
    · simp at hne
  · simp [hostAccess_field_coder] at hne
  · exact absurd hhead hreset

/-- Settles O24: of all commands only `FINIT` completes with another field, and that field is valid. -/
theorem onlyFinitWritesTheField : Obligations.OnlyFinitWritesTheField := by
  intro s t h hreset hne
  obtain ⟨hrun, i, u, hi, hu, rfl⟩ := step_completes_of_ne h hreset (.inl hne)
  obtain e | ⟨imm, rfl, degree, primitive, rfl⟩ := hu.field_cases
  · exact absurd e hne
  · exact ⟨hrun, imm, hi, rfl, rfl, ⟨degree, primitive, rfl, rfl⟩, rfl⟩

/-- Settles O25: of all commands only `FINIT` and `CINIT` complete with another coder. -/
theorem onlyCinitAndFinitWriteTheCoder : Obligations.OnlyCinitAndFinitWriteTheCoder := by
  intro s t h hreset hne
  obtain ⟨hrun, i, u, hi, hu, rfl⟩ := step_completes_of_ne h hreset (.inr hne)
  refine ⟨hrun, ?_⟩
  obtain e | ⟨imm, rfl, e⟩ | ⟨fa, fb, rfl, hk, he, hn, rfl⟩ := hu.coder_cases
  · exact absurd e hne
  · exact .inl ⟨imm, hi, e⟩
  · obtain ⟨hK, hE⟩ := installCoder_lens (dequeue s) hk he hn
    exact .inr ⟨fa, fb, hi, hK, hE, installCoder_valid (dequeue s) hk he hn, rfl⟩

/-! ### The flags -/

/-- What a command may do to the flags when it completes. -/
theorem Completes.flags_cases {s u : State} {i : Instr} (h : Completes s i u) :
    u.flags = s.flags ∨ (i = .clrf ∧ u.flags = { z := false, df := false, dfr := 0 }) ∨
      (∃ fd fa z, i = .synd fd fa ∧ u.flags = { s.flags with z := z }) ∨
      ∃ fd fa fb fc r, i = .dec fd fa fb fc ∧ u.status = s.status ∧
        u.flags = { s.flags with df := true, dfr := DFReason.code r } := by
  cases h with
  | clrf => exact .inr (.inl ⟨rfl, rfl⟩)
  | synd fd fa z _ => exact .inr (.inr (.inl ⟨fd, fa, z, rfl, rfl⟩))
  | dec fd fa fb fc t _ =>
    obtain e | ⟨r, e⟩ := finishDecode_cases s fd (s.unsigned fc) t
    · exact .inl (by simp [e])
    · exact .inr (.inr (.inr ⟨fd, fa, fb, fc, r, rfl, by simp [e], by simp [e]⟩))
  | _ => exact .inl (by simp)

/-- The decode failures a command may report in `FLAGS` (10_state.md R25). -/
def reportReasons (i : Instr) : List DFReason :=
  match i with
  | .dec _ _ _ _ => [.kesZero, .kesDeg, .kesT0, .chien, .corr]
  | i => endReasons i

theorem mem_reportReasons_dec (fd fa fb fc : RIdx) (r : DFReason) : r ∈ reportReasons (.dec fd fa fb fc) := by
  cases r <;> simp [reportReasons]

theorem endReasons_subset_reportReasons (i : Instr) : endReasons i ⊆ reportReasons i := by
  cases i with
  | dec fd fa fb fc => exact List.nil_subset _
  | _ => exact List.Subset.refl _

/-- `CLRF` clears the flags, `SYND` writes `Z`, a decode failure sets `DF` and `DFR`, and nothing else
writes them. -/
theorem exec_flags_cases {i : Instr} {s t : State} (h : exec i s = .next t) :
    t.flags = s.flags ∨ (i = .clrf ∧ t.flags = { z := false, df := false, dfr := 0 }) ∨
      (∃ fd fa z, i = .synd fd fa ∧ t.flags = { s.flags with z := z }) ∨
      ∃ r ∈ reportReasons i, t.status = s.status ∧
        t.flags = { s.flags with df := true, dfr := DFReason.code r } := by
  obtain ⟨u, hu, rfl⟩ | ⟨c, rfl⟩ | ⟨r, hr, rfl⟩ := exec_cases h
  · obtain e | e | e | ⟨fd, fa, fb, fc, r, rfl, hstatus, e⟩ := hu.flags_cases
    · exact .inl e
    · exact .inr (.inl e)
    · exact .inr (.inr (.inl e))
    · exact .inr (.inr (.inr ⟨r, mem_reportReasons_dec fd fa fb fc r, hstatus, e⟩))
  · exact .inl rfl
  · exact .inr (.inr (.inr ⟨r, endReasons_subset_reportReasons i hr, rfl, rfl⟩))

theorem mayFailDecoding_of_mem {i : Instr} {r : DFReason} (h : r ∈ reportReasons i) :
    mayFailDecoding i = true := by
  cases i with
  | dec fd fa fb fc => rfl
  | kes fd fa fc => rfl
  | chien fd fa fc => rfl
  | corr fd fa fb fc => rfl
  | _ => exact absurd h List.not_mem_nil

/-- The numbers of R242, and which of them each command writes. -/
theorem reason_code_bounds {i : Instr} {r : DFReason} (h : r ∈ reportReasons i) :
    1 ≤ r.code.toNat ∧ r.code.toNat ≤ 5 ∧
      (∀ fd fa fc, i = .kes fd fa fc → r.code.toNat ≤ 3) ∧
      (∀ fd fa fc, i = .chien fd fa fc → r.code = 4) ∧
      (∀ fd fa fb fc, i = .corr fd fa fb fc → r.code = 5) := by
  refine ⟨by cases r <;> decide, by cases r <;> decide, ?_, ?_, ?_⟩
  · rintro fd fa fc rfl
    have hcodes : ∀ r ∈ kesReasons, r.code.toNat ≤ 3 := by decide
    exact hcodes r h
  · rintro fd fa fc rfl
    rw [List.mem_singleton.1 h]
    rfl
  · rintro fd fa fb fc rfl
    rw [List.mem_singleton.1 h]
    rfl

/-- Settles O26: `CLRF`, `SYND` and the decode failures are all that writes the flags. -/
theorem flagsAreWrittenOnlyByTheirCommands : Obligations.FlagsAreWrittenOnlyByTheirCommands := by
  refine ⟨fun i s t h => ?_, ?_⟩
  · obtain e | ⟨rfl, e⟩ | ⟨fd, fa, z, rfl, e⟩ | ⟨r, hr, hstatus, e⟩ := exec_flags_cases h
    · simp +contextual [e]
    · exact ⟨fun _ => .inl rfl, fun _ => .inl ⟨rfl, e⟩, fun _ _ => rfl⟩
    · simp +contextual [e]
    · obtain ⟨hpos, hle, hkes, hchien, hcorr⟩ := reason_code_bounds hr
      simp only [e]
      exact ⟨fun hz => absurd rfl hz,
        fun _ => .inr ⟨mayFailDecoding_of_mem hr, trivial, hstatus, hpos, hle, hkes, hchien, hcorr⟩, nofun⟩
  · simp [DFReason.code, State.decodeFail]

end Sys2Proof.Proofs
end

section
/-! SUPPORT. While no field is constructed the tables change nothing: a command that would read them stops
at its check, and every other command computes the same beside other tables (10_state.md R33,
60_exceptions.md R287). -/

namespace Sys2Proof.Proofs

open Sys2Proof.Machine Sys2Proof.Safety

/-! ### Commands that need a field or a coder -/

/-- What needs the field checks for it first. -/
theorem exec_eq_of_requiresField {i : Instr} (hi : requiresField i = true) (s : State) :
    ∃ f, exec i s = command s (requireField s >>= f) := by
  cases i <;> cases hi <;> exact ⟨_, rfl⟩

/-- What needs the coder checks for it first. -/
theorem exec_eq_of_requiresCoder {i : Instr} (hi : requiresCoder i = true) (s : State) :
    ∃ f, exec i s = command s (requireCoder s >>= f) := by
  cases i <;> cases hi <;> exact ⟨_, rfl⟩

/-- Without it such a command raises `NOT_CONFIGURED` (60_exceptions.md R287). -/
theorem exec_of_unconfigured {i : Instr} {s : State}
    (h : (requiresField i = true ∧ s.field.fieldOk = false) ∨
      (requiresCoder i = true ∧ s.coder.coderOk = false)) :
    exec i s = .next (s.errorEntry .notConfigured) := by
  obtain ⟨hi, hok⟩ | ⟨hi, hok⟩ := h
  · obtain ⟨f, e⟩ := exec_eq_of_requiresField hi s
    rw [e, requireField_of_not hok]
    rfl
  · obtain ⟨f, e⟩ := exec_eq_of_requiresCoder hi s
    rw [e, requireCoder_of_not hok]
    rfl

/-- `FINIT` decides by its immediate alone whether it raises an error or installs a field
(41_field.md R145). -/
theorem exec_finit_cases (imm : Half) :
    (∃ c, ∀ s, exec (.finit imm) s = .next (s.errorEntry c)) ∨
      ∀ s, exec (.finit imm) s =
        .next (s.installField (imm.extractLsb' 0 9) (imm.getLsbD 9)).advance := by
  by_cases hdeg : (imm.extractLsb' 0 9).getLsbD 8 = false
  · exact .inl ⟨_, fun s => congrArg (command s) (if_pos hdeg)⟩
  · by_cases hprim : isPrimitive (imm.extractLsb' 0 9) = false
    · exact .inl ⟨_, fun s => congrArg (command s) ((if_neg hdeg).trans (if_pos hprim))⟩
    · exact .inr fun s => congrArg (command s) ((if_neg hdeg).trans (if_neg hprim))

/-! ### Other contents in the tables -/

/-- The machine with other contents in `EXP` and `LOG`. -/
def withTables (s : State) (e l : Vector Byte 256) : State :=
  { s with field := { s.field with exp := e, log := l } }

/-- A computation whose value only carries the tables along ends alike beside other tables. -/
theorem command_withTables {s t : State} {x : Except Stop State} (e l : Vector Byte 256)
    (h : command s x = .next t) :
    command (withTables s e l) ((withTables · e l) <$> x) = .next (withTables t e l) := by
  obtain ⟨u, rfl, rfl⟩ | ⟨c, rfl, rfl⟩ | ⟨r, rfl, rfl⟩ := command_cases h <;> rfl

/-- A command that needs neither field nor coder and constructs no field computes the same beside other
tables. -/
theorem exec_withTables {i : Instr} {s t : State} (e l : Vector Byte 256)
    (hi : (requiresField i || requiresCoder i) = false) (hfinit : ∀ imm, i ≠ .finit imm)
    (h : exec i s = .next t) : exec i (withTables s e l) = .next (withTables t e l) := by
  cases i with
  | finit imm => exact absurd rfl (hfinit imm)
  | pld fd fa fb =>
    have hmap := command_withTables e l h
    simp only [map_bind, map_pure] at hmap
    exact hmap
  | pst fa fb fc =>
    have hmap := command_withTables e l h
    simp only [apply_ite ((withTables · e l) <$> ·), map_bind, map_pure] at hmap
    exact hmap
  | endRun | nop | clrf | li _ _ | gfadd _ _ _ | pconst _ _ | padd _ _ _ | pdeg _ _ | pcoef _ _ _ =>
    change command s (.ok _) = _ at h
    exact command_withTables e l h
  | _ => cases hi

theorem exec_field_of_ne_finit {i : Instr} {s t : State} (hfinit : ∀ imm, i ≠ .finit imm)
    (h : exec i s = .next t) : t.field = s.field := by
  by_contra hne
  obtain ⟨u, hu, rfl⟩ := exec_completes_of_ne h (.inl hne)
  obtain e | ⟨imm, e, -⟩ := hu.field_cases
  · exact hne e
  · exact hfinit imm e

/-- Settles O11: a command stops before it reads the tables, or computes without them, or replaces them. -/
theorem unconstructedTablesAreNeverRead : Obligations.UnconstructedTablesAreNeverRead := by
  intro i s t e l hfield hcoder h
  change exec i (withTables s e l) = .next (if t.field = s.field then withTables t e l else t)
  by_cases hfinit : ∃ imm, i = .finit imm
  · obtain ⟨imm, rfl⟩ := hfinit
    obtain ⟨c, hexec⟩ | hexec := exec_finit_cases imm
    · obtain rfl := Host.Outcome.next.inj ((hexec s).symm.trans h)
      rw [if_pos (State.errorEntry_field s c)]
      exact hexec _
    · obtain rfl := Host.Outcome.next.inj ((hexec s).symm.trans h)
      have hne : (s.installField (imm.extractLsb' 0 9) (imm.getLsbD 9)).advance.field ≠ s.field := fun he =>
        absurd (congrArg Field.fieldOk he) (by simp [hfield])
      rw [if_neg hne]
      exact hexec _
  · rw [not_exists] at hfinit
    rw [if_pos (exec_field_of_ne_finit hfinit h)]
    by_cases hi : (requiresField i || requiresCoder i) = true
    · have hun := ((Bool.or_eq_true _ _).mp hi).imp (And.intro · hfield) (And.intro · hcoder)
      obtain rfl := Host.Outcome.next.inj ((exec_of_unconfigured hun).symm.trans h)
      exact exec_of_unconfigured hun
    · exact exec_withTables e l (Bool.eq_false_of_not_eq_true hi) hfinit h

end Sys2Proof.Proofs
end

section
/-! SUPPORT. The host's view of the registers and of the DMEM window: where an address leads, what the
registers read as, and what a write leaves (10_state.md R20–R31). -/

namespace Sys2Proof.Proofs

open Sys2Proof.Machine Sys2Proof.Safety

/-! ### Where an access goes -/

theorem hostRegAt_reserved {n : Nat} (h : 0x24 ≤ n ∧ n < 0x40 ∨ 0x60 ≤ n) : hostRegAt n = .reserved := by
  unfold hostRegAt
  split <;> simp <;> omega

/-- An access to the window reaches DMEM, aligned or not. -/
theorem targetOf_window {a : BitVec 17} (w : AccessWidth) (h : a.toNat < 0x10000) :
    targetOf a w = .dmem a.toNat ∨ targetOf a w = .dmemMisaligned := by
  simp only [targetOf, if_pos h]
  split
  · exact .inl rfl
  · exact .inr rfl

/-- The addresses that R20 and R21 give no register. -/
def Unlisted (a : BitVec 17) (w : AccessWidth) : Prop :=
  (0x10024 ≤ a.toNat ∧ a.toNat < 0x10040) ∨ 0x10060 ≤ a.toNat ∨
    (0x10000 ≤ a.toNat ∧ (w ≠ .word ∨ a.toNat % 4 ≠ 0))

theorem targetOf_unlisted {a : BitVec 17} {w : AccessWidth} (h : Unlisted a w) :
    targetOf a w = .nothing ∨ targetOf a w = .register .reserved := by
  unfold Unlisted at h
  have hwindow : ¬ a.toNat < 0x10000 := by omega
  simp only [targetOf, if_neg hwindow]
  split
  · split
    · next hform =>
      have haddr : (0x10024 ≤ a.toNat ∧ a.toNat < 0x10040) ∨ 0x10060 ≤ a.toNat :=
        h.imp_right (Or.resolve_right · fun hr => hr.2.elim (· hform.1) (· hform.2))
      exact .inr (congrArg Target.register (hostRegAt_reserved (by omega)))
    · exact .inl rfl
  · exact .inl rfl

/-- An aligned 32-bit access to the block reaches the register at its offset (10_state.md R21). -/
theorem targetOf_block {a : BitVec 17} {o : Nat} (ha : a.toNat = 0x10000 + o) (ho : o < 0x100)
    (halign : o % 4 = 0) : targetOf a .word = .register (hostRegAt o) := by
  have hwindow : ¬ a.toNat < 0x10000 := by omega
  have hblock : a.toNat < 0x10100 := by omega
  have hword : a.toNat % 4 = 0 := by omega
  have hoffset : a.toNat - 0x10000 = o := by omega
  simp [targetOf, hwindow, hblock, hword, hoffset]

theorem targetOf_ctrl : targetOf 0x10000 .word = .register .ctrl :=
  targetOf_block (o := 0x00) rfl (by decide) rfl

theorem targetOf_status : targetOf 0x10004 .word = .register .status :=
  targetOf_block (o := 0x04) rfl (by decide) rfl

theorem targetOf_cause : targetOf 0x10008 .word = .register .cause :=
  targetOf_block (o := 0x08) rfl (by decide) rfl

theorem targetOf_epc : targetOf 0x1000C .word = .register .epc :=
  targetOf_block (o := 0x0C) rfl (by decide) rfl

theorem targetOf_info : targetOf 0x10010 .word = .register .info :=
  targetOf_block (o := 0x10) rfl (by decide) rfl

theorem targetOf_pc : targetOf 0x10014 .word = .register .pc :=
  targetOf_block (o := 0x14) rfl (by decide) rfl

theorem targetOf_fieldcfg : targetOf 0x10018 .word = .register .fieldcfg :=
  targetOf_block (o := 0x18) rfl (by decide) rfl

theorem targetOf_codercfg : targetOf 0x1001C .word = .register .codercfg :=
  targetOf_block (o := 0x1C) rfl (by decide) rfl

theorem targetOf_flags : targetOf 0x10020 .word = .register .flags :=
  targetOf_block (o := 0x20) rfl (by decide) rfl

/-- The address of `RWIN[i]`. -/
def rwinAddr (i : Fin 8) : BitVec 17 := BitVec.ofNat 17 (0x10040 + 4 * i.val)

theorem targetOf_rwinAddr (i : Fin 8) : targetOf (rwinAddr i) .word = .register (.rwin i) := by
  have hoffset : ∀ i : Fin 8, hostRegAt (0x40 + 4 * i.val) = .rwin i := by decide
  rw [targetOf_block (o := 0x40 + 4 * i.val) (by simp [rwinAddr]; omega) (by omega) (by omega), hoffset]

theorem eq_rwinAddr {a : BitVec 17} {i : Fin 8} (h : a.toNat = 0x10040 + 4 * i.val) : a = rwinAddr i := by
  rw [rwinAddr, ← h, BitVec.ofNat_toNat, BitVec.setWidth_eq]

/-! ### Accesses by what they reach -/

section ByTarget

variable {s : State} {a : BitVec 17} {w : AccessWidth} {r : HostReg}

theorem read_of_register (ht : targetOf a w = .register r)
    (hr : s.status.run = false ∨ r.readableInRun = true) :
    hostAccess s (.read a w) = { s with hostData := regWord s r } := by
  have hdefined : ¬ (s.status.run = true ∧ ¬ r.readableInRun = true) := by
    obtain hr | hr := hr <;> simp [hr]
  simp only [hostAccess, hostRead, ht, if_neg hdefined]
  rfl

theorem write_of_register (v : Word) (ht : targetOf a w = .register r) :
    hostAccess s (.write a w v) = hostWriteReg s r v := by
  simp only [hostAccess, hostWrite, ht]

/-- Reserved offsets, narrow accesses and unmapped addresses read 0 and ignore writes, in a run or not
(10_state.md R20, R21). -/
theorem access_of_unlisted (v : Word) (h : Unlisted a w) :
    hostAccess s (.read a w) = { s with hostData := 0 } ∧ hostAccess s (.write a w v) = s := by
  obtain ht | ht := targetOf_unlisted h
  · simp [hostAccess, hostRead, hostWrite, ht, State.replied]
  · exact ⟨read_of_register ht (.inr rfl), write_of_register v ht⟩

/-- During a run a write to DMEM, aligned or not, is dropped (10_state.md R31 (a)). -/
theorem write_window_of_run (hrun : s.status.run = true) (v : Word) (h : a.toNat < 0x10000) :
    hostAccess s (.write a w v) = dropWrite s := by
  obtain ht | ht := targetOf_window w h <;> simp [hostAccess, hostWrite, ht, hrun]

/-- During a run a read of DMEM returns an open value (10_state.md R31 (b)). -/
theorem read_window_of_run (hrun : s.status.run = true) (h : a.toNat < 0x10000) :
    hostAccess s (.read a w) = s.repliedFree w.size := by
  obtain ht | ht := targetOf_window w h <;> simp [hostAccess, hostRead, ht, hrun]

/-- During a run a read of a register other than `CTRL` and `STATUS` returns an open value. -/
theorem read_register_of_run (hrun : s.status.run = true) (ht : targetOf a w = .register r)
    (hr : r.readableInRun = false) : hostAccess s (.read a w) = s.repliedFree 4 := by
  simp [hostAccess, hostRead, ht, hrun, hr]

/-- While the sequencer is idle every read replies with a value of its own and does nothing else
(10_state.md R68). -/
theorem read_of_idle (hidle : s.status.run = false) :
    ∃ v, hostAccess s (.read a w) = { s with hostData := v } := by
  obtain h | ⟨hrun, -⟩ := hostRead_cases s a w
  · exact h
  · simp [hidle] at hrun

end ByTarget

/-! ### The registers as words (10_state.md R22–R29) -/

theorem ctrlWord_fields (s : State) : (ctrlWord s).getLsbD 1 = s.ctrl.ieDone ∧
    (ctrlWord s).getLsbD 2 = s.ctrl.ieErr ∧ ctrlWord s &&& 0xFFFFFFF9 = 0 := by
  unfold ctrlWord
  generalize s.ctrl.ieDone = d, s.ctrl.ieErr = e
  revert d e
  decide

theorem statusWord_fields (s : State) : (statusWord s).getLsbD 0 = s.status.run ∧
    (statusWord s).getLsbD 1 = s.status.done ∧ (statusWord s).getLsbD 2 = s.status.err ∧
    (statusWord s).getLsbD 3 = s.status.hwe ∧ statusWord s &&& 0xFFFFFFF0 = 0 := by
  unfold statusWord
  generalize s.status.run = r, s.status.done = d, s.status.err = e, s.status.hwe = h
  revert r d e h
  decide

/-- While the sequencer is idle `RUN` reads 0 with the unused bits. -/
theorem statusWord_of_idle {s : State} (hidle : s.status.run = false) : statusWord s &&& 0xFFFFFFF1 = 0 := by
  unfold statusWord
  rw [hidle]
  generalize s.status.done = d, s.status.err = e, s.status.hwe = h
  revert d e h
  decide

theorem causeWord_fields (s : State) : (causeWord s).extractLsb' 0 8 = s.cause.code ∧
    (causeWord s).extractLsb' 8 8 = s.cause.sub ∧ causeWord s &&& 0xFFFF0000 = 0 := by
  have hmask : (0xFFFF0000 : Word) = (0xFFFF : BitVec 16) ++ (0 : Byte) ++ (0 : Byte) := rfl
  refine ⟨BitVec.extractLsb'_append_eq_right, ?_, ?_⟩
  · rw [causeWord, BitVec.extractLsb'_append_eq_of_le le_rfl, BitVec.extractLsb'_append_eq_right]
  · rw [causeWord, hmask, BitVec.and_append, BitVec.and_append]
    simp

theorem pcWord_fields (s : State) : (pcWord s).extractLsb' 2 14 = s.pc.extractLsb' 2 14 ∧
    pcWord s &&& 0xFFFF0003 = 0 := by
  have hmask : (0xFFFF0003 : Word) = (0xFFFF : BitVec 16) ++ (0 : BitVec 14) ++ (3 : BitVec 2) := rfl
  refine ⟨?_, ?_⟩
  · rw [pcWord, BitVec.extractLsb'_append_eq_of_le le_rfl, BitVec.extractLsb'_append_eq_right]
  · rw [pcWord, hmask, BitVec.and_append, BitVec.and_append]
    simp

theorem fieldcfgWord_fields (s : State) : (fieldcfgWord s).extractLsb' 0 9 = s.field.prim ∧
    (fieldcfgWord s).getLsbD 9 = s.field.gb ∧ (fieldcfgWord s).getLsbD 31 = s.field.fieldOk ∧
    fieldcfgWord s &&& 0x7FFFFC00 = 0 := by
  have hmask : (0x7FFFFC00 : Word) =
      (0 : BitVec 1) ++ (0x1FFFFF : BitVec 21) ++ (0 : BitVec 1) ++ (0 : BitVec 9) := rfl
  refine ⟨BitVec.extractLsb'_append_eq_right, ?_, ?_, ?_⟩
  · rw [fieldcfgWord, BitVec.getLsbD_append, BitVec.getLsbD_append]
    simp
  · rw [fieldcfgWord, BitVec.getLsbD_append, BitVec.getLsbD_append, BitVec.getLsbD_append]
    simp
  · rw [fieldcfgWord, hmask, BitVec.and_append, BitVec.and_append, BitVec.and_append]
    simp

theorem codercfgWord_fields (s : State) : (codercfgWord s).extractLsb' 0 8 = s.coder.k ∧
    (codercfgWord s).extractLsb' 8 8 = s.coder.e ∧ (codercfgWord s).getLsbD 31 = s.coder.coderOk ∧
    codercfgWord s &&& 0x7FFF0000 = 0 := by
  have hmask : (0x7FFF0000 : Word) = (0 : BitVec 1) ++ (0x7FFF : BitVec 15) ++ (0 : Byte) ++ (0 : Byte) := rfl
  refine ⟨BitVec.extractLsb'_append_eq_right, ?_, ?_, ?_⟩
  · rw [codercfgWord, BitVec.extractLsb'_append_eq_of_le le_rfl, BitVec.extractLsb'_append_eq_right]
  · rw [codercfgWord, BitVec.getLsbD_append, BitVec.getLsbD_append, BitVec.getLsbD_append]
    simp
  · rw [codercfgWord, hmask, BitVec.and_append, BitVec.and_append, BitVec.and_append]
    simp

theorem flagsWord_fields (s : State) : (flagsWord s).getLsbD 0 = s.flags.z ∧
    (flagsWord s).getLsbD 1 = s.flags.df ∧ (flagsWord s).extractLsb' 4 4 = s.flags.dfr ∧
    flagsWord s &&& 0xFFFFFF0C = 0 := by
  have hmask : (0xFFFFFF0C : Word) =
      (0xFFFFFF : BitVec 24) ++ (0 : BitVec 4) ++ (3 : BitVec 2) ++ (0 : BitVec 1) ++ (0 : BitVec 1) := rfl
  refine ⟨?_, ?_, ?_, ?_⟩
  · rw [flagsWord, BitVec.getLsbD_append]
    simp
  · rw [flagsWord, BitVec.getLsbD_append, BitVec.getLsbD_append]
    simp
  · rw [flagsWord, BitVec.extractLsb'_append_eq_of_le (by decide),
      BitVec.extractLsb'_append_eq_of_le (by decide), BitVec.extractLsb'_append_eq_of_le (by decide)]
    exact BitVec.extractLsb'_append_eq_right
  · rw [flagsWord, hmask, BitVec.and_append, BitVec.and_append, BitVec.and_append, BitVec.and_append]
    simp

/-! ### What the registers take from a write -/

theorem writeStatus_eq (s : State) (v : Word) : writeStatus s v = { s with
    status := {
      run := s.status.run
      done := if v.getLsbD 1 then false else s.status.done
      err := if v.getLsbD 2 then false else s.status.err
      hwe := if v.getLsbD 3 then false else s.status.hwe }
    cause := if v.getLsbD 2 then { code := 0, sub := 0 } else s.cause } := by
  have hclear (b old : Bool) : (old && !b) = if b then false else old := by cases b <;> simp
  simp only [writeStatus, hclear]

/-- During a run `GO` is ignored (40_control.md R110). -/
theorem writeCtrl_of_run {s : State} (hrun : s.status.run = true) (v : Word) :
    writeCtrl s v = { s with ctrl := { ieDone := v.getLsbD 1, ieErr := v.getLsbD 2 } } := by
  simp [writeCtrl, hrun]

/-- Bits 15:2 with zeros below are the half word under a mask. -/
theorem pcBits_eq (v : Word) : v.extractLsb' 2 14 ++ (0 : BitVec 2) = v.extractLsb' 0 16 &&& 0xFFFC := by
  have hsplit : v.extractLsb' 0 16 = v.extractLsb' 2 14 ++ v.extractLsb' 0 2 :=
    (BitVec.extractLsb'_append_extractLsb'_eq_extractLsb' (len₁ := 2) (len₂ := 14) rfl).symm
  have hmask : (0xFFFC : Half) = BitVec.allOnes 14 ++ (0 : BitVec 2) := rfl
  rw [hsplit, hmask, BitVec.and_append, BitVec.and_allOnes]
  simp

/-- The read-only registers ignore writes (10_state.md R24, R27, R28). -/
theorem write_of_readOnly (s : State) (v : Word) {a : BitVec 17}
    (h : a ∈ [(0x10008 : BitVec 17), 0x1000C, 0x10010, 0x10018, 0x1001C]) :
    hostAccess s (.write a .word v) = s := by
  simp only [List.mem_cons, List.not_mem_nil, or_false] at h
  obtain rfl | rfl | rfl | rfl | rfl := h
  exacts [write_of_register v targetOf_cause, write_of_register v targetOf_epc,
    write_of_register v targetOf_info, write_of_register v targetOf_fieldcfg,
    write_of_register v targetOf_codercfg]

/-! ### The statements -/

/-- Settles O20: an idle machine's reads reply with the register's word, and its fields are as tabled. -/
theorem hostRegistersReadAsTabled : Obligations.HostRegistersReadAsTabled := by
  intro s hidle rd
  have hrd {a : BitVec 17} {r : HostReg} (ht : targetOf a .word = .register r) : rd a = regWord s r :=
    congrArg State.hostData (read_of_register ht (.inl hidle))
  rw [hrd targetOf_ctrl, hrd targetOf_status, hrd targetOf_cause, hrd targetOf_pc, hrd targetOf_fieldcfg,
    hrd targetOf_codercfg, hrd targetOf_flags]
  obtain ⟨-, hdone, herr, hhwe, -⟩ := statusWord_fields s
  exact ⟨fun a w => read_of_idle hidle, ctrlWord_fields s, ⟨hdone, herr, hhwe, statusWord_of_idle hidle⟩,
    causeWord_fields s, ⟨hrd targetOf_epc, hrd targetOf_info⟩, pcWord_fields s, fieldcfgWord_fields s,
    codercfgWord_fields s, flagsWord_fields s, fun i => hrd (targetOf_rwinAddr i),
    fun a w v h => access_of_unlisted v h⟩

/-- Settles O21: a write reaches the register at its address, which takes its fields or nothing. -/
theorem hostRegistersWriteAsTabled : Obligations.HostRegistersWriteAsTabled := by
  intro s v
  refine ⟨(write_of_register v targetOf_status).trans (writeStatus_eq s v), fun hidle => ?_⟩
  have hif {t : State} : (if s.status.run then dropWrite s else t) = t := if_neg (by simp [hidle])
  refine ⟨?_, (write_of_register v targetOf_flags).trans hif,
    fun i => (write_of_register v (targetOf_rwinAddr i)).trans hif, fun a ha => write_of_readOnly s v ha⟩
  rw [← pcBits_eq]
  exact (write_of_register v targetOf_pc).trans hif

/-- The registers whose reads are open during a run (10_state.md R31 (b), log entry 11). -/
theorem read_register_open {s : State} {a : BitVec 17} (hrun : s.status.run = true)
    (h : a = 0x10008 ∨ a = 0x1000C ∨ a = 0x10010 ∨ a = 0x10014 ∨ a = 0x10018 ∨ a = 0x1001C ∨
      a = 0x10020 ∨ ∃ i : Fin 8, a.toNat = 0x10040 + 4 * i.val) :
    hostAccess s (.read a .word) = s.repliedFree 4 := by
  obtain rfl | rfl | rfl | rfl | rfl | rfl | rfl | ⟨i, h⟩ := h
  · exact read_register_of_run hrun targetOf_cause rfl
  · exact read_register_of_run hrun targetOf_epc rfl
  · exact read_register_of_run hrun targetOf_info rfl
  · exact read_register_of_run hrun targetOf_pc rfl
  · exact read_register_of_run hrun targetOf_fieldcfg rfl
  · exact read_register_of_run hrun targetOf_codercfg rfl
  · exact read_register_of_run hrun targetOf_flags rfl
  · rw [eq_rwinAddr h]
    exact read_register_of_run hrun (targetOf_rwinAddr i) rfl

/-- The registers that drop writes during a run (10_state.md R31 (a)). -/
theorem write_register_dropped {s : State} {a : BitVec 17} (hrun : s.status.run = true) (v : Word)
    (h : a = 0x10014 ∨ a = 0x10020 ∨ ∃ i : Fin 8, a.toNat = 0x10040 + 4 * i.val) :
    hostAccess s (.write a .word v) = dropWrite s := by
  have hif {t : State} : (if s.status.run then dropWrite s else t) = dropWrite s := if_pos hrun
  obtain rfl | rfl | ⟨i, h⟩ := h
  · exact (write_of_register v targetOf_pc).trans hif
  · exact (write_of_register v targetOf_flags).trans hif
  · rw [eq_rwinAddr h]
    exact (write_of_register v (targetOf_rwinAddr i)).trans hif

/-- Settles O18: during a run the accesses of R31 (a) are dropped, those of (b) are open, and `CTRL`,
`STATUS` and the unlisted addresses answer as ever. -/
theorem hostAccessDuringARun : Obligations.HostAccessDuringARun := by
  intro s hrun
  refine ⟨fun a w v h => ?_, fun a w h => ?_, ?_, ?_, fun v => ?_, fun v => ?_,
    fun a w v h => access_of_unlisted v h, fun v a ha => write_of_readOnly s v ha⟩
  · obtain h | ⟨rfl, h⟩ := h
    · exact write_window_of_run hrun v h
    · exact write_register_dropped hrun v h
  · have hopen : hostAccess s (.read a w) = s.repliedFree w.size := by
      obtain h | ⟨rfl, h⟩ := h
      · exact read_window_of_run hrun h
      · exact read_register_open hrun h
    refine ⟨_, ?_, rfl, hopen⟩
    rw [BitVec.toNat_ofNat]
    exact (Nat.mod_le _ _).trans_lt (Nat.mod_lt _ (Nat.two_pow_pos _))
  · exact ⟨_, read_of_register targetOf_ctrl (.inr rfl), ctrlWord_fields s⟩
  · have hfields := statusWord_fields s
    rw [hrun] at hfields
    exact ⟨_, read_of_register targetOf_status (.inr rfl), hfields⟩
  · exact (write_of_register v targetOf_ctrl).trans (writeCtrl_of_run hrun v)
  · have hstatus := writeStatus_eq s v
    rw [hrun] at hstatus
    exact (write_of_register v targetOf_status).trans hstatus

end Sys2Proof.Proofs
end

section
/-! SUPPORT. The DMEM window of the host: what an idle machine's reads and writes of it do, and the
little-endian word between them (20_memory.md R64, R68, R72). -/

namespace Sys2Proof.Proofs

open Sys2Proof.Machine Sys2Proof.Safety

/-! ### Bytes and words -/

/-- Byte `i` of the little-endian word of at most four bytes. -/
theorem littleEndian_byte {bs : List Byte} (hlen : bs.length ≤ 4) {i : Nat} (hi : i < bs.length) :
    (littleEndian bs).extractLsb' (8 * i) 8 = bs[i] := by
  induction bs generalizing i with
  | nil => simp at hi
  | cons b bs ih =>
    simp only [List.length_cons] at hlen hi
    apply BitVec.eq_of_getLsbD_eq
    intro k hk
    cases i with
    | zero =>
      have hk32 : k < 32 := by omega
      simp [littleEndian, hk, hk32]
    | succ i =>
      have hbyte : (littleEndian bs).getLsbD (8 * i + k) = bs[i].getLsbD k := by
        rw [← ih (by omega) (by omega)]
        simp [hk]
      have hin : 8 * (i + 1) + k < 32 := by omega
      have hpast : b.getLsbD (8 * (i + 1) + k) = false := BitVec.getLsbD_of_ge _ _ (by omega)
      have hshift : 8 * (i + 1) + k - 8 = 8 * i + k := by omega
      have hlow : ¬ 8 * (i + 1) + k < 8 := by omega
      simp only [littleEndian, BitVec.getLsbD_extractLsb', BitVec.getLsbD_or, BitVec.getLsbD_setWidth,
        BitVec.getLsbD_shiftLeft, List.getElem_cons_succ, hpast, hshift, hbyte]
      simp [hk, hin, hlow]

theorem littleEndian_lt (bs : List Byte) : (littleEndian bs).toNat < 2 ^ (8 * bs.length) := by
  induction bs with
  | nil => simp [littleEndian]
  | cons b bs ih =>
    have hpow : 2 ^ (8 * (bs.length + 1)) = 2 ^ (8 * bs.length) * 2 ^ 8 := by rw [← Nat.pow_add]; rfl
    rw [littleEndian, BitVec.toNat_or, List.length_cons]
    apply Nat.or_lt_two_pow
    · rw [BitVec.toNat_setWidth]
      have := b.isLt
      have := Nat.two_pow_pos (8 * bs.length)
      refine (Nat.mod_le _ _).trans_lt ?_
      omega
    · rw [BitVec.toNat_shiftLeft, Nat.shiftLeft_eq]
      refine (Nat.mod_le _ _).trans_lt ?_
      omega

/-- A word below `2^(8n)` is another word cut to `n` bytes when these bytes agree. -/
theorem eq_cut_of_bytes {x v : Word} {n : Nat} (hx : x.toNat < 2 ^ (8 * n))
    (h : ∀ i, i < n → x.extractLsb' (8 * i) 8 = v.extractLsb' (8 * i) 8) :
    x = BitVec.ofNat 32 (v.toNat % 2 ^ (8 * n)) := by
  apply BitVec.eq_of_getLsbD_eq
  intro k hk
  rw [BitVec.getLsbD_ofNat, Nat.testBit_mod_two_pow]
  by_cases hkn : k < 8 * n
  · have hbit := congrArg (BitVec.getLsbD · (k % 8)) (h (k / 8) (by omega))
    have hlt : k % 8 < 8 := Nat.mod_lt _ (by decide)
    simp only [BitVec.getLsbD_extractLsb', hlt, decide_true, Bool.true_and, Nat.div_add_mod] at hbit
    rw [hbit, BitVec.testBit_toNat]
    simp [hk, hkn]
  · have hzero : x.getLsbD k = false :=
      Nat.testBit_lt_two_pow (hx.trans_le (Nat.pow_le_pow_right (by decide) (by omega)))
    simp [hkn, hzero]

theorem bytesOfWord_eq_map (v : Word) :
    bytesOfWord v = (List.range 4).map fun i => v.extractLsb' (8 * i) 8 := rfl

theorem size_le_four (w : AccessWidth) : w.size ≤ 4 := by cases w <;> decide

@[simp] theorem take_bytesOfWord_length (v : Word) (w : AccessWidth) :
    ((bytesOfWord v).take w.size).length = w.size := by
  simp [bytesOfWord_eq_map, size_le_four]

/-! ### Accesses to the window while the sequencer is idle -/

section Window

variable {s : State} {a : BitVec 17} {w : AccessWidth}

theorem targetOf_aligned (hwin : a.toNat < 0x10000) (halign : a.toNat % w.size = 0) :
    targetOf a w = .dmem a.toNat := by
  simp only [targetOf, if_pos hwin, if_pos halign]

theorem targetOf_misaligned (hwin : a.toNat < 0x10000) (halign : a.toNat % w.size ≠ 0) :
    targetOf a w = .dmemMisaligned := by
  simp only [targetOf, if_pos hwin, if_neg halign]

/-- An aligned read replies with the bytes, little-endian, and does nothing else. -/
theorem read_dmem_of_idle (hidle : s.status.run = false) (ht : targetOf a w = .dmem a.toNat) :
    ∃ x : Word, hostAccess s (.read a w) = { s with hostData := x } ∧
      (∀ i, i < w.size → x.extractLsb' (8 * i) 8 = s.mem.read (a.toNat + i)) ∧
      x.toNat < 2 ^ (8 * w.size) := by
  have hlen : (s.loadBytes a.toNat w.size).length = w.size := loadBytes_length _ _ _
  refine ⟨littleEndian (s.loadBytes a.toNat w.size), ?_, fun i hi => ?_, ?_⟩
  · simp [hostAccess, hostRead, ht, hidle, State.replied]
  · rw [littleEndian_byte (hlen.trans_le (size_le_four w)) (hlen.symm ▸ hi)]
    exact Memory.readBytes_getElem ..
  · simpa using littleEndian_lt (s.loadBytes a.toNat w.size)

/-- An aligned write stores the word's low bytes. -/
theorem write_dmem_of_idle (hidle : s.status.run = false) (v : Word) (ht : targetOf a w = .dmem a.toNat) :
    hostAccess s (.write a w v) = s.storeBytes a.toNat ((bytesOfWord v).take w.size) := by
  simp [hostAccess, hostWrite, ht, hidle]

theorem access_of_misaligned (hidle : s.status.run = false) (v : Word)
    (ht : targetOf a w = .dmemMisaligned) :
    hostAccess s (.write a w v) = s ∧ hostAccess s (.read a w) = { s with hostData := 0 } := by
  simp [hostAccess, hostWrite, hostRead, ht, hidle, State.replied]

end Window

/-- Settles O19: an aligned write stores bytes that the same read finds again, and a misaligned access
reaches nothing. -/
theorem hostReadsBackDmem : Obligations.HostReadsBackDmem := by
  intro s a w v hidle hwf hwin
  refine ⟨fun halign => ?_, fun halign => access_of_misaligned hidle v (targetOf_misaligned hwin halign)⟩
  have ht := targetOf_aligned hwin halign
  obtain ⟨-, -, hfit⟩ := targetOf_dmem ht
  have hlen := take_bytesOfWord_length v w
  rw [write_dmem_of_idle hidle v ht]
  intro t
  have hstored : ∀ i, i < w.size → t.mem.read (a.toNat + i) = v.extractLsb' (8 * i) 8 := fun i hi => by
    rw [State.storeBytes_mem, Memory.read_writeBytes_inside hwf (hlen.symm ▸ hfit) (hlen.symm ▸ hi)]
    simp [bytesOfWord_eq_map]
  obtain ⟨x, hread, hbytes, hlt⟩ := read_dmem_of_idle (s := t) hidle ht
  have hx := eq_cut_of_bytes hlt fun i hi => (hbytes i hi).trans (hstored i hi)
  exact ⟨read_dmem_of_idle hidle ht, rfl, hx ▸ hread, hstored, fun c hc =>
    Memory.read_writeBytes_outside hwf (.inr (hlen.symm ▸ hfit)) (hlen.symm ▸ hc)⟩

end Sys2Proof.Proofs
end

section
/-! SUPPORT. `PLD` and `PST`: bytes of DMEM as coefficients, the one at the lowest address highest
(20_memory.md R61, 42_polynomial.md R160, R179, R180). -/

namespace Sys2Proof.Proofs

open Sys2Proof.Machine Sys2Proof.Safety

/-! ### Bytes as coefficients -/

/-- A normalized list has at most `d` coefficients when those above the last `d` are zero. -/
theorem normalize_length_le_iff {d : Nat} (hd : 0 < d) (cs : List Byte) :
    (normalize cs).length ≤ d ↔ ∀ i, i + d < cs.length → cs.getD i 0 = 0 := by
  induction cs with
  | nil => simpa [zeroPoly] using Nat.succ_le_of_lt hd
  | cons c cs ih =>
    by_cases hc : c = 0
    · subst hc
      rw [normalize_zero_cons, ih]
      constructor
      · intro h i hi
        cases i with
        | zero => rfl
        | succ i => exact h i (by simp only [List.length_cons] at hi; omega)
      · exact fun h i hi => h (i + 1) (by simp only [List.length_cons]; omega)
    · rw [normalize_cons_of_ne hc]
      constructor
      · intro h i hi; omega
      · intro h
        by_contra hlong
        exact hc (h 0 (by omega))

theorem loadBytes_getD (s : State) (a : Nat) {n i : Nat} (hi : i < n) :
    (s.loadBytes a n).getD i 0 = s.mem.read (a + i) := by
  have hi' : i < (s.loadBytes a n).length := by simpa using hi
  rw [List.getD_eq_getElem _ _ hi']
  exact Memory.readBytes_getElem ..

/-- The coefficient of `x^j` in a loaded polynomial is the byte `j` places before the last one. -/
theorem coefAt_normalize_loadBytes (s : State) (a : Nat) {n j : Nat} (hj : j < n) :
    coefAt (normalize (s.loadBytes a n)) j = s.mem.read (a + (n - 1 - j)) := by
  rw [coefAt_normalize, ← loadBytes_getD s a (n := n) (by omega)]
  simp only [List.getD_eq_getElem?_getD]
  rw [List.getElem?_reverse (by simpa using hj), loadBytes_length]

theorem coefAt_normalize_loadBytes_of_le (s : State) (a : Nat) {n j : Nat} (hj : n ≤ j) :
    coefAt (normalize (s.loadBytes a n)) j = 0 := by
  rw [coefAt_normalize]
  exact List.getD_eq_default _ _ (by simpa using hj)

/-- Padding a polynomial value and normalizing gives it back. -/
theorem normalize_padLeft {p : Poly} (h : IsValue p) (n : Nat) : normalize (padLeft n p) = p := by
  rw [padLeft, normalize_zeros_append, normalize_of_form h]

/-! ### The commands -/

section Commands

variable {s : State} {fa fb fc : RIdx}

/-- `PLD` from an operand inside DMEM ends as the check of the capacity says. -/
theorem exec_pld_of_inRange (fd : PIdx) (h : InRange (s.unsigned fa) (s.unsigned fb)) :
    exec (.pld fd fa fb) s =
      command s (checkCapacity (normalize (s.loadBytes (s.unsigned fa) (s.unsigned fb))) >>= fun _ =>
        .ok (s.setPoly fd (normalize (s.loadBytes (s.unsigned fa) (s.unsigned fb))))) := by
  change execPld fd fa fb s = _
  simp only [execPld, checkRange_of_inRange h]
  rfl

theorem exec_pld_of_fits (fd : PIdx) (h : InRange (s.unsigned fa) (s.unsigned fb))
    (hcap : (normalize (s.loadBytes (s.unsigned fa) (s.unsigned fb))).length ≤ Config.maxDegree + 1) :
    exec (.pld fd fa fb) s =
      .next (s.setPoly fd (normalize (s.loadBytes (s.unsigned fa) (s.unsigned fb)))).advance := by
  rw [exec_pld_of_inRange fd h, checkCapacity_of_le hcap, ok_bind, command_ok]

theorem exec_pst_of_fits {p : PIdx} (hlen : (s.poly p).length ≤ s.unsigned fc)
    (h : InRange (s.unsigned fb) (s.unsigned fc)) :
    exec (.pst p fb fc) s =
      .next (s.storeBytes (s.unsigned fb) (padLeft (s.unsigned fc) (s.poly p))).advance := by
  change execPst p fb fc s = _
  simp only [execPst, if_neg (Nat.not_lt.2 hlen), checkRange_of_inRange h]
  rfl

end Commands

/-- Settles O46: the capacity of `P` registers decides, on the bytes above degree 255. -/
theorem pldReadsHighestFirst : Obligations.PldReadsHighestFirst := by
  intro s fd fa fb hrange a n
  have hfits : (normalize (s.loadBytes a n)).length ≤ Config.maxDegree + 1 ↔
      ∀ i, i + 256 < n → s.mem.read (a + i) = 0 := by
    rw [normalize_length_le_iff (Nat.succ_pos _), loadBytes_length]
    exact forall₂_congr fun i hi => by
      rw [loadBytes_getD s a ((Nat.le_add_right _ _).trans_lt hi)]
  refine ⟨fun hzero => ?_, fun ⟨i, hi, hne⟩ => ?_⟩
  · have hcap := hfits.2 hzero
    exact ⟨_, exec_pld_of_fits fd hrange hcap, ⟨hcap, normalize_form _⟩,
      fun j => coefAt_normalize_loadBytes s a, fun j => coefAt_normalize_loadBytes_of_le s a⟩
  · have hlong : ¬ (normalize (s.loadBytes a n)).length ≤ Config.maxDegree + 1 :=
      fun h => hne (hfits.1 h i hi)
    rw [exec_pld_of_inRange fd hrange, checkCapacity_of_gt (Nat.lt_of_not_le hlong)]
    rfl

/-- Settles O47: the stored bytes load as the padded polynomial, whose normal form is the polynomial. -/
theorem pstStoresAndPldReadsBack : Obligations.PstStoresAndPldReadsBack := by
  intro s fa fd fb fc hinv hlen hrange
  let t := (s.storeBytes (s.unsigned fb) (padLeft (s.unsigned fc) (s.poly fa))).advance
  obtain ⟨hcap, hvalue⟩ := hinv.polys fa
  have hpad := padLeft_length hlen
  have hload : normalize (t.loadBytes (s.unsigned fb) (s.unsigned fc)) = s.poly fa := by
    have hback := Memory.readBytes_writeBytes hinv.mem (bs := padLeft (s.unsigned fc) (s.poly fa))
      (hrange.imp (fun h => List.eq_nil_of_length_eq_zero (hpad.trans h)) (hpad.symm ▸ ·))
    rw [hpad] at hback
    exact (congrArg normalize hback).trans (normalize_padLeft hvalue _)
  refine ⟨t, exec_pst_of_fits hlen hrange, rfl, fun j hj => ?_, ?_⟩
  · rw [← hload, coefAt_normalize_loadBytes t _ hj]
  · have hpld := exec_pld_of_fits (s := t) (fa := fb) (fb := fc) fd hrange (hload.symm ▸ hcap)
    exact hload ▸ hpld

end Sys2Proof.Proofs
end

section
/-! SUPPORT. The checks on memory operands and the errors they raise, in the order in which a command makes
them (20_memory.md R66, R67; 60_exceptions.md R285). -/

namespace Sys2Proof.Proofs

open Sys2Proof.Machine Sys2Proof.Safety

/-! ### Checks in sequence -/

section Sequence

variable {α : Type} {f : Unit → Except Stop α} {a n b m : Nat} {s : State}

theorem requireField_bind_of_ok (h : s.field.fieldOk = true) : (requireField s >>= f) = f () := by
  rw [requireField_of_ok h, ok_bind]

theorem requireCoder_bind_of_ok (h : s.coder.coderOk = true) : (requireCoder s >>= f) = f () := by
  rw [requireCoder_of_ok h, ok_bind]

theorem checkRange_bind_of_inRange (h : InRange a n) : (checkRange a n >>= f) = f () := by
  rw [checkRange_of_inRange h, ok_bind]

/-- A range check raises `MEM_RANGE` itself, or leaves that to what follows. -/
theorem checkRange_bind_raises (h : ¬ InRange a n ∨ f () = raise .memRange) :
    (checkRange a n >>= f) = raise .memRange := by
  obtain ⟨hin, hok⟩ | ⟨-, hraise⟩ := checkRange_cases a n
  · rw [hok, ok_bind, h.resolve_left (not_not_intro hin)]
  · rw [hraise]
    rfl

/-- An overlap check raises `OVERLAP` itself, or leaves that to what follows. -/
theorem checkOverlap_bind_raises (h : Overlap a n b m ∨ f () = raise .overlap) :
    (checkOverlap a n b m >>= f) = raise .overlap := by
  obtain ⟨hno, hok⟩ | ⟨-, hraise⟩ := checkOverlap_cases a n b m
  · rw [hok, ok_bind, h.resolve_left hno]
  · rw [hraise]
    rfl

/-- A computation that raises an error ends its command with the error entry. -/
theorem command_of_raise {c : Cause} {x : Except Stop State} (h : x = raise c) :
    command s x = .next (s.errorEntry c) := by
  rw [h]
  rfl

end Sequence

/-! ### One lemma per command -/

section Commands

variable {s : State}

theorem exec_pld_checks (fd : PIdx) {fa fb : RIdx} (hout : ¬ InRange (s.unsigned fa) (s.unsigned fb)) :
    exec (.pld fd fa fb) s = .next (s.errorEntry .memRange) :=
  command_of_raise (checkRange_bind_raises (.inl hout))

/-- The length comes before the range (42_polynomial.md R180). -/
theorem exec_pst_checks (fa : PIdx) (fb fc : RIdx) :
    (s.unsigned fc < (s.poly fa).length → exec (.pst fa fb fc) s = .next (s.errorEntry .length)) ∧
    ((s.poly fa).length ≤ s.unsigned fc → ¬ InRange (s.unsigned fb) (s.unsigned fc) →
      exec (.pst fa fb fc) s = .next (s.errorEntry .memRange)) :=
  ⟨fun hshort => command_of_raise (if_pos hshort),
    fun hlen hout => command_of_raise <| (if_neg (Nat.not_lt.2 hlen)).trans <|
      checkRange_bind_raises (.inl hout)⟩

/-- The length of the output counts as a range, between those of the two operands (43_coder.md R214). -/
theorem exec_enc_checks (fd fa fb fc : RIdx) (hok : s.coder.coderOk = true) {outlen : Nat}
    (houtlen : outlen = blockCount (s.unsigned fb) s.coder.dataLen * s.coder.blockLen) :
    ((¬ InRange (s.unsigned fa) (s.unsigned fb) ∨ outlen > 0xFFFF ∨ ¬ InRange (s.unsigned fc) outlen) →
      exec (.enc fd fa fb fc) s = .next (s.errorEntry .memRange)) ∧
    (InRange (s.unsigned fa) (s.unsigned fb) → outlen ≤ 0xFFFF → InRange (s.unsigned fc) outlen →
      Overlap (s.unsigned fa) (s.unsigned fb) (s.unsigned fc) outlen →
      exec (.enc fd fa fb fc) s = .next (s.errorEntry .overlap)) := by
  subst houtlen
  refine ⟨fun hout => command_of_raise <| (requireCoder_bind_of_ok hok).trans <| checkRange_bind_raises <|
      hout.imp_right fun hout => ?_,
    fun hsrc hfits hdst hover => command_of_raise <| (requireCoder_bind_of_ok hok).trans <|
      (checkRange_bind_of_inRange hsrc).trans <| (if_neg (Nat.not_lt.2 hfits)).trans <|
      (checkRange_bind_of_inRange hdst).trans <| checkOverlap_bind_raises (.inl hover)⟩
  split
  · rfl
  · next hfits => exact checkRange_bind_raises (.inl (hout.resolve_left hfits))

theorem exec_dec_checks (fd fa fb fc : RIdx) (hok : s.coder.coderOk = true) {outlen : Nat}
    (houtlen : outlen = blockCount (s.unsigned fb) s.coder.blockLen * s.coder.dataLen) :
    ((¬ InRange (s.unsigned fa) (s.unsigned fb) ∨ ¬ InRange (s.unsigned fc) outlen) →
      exec (.dec fd fa fb fc) s = .next (s.errorEntry .memRange)) ∧
    (InRange (s.unsigned fa) (s.unsigned fb) → InRange (s.unsigned fc) outlen →
      Overlap (s.unsigned fa) (s.unsigned fb) (s.unsigned fc) outlen →
      exec (.dec fd fa fb fc) s = .next (s.errorEntry .overlap)) := by
  subst houtlen
  exact ⟨fun hout => command_of_raise <| (requireCoder_bind_of_ok hok).trans <| checkRange_bind_raises <|
      hout.imp_right fun hdst => checkRange_bind_raises (.inl hdst),
    fun hsrc hdst hover => command_of_raise <| (requireCoder_bind_of_ok hok).trans <|
      (checkRange_bind_of_inRange hsrc).trans <| (checkRange_bind_of_inRange hdst).trans <|
      checkOverlap_bind_raises (.inl hover)⟩

theorem exec_synd_checks (fd : PIdx) (fa : RIdx) (hok : s.coder.coderOk = true)
    (hout : ¬ InRange (s.unsigned fa) s.coder.blockLen) :
    exec (.synd fd fa) s = .next (s.errorEntry .memRange) :=
  command_of_raise <| (requireCoder_bind_of_ok hok).trans <| checkRange_bind_raises (.inl hout)

theorem exec_chien_checks (fd : RIdx) (fa : PIdx) (fc : RIdx) (hok : s.field.fieldOk = true)
    (hout : ¬ InRange (s.unsigned fc) (deg (s.poly fa))) :
    exec (.chien fd fa fc) s = .next (s.errorEntry .memRange) :=
  command_of_raise <| (requireField_bind_of_ok hok).trans <| checkRange_bind_raises (.inl hout)

theorem exec_forney_checks (fd : RIdx) (fa : PIdx) (fb fc : RIdx) (hok : s.field.fieldOk = true) :
    ((¬ InRange (s.unsigned fb) (s.unsigned fc) ∨ ¬ InRange (s.unsigned fd) (s.unsigned fc)) →
      exec (.forney fd fa fb fc) s = .next (s.errorEntry .memRange)) ∧
    (InRange (s.unsigned fb) (s.unsigned fc) → InRange (s.unsigned fd) (s.unsigned fc) →
      Overlap (s.unsigned fb) (s.unsigned fc) (s.unsigned fd) (s.unsigned fc) →
      exec (.forney fd fa fb fc) s = .next (s.errorEntry .overlap)) :=
  ⟨fun hout => command_of_raise <| (requireField_bind_of_ok hok).trans <| checkRange_bind_raises <|
      hout.imp_right fun hdst => checkRange_bind_raises (.inl hdst),
    fun hloc hdst hover => command_of_raise <| (requireField_bind_of_ok hok).trans <|
      (checkRange_bind_of_inRange hloc).trans <| (checkRange_bind_of_inRange hdst).trans <|
      checkOverlap_bind_raises (.inl hover)⟩

/-- Both read operands are compared with the block, which is written (44_decoder_stages.md R254). -/
theorem exec_corr_checks (fd fa fb fc : RIdx) (hok : s.coder.coderOk = true) :
    ((¬ InRange (s.unsigned fd) s.coder.blockLen ∨ ¬ InRange (s.unsigned fa) (s.unsigned fc) ∨
        ¬ InRange (s.unsigned fb) (s.unsigned fc)) →
      exec (.corr fd fa fb fc) s = .next (s.errorEntry .memRange)) ∧
    (InRange (s.unsigned fd) s.coder.blockLen → InRange (s.unsigned fa) (s.unsigned fc) →
      InRange (s.unsigned fb) (s.unsigned fc) →
      Overlap (s.unsigned fa) (s.unsigned fc) (s.unsigned fd) s.coder.blockLen ∨
        Overlap (s.unsigned fb) (s.unsigned fc) (s.unsigned fd) s.coder.blockLen →
      exec (.corr fd fa fb fc) s = .next (s.errorEntry .overlap)) :=
  ⟨fun hout => command_of_raise <| (requireCoder_bind_of_ok hok).trans <| checkRange_bind_raises <|
      hout.imp_right fun hout => checkRange_bind_raises <| hout.imp_right fun hmag =>
      checkRange_bind_raises (.inl hmag),
    fun hblk hloc hmag hover => command_of_raise <| (requireCoder_bind_of_ok hok).trans <|
      (checkRange_bind_of_inRange hblk).trans <| (checkRange_bind_of_inRange hloc).trans <|
      (checkRange_bind_of_inRange hmag).trans <| checkOverlap_bind_raises <| hover.imp_right fun hmag =>
      checkOverlap_bind_raises (.inl hmag)⟩

end Commands

/-- Settles O12: the first of a command's checks that is not passed raises its error. -/
theorem memoryChecksComeInOrder : Obligations.MemoryChecksComeInOrder := by
  intro s
  refine ⟨fun fd fa fb => exec_pld_checks fd, exec_pst_checks, fun fd fa fb fc hok => ?_, exec_synd_checks,
    exec_chien_checks, exec_forney_checks, exec_corr_checks⟩
  obtain ⟨hencRange, hencOverlap⟩ := exec_enc_checks fd fa fb fc hok rfl
  exact ⟨hencRange, hencOverlap, exec_dec_checks fd fa fb fc hok rfl⟩

end Sys2Proof.Proofs
end

section
/-! SUPPORT. Words and their fields as numbers (30_encoding.md R91, R95): a word is its fields side by side,
so each field is a quotient and a remainder of it. -/

namespace Sys2Proof.Proofs

/-! ### The formats as numbers -/

/-- Fields side by side: the lower one fills the bits below the higher one. -/
theorem shiftLeft_or_shiftLeft (x k : Nat) {y n : Nat} (hy : y < 2 ^ n) :
    x <<< (n + k) ||| y <<< k = (x * 2 ^ n + y) <<< k := by
  rw [Nat.shiftLeft_add, ← Nat.shiftLeft_or_distrib, ← Nat.shiftLeft_add_eq_or_of_lt hy, Nat.shiftLeft_eq x n]

/-- A field moved to its place in a word loses no bit. -/
theorem toNat_shiftLeft_field {x : Word} {v n : Nat} (hx : x.toNat < 2 ^ v) (h : v + n ≤ 32) :
    (x <<< n).toNat = x.toNat <<< n := by
  have hfit : x.toNat * 2 ^ n < 2 ^ 32 :=
    calc x.toNat * 2 ^ n < 2 ^ v * 2 ^ n := Nat.mul_lt_mul_of_pos_right hx (Nat.two_pow_pos n)
      _ = 2 ^ (v + n) := (Nat.pow_add 2 v n).symm
      _ ≤ 2 ^ 32 := Nat.pow_le_pow_right two_pos h
  rw [BitVec.toNat_shiftLeft, Nat.shiftLeft_eq, Nat.mod_eq_of_lt hfit]

theorem opcode_shiftLeft_toNat (op : BitVec 6) : (op.setWidth 32 <<< 26).toNat = op.toNat <<< 26 := by
  have hval : (op.setWidth 32).toNat = op.toNat := BitVec.toNat_setWidth_of_le (by decide)
  rw [toNat_shiftLeft_field (v := 6) (hval.trans_lt op.isLt) (by decide), hval]

theorem register_shiftLeft_toNat (f : Fin 8) {n : Nat} (h : 3 + n ≤ 32) :
    (BitVec.ofNat 32 f.val <<< n).toNat = f.val <<< n := by
  have hval : (BitVec.ofNat 32 f.val).toNat = f.val := Nat.mod_eq_of_lt (f.isLt.trans (by decide))
  rw [toNat_shiftLeft_field (v := 3) (hval.trans_lt f.isLt) h, hval]

theorem formatN_toNat (op : BitVec 6) : (formatN op).toNat = op.toNat * 2 ^ 26 :=
  (opcode_shiftLeft_toNat op).trans (Nat.shiftLeft_eq _ _)

theorem formatI_toNat (op : BitVec 6) (fd : Fin 8) (imm : Half) :
    (formatI op fd imm).toNat = (op.toNat * 2 ^ 3 + fd.val) * 2 ^ 23 + imm.toNat := by
  have himm : imm.toNat < 2 ^ 23 := imm.isLt.trans (by decide)
  rw [formatI, BitVec.toNat_or, BitVec.toNat_or, opcode_shiftLeft_toNat,
    register_shiftLeft_toNat fd (by decide), shiftLeft_or_shiftLeft _ 23 (n := 3) fd.isLt,
    BitVec.toNat_setWidth_of_le (by decide), ← Nat.shiftLeft_add_eq_or_of_lt himm, Nat.shiftLeft_eq]

theorem formatR_toNat (op : BitVec 6) (fd fa fb fc : Fin 8) :
    (formatR op fd fa fb fc).toNat =
      ((((op.toNat * 2 ^ 3 + fd.val) * 2 ^ 3 + fa.val) * 2 ^ 3 + fb.val) * 2 ^ 3 + fc.val) * 2 ^ 14 := by
  simp only [formatR, BitVec.toNat_or, opcode_shiftLeft_toNat]
  rw [register_shiftLeft_toNat fd (by decide), register_shiftLeft_toNat fa (by decide),
    register_shiftLeft_toNat fb (by decide), register_shiftLeft_toNat fc (by decide),
    shiftLeft_or_shiftLeft _ 23 (n := 3) fd.isLt,
    shiftLeft_or_shiftLeft _ 20 (n := 3) fa.isLt, shiftLeft_or_shiftLeft _ 17 (n := 3) fb.isLt,
    shiftLeft_or_shiftLeft _ 14 (n := 3) fc.isLt, Nat.shiftLeft_eq]

/-! ### The fields as numbers -/

section Fields

variable (w : Word)

theorem bits_toNat (start len : Nat) : (w.extractLsb' start len).toNat = w.toNat / 2 ^ start % 2 ^ len := by
  rw [BitVec.extractLsb'_toNat, Nat.shiftRight_eq_div_pow]

theorem fieldOp_toNat : (fieldOp w).toNat = w.toNat / 2 ^ 26 := by
  have := w.isLt
  rw [fieldOp, bits_toNat]
  omega

theorem fieldD_val : (fieldD w).val = w.toNat / 2 ^ 23 % 8 := bits_toNat w 23 3

theorem fieldA_val : (fieldA w).val = w.toNat / 2 ^ 20 % 8 := bits_toNat w 20 3

theorem fieldB_val : (fieldB w).val = w.toNat / 2 ^ 17 % 8 := bits_toNat w 17 3

theorem fieldC_val : (fieldC w).val = w.toNat / 2 ^ 14 % 8 := bits_toNat w 14 3

theorem fieldImm_toNat : (fieldImm w).toNat = w.toNat % 2 ^ 16 := by
  rw [fieldImm, bits_toNat, Nat.pow_zero, Nat.div_one]

/-- The opcode bits of a word, the other bits set to zero. -/
theorem and_opcodeBits : w &&& 0xFC000000 = formatN (fieldOp w) := by
  have hop : (fieldOp w).setWidth 32 = w >>> 26 := by
    apply BitVec.eq_of_toNat_eq
    rw [BitVec.toNat_setWidth_of_le (by decide), fieldOp_toNat, BitVec.toNat_ushiftRight,
      Nat.shiftRight_eq_div_pow]
  rw [formatN, hop, BitVec.shiftLeft_ushiftRight]
  rfl

end Fields

/-! ### The fields of a word put together from them -/

section Reading

variable (op : BitVec 6) (fd fa fb fc : Fin 8) (imm : Half)

@[simp] theorem fieldOp_formatN : fieldOp (formatN op) = op := by
  apply BitVec.eq_of_toNat_eq
  rw [fieldOp_toNat, formatN_toNat]
  omega

@[simp] theorem fieldD_formatI : fieldD (formatI op fd imm) = fd := by
  apply Fin.ext
  rw [fieldD_val, formatI_toNat]
  omega

@[simp] theorem fieldImm_formatI : fieldImm (formatI op fd imm) = imm := by
  apply BitVec.eq_of_toNat_eq
  rw [fieldImm_toNat, formatI_toNat]
  omega

@[simp] theorem fieldD_formatR : fieldD (formatR op fd fa fb fc) = fd := by
  apply Fin.ext
  rw [fieldD_val, formatR_toNat]
  omega

@[simp] theorem fieldA_formatR : fieldA (formatR op fd fa fb fc) = fa := by
  apply Fin.ext
  rw [fieldA_val, formatR_toNat]
  omega

@[simp] theorem fieldB_formatR : fieldB (formatR op fd fa fb fc) = fb := by
  apply Fin.ext
  rw [fieldB_val, formatR_toNat]
  omega

@[simp] theorem fieldC_formatR : fieldC (formatR op fd fa fb fc) = fc := by
  apply Fin.ext
  rw [fieldC_val, formatR_toNat]
  omega

end Reading

/-! ### A word put together from its own fields -/

section Writing

variable {w : Word} {op : BitVec 6}

theorem formatN_of_fields (hop : fieldOp w = op) (hlow : w.extractLsb' 0 26 = 0) : formatN op = w := by
  have h : w.toNat / 2 ^ 0 % 2 ^ 26 = 0 := by rw [← bits_toNat, hlow]; rfl
  apply BitVec.eq_of_toNat_eq
  rw [← hop, formatN_toNat, fieldOp_toNat]
  omega

theorem formatI_of_fields {fd : Fin 8} (hop : fieldOp w = op) (hd : fieldD w = fd)
    (hmid : w.extractLsb' 16 7 = 0) : formatI op fd (fieldImm w) = w := by
  have h : w.toNat / 2 ^ 16 % 2 ^ 7 = 0 := by rw [← bits_toNat, hmid]; rfl
  apply BitVec.eq_of_toNat_eq
  rw [← hop, ← hd, formatI_toNat, fieldOp_toNat, fieldD_val, fieldImm_toNat]
  omega

theorem formatR_of_fields {fd fa fb fc : Fin 8} (hop : fieldOp w = op) (hd : fieldD w = fd)
    (ha : fieldA w = fa) (hb : fieldB w = fb) (hc : fieldC w = fc) (hlow : w.extractLsb' 0 14 = 0) :
    formatR op fd fa fb fc = w := by
  have h : w.toNat / 2 ^ 0 % 2 ^ 14 = 0 := by rw [← bits_toNat, hlow]; rfl
  apply BitVec.eq_of_toNat_eq
  rw [← hop, ← hd, ← ha, ← hb, ← hc, formatR_toNat, fieldOp_toNat, fieldD_val, fieldA_val, fieldB_val,
    fieldC_val]
  omega

end Writing

end Sys2Proof.Proofs
end

section
/-! SUPPORT. The opcode map (30_encoding.md R94): decoding said once, by the row of a command and its mask
and match, and the statements that follow from it. -/

namespace Sys2Proof.Proofs

open Sys2Proof.Machine Sys2Proof.Safety

/-! ### The rows -/

/-- The command of the row of `i` that reads its operands from the fields of `w`. -/
def rowAt (i : Instr) (w : Word) : Instr :=
  match i with
  | .endRun => .endRun
  | .nop => .nop
  | .li _ _ => .li (fieldD w) (fieldImm w)
  | .clrf => .clrf
  | .finit _ => .finit (fieldImm w)
  | .gfadd _ _ _ => .gfadd (fieldD w) (fieldA w) (fieldB w)
  | .gfmul _ _ _ => .gfmul (fieldD w) (fieldA w) (fieldB w)
  | .gfinv _ _ => .gfinv (fieldD w) (fieldA w)
  | .gfexp _ _ => .gfexp (fieldD w) (fieldA w)
  | .gflog _ _ => .gflog (fieldD w) (fieldA w)
  | .pld _ _ _ => .pld (fieldD w) (fieldA w) (fieldB w)
  | .pst _ _ _ => .pst (fieldA w) (fieldB w) (fieldC w)
  | .pconst _ _ => .pconst (fieldD w) (fieldA w)
  | .padd _ _ _ => .padd (fieldD w) (fieldA w) (fieldB w)
  | .pmul _ _ _ => .pmul (fieldD w) (fieldA w) (fieldB w)
  | .pscl _ _ _ => .pscl (fieldD w) (fieldA w) (fieldB w)
  | .pmono _ _ _ _ => .pmono (fieldD w) (fieldA w) (fieldB w) (fieldC w)
  | .pdiv _ _ _ _ => .pdiv (fieldD w) (fieldA w) (fieldB w) (fieldC w)
  | .peval _ _ _ => .peval (fieldD w) (fieldA w) (fieldB w)
  | .pdeg _ _ => .pdeg (fieldD w) (fieldA w)
  | .pcoef _ _ _ => .pcoef (fieldD w) (fieldA w) (fieldB w)
  | .pgen _ _ => .pgen (fieldD w) (fieldA w)
  | .cinit _ _ => .cinit (fieldA w) (fieldB w)
  | .enc _ _ _ _ => .enc (fieldD w) (fieldA w) (fieldB w) (fieldC w)
  | .dec _ _ _ _ => .dec (fieldD w) (fieldA w) (fieldB w) (fieldC w)
  | .synd _ _ => .synd (fieldD w) (fieldA w)
  | .kes _ _ _ => .kes (fieldD w) (fieldA w) (fieldC w)
  | .chien _ _ _ => .chien (fieldD w) (fieldA w) (fieldC w)
  | .forney _ _ _ _ => .forney (fieldD w) (fieldA w) (fieldB w) (fieldC w)
  | .corr _ _ _ _ => .corr (fieldD w) (fieldA w) (fieldB w) (fieldC w)

/-- The must-be-zero bits of a row (30_encoding.md R96 (b)): its mask without the opcode bits. -/
def reservedBits (i : Instr) : Word := i.mask &&& 0x03FFFFFF

theorem rowAt_opcode (i : Instr) (w : Word) : (rowAt i w).opcode = i.opcode := by cases i <;> rfl

/-- Every mask covers the opcode. -/
theorem mask_eq_or (i : Instr) : i.mask = 0xFC000000 ||| reservedBits i := by
  cases i <;> (rw [reservedBits, Instr.mask]; rfl)

theorem mask_and_opcodeBits (i : Instr) : i.mask &&& 0xFC000000 = 0xFC000000 := by
  cases i <;> (rw [Instr.mask]; rfl)

@[simp] theorem formatN_and_opcodeBits (op : BitVec 6) : formatN op &&& 0xFC000000 = formatN op := by
  rw [and_opcodeBits, fieldOp_formatN]

@[simp] theorem formatN_and_operandBits (op : BitVec 6) : formatN op &&& 0x03FFFFFF = 0 := by
  rw [← formatN_and_opcodeBits, BitVec.and_assoc]
  exact BitVec.and_zero

theorem formatN_injective {op op' : BitVec 6} (h : formatN op = formatN op') : op = op' := by
  simpa using congrArg fieldOp h

/-- A word meets the mask and match of a row when it has the row's opcode and no reserved bit. -/
theorem meetsRow_iff (w : Word) (i : Instr) :
    w &&& i.mask = i.pattern ↔ fieldOp w = i.opcode ∧ w &&& reservedBits i = 0 := by
  have hsplit : w &&& i.mask = formatN (fieldOp w) ||| w &&& reservedBits i := by
    rw [mask_eq_or, BitVec.and_or_distrib_left, and_opcodeBits]
  constructor
  · intro h
    constructor
    · have hopcode : w &&& 0xFC000000 = i.pattern &&& 0xFC000000 := by
        rw [← h, BitVec.and_assoc, mask_and_opcodeBits]
      rw [and_opcodeBits, Instr.pattern, formatN_and_opcodeBits] at hopcode
      exact formatN_injective hopcode
    · rw [reservedBits, ← BitVec.and_assoc, h]
      exact formatN_and_operandBits _
  · rintro ⟨hop, hres⟩
    rw [hsplit, hop, hres]
    exact BitVec.or_zero

/-! ### Decoding by rows -/

theorem accept_eq_ok {w r : Word} {i j : Instr} : accept w r i = .ok j ↔ w &&& r = 0 ∧ i = j := by
  unfold accept
  split <;> simp_all

/-- A word with the opcode of a row is that row's command, unless a reserved bit is set. -/
theorem decode_of_fieldOp {w : Word} {i : Instr} (h : fieldOp w = i.opcode) :
    decode w = accept w (reservedBits i) (rowAt i w) := by
  unfold decode
  cases i <;> (rw [h, reservedBits, Instr.mask]; rfl)

/-- What a word decodes to has the word's opcode. -/
theorem fieldOp_of_decode {w : Word} {i : Instr} (h : decode w = .ok i) : fieldOp w = i.opcode := by
  unfold decode at h
  split at h
  case h_31 => cases h
  all_goals
    next hop =>
      obtain ⟨-, rfl⟩ := accept_eq_ok.1 h
      exact BitVec.eq_of_toNat_eq hop

/-- R94: a word decodes to the commands whose row it meets, with the operands in its fields. -/
theorem decode_eq_ok_iff {w : Word} {i : Instr} :
    decode w = .ok i ↔ w &&& i.mask = i.pattern ∧ rowAt i w = i := by
  rw [meetsRow_iff]
  constructor
  · intro h
    have hop := fieldOp_of_decode h
    rw [decode_of_fieldOp hop, accept_eq_ok] at h
    exact ⟨⟨hop, h.1⟩, h.2⟩
  · rintro ⟨⟨hop, hres⟩, hrow⟩
    rw [decode_of_fieldOp hop, accept_eq_ok]
    exact ⟨hres, hrow⟩

theorem decode_of_meetsRow {w : Word} {i : Instr} (h : w &&& i.mask = i.pattern) :
    decode w = .ok (rowAt i w) := by
  obtain ⟨hop, hres⟩ := (meetsRow_iff w i).1 h
  rw [decode_of_fieldOp hop, accept_eq_ok]
  exact ⟨hres, rfl⟩

/-! ### Encoding by rows -/

/-- The word of a well-formed command meets the mask and match of its row. -/
theorem encode_meetsRow (i : Instr) : Laws.MatchesRow.Statement i := by
  cases i with
  | endRun => exact Laws.MatchesRow.endRun
  | nop => exact Laws.MatchesRow.nop
  | li fd imm => exact Laws.MatchesRow.li fd imm
  | clrf => exact Laws.MatchesRow.clrf
  | finit imm => exact Laws.MatchesRow.finit imm
  | gfadd fd fa fb => exact Laws.MatchesRow.gfadd fd fa fb
  | gfmul fd fa fb => exact Laws.MatchesRow.gfmul fd fa fb
  | gfinv fd fa => exact Laws.MatchesRow.gfinv fd fa
  | gfexp fd fa => exact Laws.MatchesRow.gfexp fd fa
  | gflog fd fa => exact Laws.MatchesRow.gflog fd fa
  | pld fd fa fb => exact Laws.MatchesRow.pld fd fa fb
  | pst fa fb fc => exact Laws.MatchesRow.pst fa fb fc
  | pconst fd fa => exact Laws.MatchesRow.pconst fd fa
  | padd fd fa fb => exact Laws.MatchesRow.padd fd fa fb
  | pmul fd fa fb => exact Laws.MatchesRow.pmul fd fa fb
  | pscl fd fa fb => exact Laws.MatchesRow.pscl fd fa fb
  | pmono fd fa fb fc => exact Laws.MatchesRow.pmono fd fa fb fc
  | pdiv fd fa fb fc => exact Laws.MatchesRow.pdiv fd fa fb fc
  | peval fd fa fb => exact Laws.MatchesRow.peval fd fa fb
  | pdeg fd fa => exact Laws.MatchesRow.pdeg fd fa
  | pcoef fd fa fb => exact Laws.MatchesRow.pcoef fd fa fb
  | pgen fd fa => exact Laws.MatchesRow.pgen fd fa
  | cinit fa fb => exact Laws.MatchesRow.cinit fa fb
  | enc fd fa fb fc => exact Laws.MatchesRow.enc fd fa fb fc
  | dec fd fa fb fc => exact Laws.MatchesRow.dec fd fa fb fc
  | synd fd fa => exact Laws.MatchesRow.synd fd fa
  | kes fd fa fc => exact Laws.MatchesRow.kes fd fa fc
  | chien fd fa fc => exact Laws.MatchesRow.chien fd fa fc
  | forney fd fa fb fc => exact Laws.MatchesRow.forney fd fa fb fc
  | corr fd fa fb fc => exact Laws.MatchesRow.corr fd fa fb fc

/-- Every operand of a command stands in its field of the word. -/
theorem rowAt_encode (i : Instr) : rowAt i (encode i) = i := by
  cases i <;> simp [rowAt, encode]

/-- Settles O1: the word meets the row of its command, and the operands are read back from it. -/
theorem decodeInvertsEncode : Obligations.DecodeInvertsEncode := fun i hi =>
  decode_eq_ok_iff.2 ⟨encode_meetsRow i hi, rowAt_encode i⟩

/-! ### Reserved bits -/

section Reserved

variable {w r : Word} (h : w &&& r = 0)

include h

/-- Where every bit of a range is reserved, a word without reserved bits has zeros. -/
theorem bits_eq_zero {start len : Nat} (hr : r.extractLsb' start len = BitVec.allOnes len) :
    w.extractLsb' start len = 0 := by
  have hbits := congrArg (BitVec.extractLsb' start len) h
  rw [BitVec.extractLsb'_and, hr, BitVec.and_allOnes] at hbits
  exact hbits.trans BitVec.extractLsb'_zero

theorem fieldD_eq_zero (hr : r.extractLsb' 23 3 = BitVec.allOnes 3) : fieldD w = 0 :=
  congrArg BitVec.toFin (bits_eq_zero h hr)

theorem fieldB_eq_zero (hr : r.extractLsb' 17 3 = BitVec.allOnes 3) : fieldB w = 0 :=
  congrArg BitVec.toFin (bits_eq_zero h hr)

theorem fieldC_eq_zero (hr : r.extractLsb' 14 3 = BitVec.allOnes 3) : fieldC w = 0 :=
  congrArg BitVec.toFin (bits_eq_zero h hr)

theorem fieldImm_bits_eq_zero (hr : r.extractLsb' 10 6 = BitVec.allOnes 6) :
    (fieldImm w).extractLsb' 10 6 = 0 := by
  have hbits : w.toNat / 2 ^ 10 % 2 ^ 6 = 0 := by rw [← bits_toNat, bits_eq_zero h hr]; rfl
  apply BitVec.eq_of_toNat_eq
  rw [BitVec.extractLsb'_toNat, Nat.shiftRight_eq_div_pow, fieldImm_toNat]
  exact (by omega : w.toNat % 2 ^ 16 / 2 ^ 10 % 2 ^ 6 = 0)

end Reserved

/-! ### Words without reserved bits, by the operands their row has -/

section Shapes

variable {w : Word} {op : BitVec 6} (hop : fieldOp w = op)

include hop

theorem formatN_fields (h : w &&& 0x03FFFFFF = 0) : formatN op = w :=
  formatN_of_fields hop (bits_eq_zero h (by decide))

theorem formatI_fields (h : w &&& 0x007F0000 = 0) : formatI op (fieldD w) (fieldImm w) = w :=
  formatI_of_fields hop rfl (bits_eq_zero h (by decide))

/-- The immediate of `FINIT`, the only operand of its row. -/
theorem formatI_fields_imm (h : w &&& 0x03FFFC00 = 0) : formatI op 0 (fieldImm w) = w :=
  formatI_of_fields hop (fieldD_eq_zero h (by decide)) (bits_eq_zero h (by decide))

theorem formatR_fields_d_a (h : w &&& 0x000FFFFF = 0) : formatR op (fieldD w) (fieldA w) 0 0 = w :=
  formatR_of_fields hop rfl rfl (fieldB_eq_zero h (by decide)) (fieldC_eq_zero h (by decide))
    (bits_eq_zero h (by decide))

theorem formatR_fields_a_b (h : w &&& 0x0381FFFF = 0) : formatR op 0 (fieldA w) (fieldB w) 0 = w :=
  formatR_of_fields hop (fieldD_eq_zero h (by decide)) rfl rfl (fieldC_eq_zero h (by decide))
    (bits_eq_zero h (by decide))

theorem formatR_fields_d_a_b (h : w &&& 0x0001FFFF = 0) : formatR op (fieldD w) (fieldA w) (fieldB w) 0 = w :=
  formatR_of_fields hop rfl rfl rfl (fieldC_eq_zero h (by decide)) (bits_eq_zero h (by decide))

theorem formatR_fields_d_a_c (h : w &&& 0x000E3FFF = 0) : formatR op (fieldD w) (fieldA w) 0 (fieldC w) = w :=
  formatR_of_fields hop rfl rfl (fieldB_eq_zero h (by decide)) rfl (bits_eq_zero h (by decide))

theorem formatR_fields_a_b_c (h : w &&& 0x03803FFF = 0) : formatR op 0 (fieldA w) (fieldB w) (fieldC w) = w :=
  formatR_of_fields hop (fieldD_eq_zero h (by decide)) rfl rfl rfl (bits_eq_zero h (by decide))

theorem formatR_fields_d_a_b_c (h : w &&& 0x00003FFF = 0) :
    formatR op (fieldD w) (fieldA w) (fieldB w) (fieldC w) = w :=
  formatR_of_fields hop rfl rfl rfl rfl (bits_eq_zero h (by decide))

end Shapes

/-- A word is the encoding of what it stands for, for each row by the operands that the row has. -/
theorem encode_rowAt {w : Word} {i : Instr} (hop : fieldOp w = i.opcode) (hres : w &&& reservedBits i = 0) :
    encode (rowAt i w) = w := by
  cases i <;> rw [reservedBits, Instr.mask] at hres
  case endRun | nop | clrf => exact formatN_fields hop hres
  case li => exact formatI_fields hop hres
  case finit => exact formatI_fields_imm hop hres
  case gfinv | gfexp | gflog | pconst | pdeg | pgen | synd => exact formatR_fields_d_a hop hres
  case cinit => exact formatR_fields_a_b hop hres
  case gfadd | gfmul | pld | padd | pmul | pscl | peval | pcoef => exact formatR_fields_d_a_b hop hres
  case kes | chien => exact formatR_fields_d_a_c hop hres
  case pst => exact formatR_fields_a_b_c hop hres
  case pmono | pdiv | enc | dec | forney | corr => exact formatR_fields_d_a_b_c hop hres

/-- The mask of `FINIT` covers bits 15:10 of its immediate; no other row limits its operands. -/
theorem rowAt_wellFormed {w : Word} {i : Instr} (hres : w &&& reservedBits i = 0) :
    (rowAt i w).WellFormed := by
  cases i with
  | finit imm =>
    rw [reservedBits, Instr.mask] at hres
    exact fieldImm_bits_eq_zero hres (by decide)
  | _ => trivial

/-- Settles O2: a word that decodes has no reserved bit, so its opcode and operands are all of it. -/
theorem encodeInvertsDecode : Obligations.EncodeInvertsDecode := by
  intro w i h
  obtain ⟨hmeets, hrow⟩ := decode_eq_ok_iff.1 h
  obtain ⟨hop, hres⟩ := (meetsRow_iff w i).1 hmeets
  exact ⟨hrow ▸ rowAt_wellFormed hres, (congrArg encode hrow).symm.trans (encode_rowAt hop hres)⟩

/-- Settles O3: decoding goes by mask and match, and rows that a word meets share the word's opcode. -/
theorem wordsDecodeByMaskAndMatch : Obligations.WordsDecodeByMaskAndMatch := by
  refine ⟨fun w i h => (decode_eq_ok_iff.1 h).1,
    fun w i h => ⟨rowAt i w, decode_of_meetsRow h, rowAt_opcode i w⟩, fun w i j hi hj => ?_⟩
  obtain ⟨hopi, -⟩ := (meetsRow_iff w i).1 hi
  obtain ⟨hopj, -⟩ := (meetsRow_iff w j).1 hj
  exact hopi.symm.trans hopj

/-- Settles O4: each word is the encoding of its command. -/
theorem wordsOfTheSpecDecode : Obligations.WordsOfTheSpecDecode :=
  ⟨decodeInvertsEncode .endRun trivial, decodeInvertsEncode (.li 2 0x011D) trivial,
    decodeInvertsEncode (.finit 0x011D) (by decide), decodeInvertsEncode (.gfmul 1 2 3) trivial,
    decodeInvertsEncode (.pst 3 1 2) trivial, decodeInvertsEncode (.pdiv 3 1 2 4) trivial,
    decodeInvertsEncode (.cinit 1 2) trivial, decodeInvertsEncode (.enc 4 1 2 3) trivial,
    decodeInvertsEncode (.kes 2 1 3) trivial, decodeInvertsEncode (.forney 6 3 5 4) trivial⟩

/-! ### Words of no row -/

/-- One command of each row of the opcode map (30_encoding.md R94). -/
def rows : List Instr :=
  [.endRun, .nop, .li 0 0, .clrf, .finit 0, .gfadd 0 0 0, .gfmul 0 0 0, .gfinv 0 0, .gfexp 0 0, .gflog 0 0,
    .pld 0 0 0, .pst 0 0 0, .pconst 0 0, .padd 0 0 0, .pmul 0 0 0, .pscl 0 0 0, .pmono 0 0 0 0, .pdiv 0 0 0 0,
    .peval 0 0 0, .pdeg 0 0, .pcoef 0 0 0, .pgen 0 0, .cinit 0 0, .enc 0 0 0 0, .dec 0 0 0 0, .synd 0 0,
    .kes 0 0 0, .chien 0 0 0, .forney 0 0 0 0, .corr 0 0 0 0]

/-- The opcodes that 30_encoding.md R96 (a) lists as those of no row. -/
abbrev UnlistedOpcode (op : BitVec 6) : Prop :=
  op.toNat ∈ [0x00, 0x05, 0x06, 0x07, 0x0E, 0x0F, 0x1C, 0x1D, 0x1E, 0x1F] ∨ 0x28 ≤ op.toNat

theorem opcode_listed (i : Instr) : ¬ UnlistedOpcode i.opcode := by
  cases i <;> (rw [Instr.opcode]; decide)

theorem exists_row_of_listed {op : BitVec 6} (h : ¬ UnlistedOpcode op) : ∃ i : Instr, op = i.opcode := by
  have hrows : ∀ op : BitVec 6, ¬ UnlistedOpcode op → ∃ i ∈ rows, op = i.opcode := by decide
  obtain ⟨i, -, hi⟩ := hrows op h
  exact ⟨i, hi⟩

/-- R96: no row matches a word with an unlisted opcode or a reserved bit; a row matches every other word. -/
theorem no_row_iff (w : Word) :
    (∀ i : Instr, w &&& i.mask ≠ i.pattern) ↔
      UnlistedOpcode (fieldOp w) ∨ ∃ i : Instr, fieldOp w = i.opcode ∧ w &&& reservedBits i ≠ 0 := by
  simp only [ne_eq, meetsRow_iff]
  constructor
  · intro h
    by_cases hop : UnlistedOpcode (fieldOp w)
    · exact .inl hop
    · obtain ⟨i, hi⟩ := exists_row_of_listed hop
      exact .inr ⟨i, hi, fun hres => h i ⟨hi, hres⟩⟩
  · rintro (hop | ⟨i, hi, hres⟩) j ⟨hj, hresj⟩
    · exact opcode_listed j (hj ▸ hop)
    · have hok := decode_of_fieldOp hj
      rw [decode_of_fieldOp hi, accept, accept, if_neg hres, if_pos hresj] at hok
      cases hok

theorem decode_rejects {w : Word} (h : ∀ i : Instr, w &&& i.mask ≠ i.pattern) : ∃ e, decode w = .error e := by
  cases hdec : decode w with
  | error e => exact ⟨e, rfl⟩
  | ok i => exact absurd (decode_eq_ok_iff.1 hdec).1 (h i)

/-- An illegal word at `pc` raises `ILLEGAL` (40_control.md R112). -/
theorem step_of_no_row {s : State} (hin : s.inputs = []) (hrun : s.status.run = true)
    (h : ∀ i : Instr, fetchWord s &&& i.mask ≠ i.pattern) : step s = .next (s.errorEntry .illegal) := by
  obtain ⟨e, he⟩ := decode_rejects h
  simp [step, nextEvent, hin, sequencerStep, hrun, runCommand, he]

/-- Settles O5: the words of no row are those that the decoder rejects. -/
theorem unlistedWordsRaiseIllegal : Obligations.UnlistedWordsRaiseIllegal := by
  refine ⟨fun s hin hrun h => step_of_no_row hin hrun h, fun w => ?_, by decide⟩
  have h := no_row_iff w
  simpa only [reservedBits, ← BitVec.and_assoc] using h

end Sys2Proof.Proofs
end

section
/-! SUPPORT. The frame of every command: what it leaves alone, read off from what it writes when it
completes. -/

namespace Sys2Proof.Proofs

open Sys2Proof.Machine Sys2Proof.Safety

/-- What no command writes: the enables, the parameter `DMEM0`, and the model's own fields. -/
def surroundings (s : State) : Ctrl × Memory × List Event × Word × Nat :=
  (s.ctrl, s.dmem0, s.inputs, s.hostData, s.freeCount)

/-- `CAUSE`, `EPC` and `INFO` (10_state.md R24). -/
def errorRecord (s : State) : CauseReg × Half × Word := (s.cause, s.epc, s.info)

/-! ### Commands that complete -/

/-- What a decode failure keeps, `DEC` keeps if its stores do. -/
theorem finishDecode_keeps {α : Type} (s : State) (fd : RIdx) (dst : Nat) (t : DecodeTally) (f : State → α)
    (hfail : ∀ s r, f (s.decodeFail r) = f s) :
    f (s.finishDecode fd dst t) = f ((s.storeBytes dst t.out).setReg fd (BitVec.ofNat 16 t.fails)) := by
  obtain e | ⟨r, e⟩ := finishDecode_cases s fd dst t
  · rw [e]
  · rw [e, hfail]

section Completed

variable {s u : State} {i : Instr} (h : Completes s i u)

include h

theorem Completes.reg_eq {r : RIdx} (hr : r ∉ destR i) : u.reg r = s.reg r := by
  cases h with
  | reg dest v => exact State.reg_setReg_ne _ _ (by simpa [dest] using hr)
  | storeReg _ dest _ v => exact State.reg_setReg_ne (s.storeBytes _ _) _ (by simpa [dest] using hr)
  | dec fd fa fb fc t _ =>
    exact (finishDecode_keeps s fd _ t (·.reg r) fun _ _ => rfl).trans <|
      State.reg_setReg_ne (s.storeBytes _ _) _ (List.ne_of_not_mem_cons hr)
  | _ => rfl

theorem Completes.poly_eq {p : PIdx} (hp : p ∉ destP i) : u.poly p = s.poly p := by
  cases h with
  | poly dest _ => exact State.poly_setPoly_ne _ _ (by simpa [dest] using hp)
  | polys dest _ =>
    rw [dest, List.mem_pair, not_or] at hp
    exact (State.poly_setPoly_ne _ _ hp.2).trans (State.poly_setPoly_ne _ _ hp.1)
  | synd fd fa z _ => exact State.poly_setPoly_ne s _ (List.ne_of_not_mem_cons hp)
  | dec fd fa fb fc t _ => exact finishDecode_keeps s fd _ t (·.poly p) fun _ _ => rfl
  | _ => rfl

theorem Completes.mem_eq (hi : stores i = false) : u.mem = s.mem := by
  cases h with
  | store isStore _ | storeReg isStore _ _ _ => cases isStore.symm.trans hi
  | dec => cases hi
  | _ => rfl

theorem Completes.surroundings_eq : surroundings u = surroundings s := by
  cases h with
  | dec fd fa fb fc t _ => exact finishDecode_keeps s fd _ t surroundings fun _ _ => rfl
  | _ => rfl

theorem Completes.errorRecord_eq : errorRecord u = errorRecord s := by
  cases h with
  | dec fd fa fb fc t _ => exact finishDecode_keeps s fd _ t errorRecord fun _ _ => rfl
  | _ => rfl

theorem Completes.status_eq (hi : i ≠ .endRun) : u.status = s.status := by
  cases h with
  | endRun => exact absurd rfl hi
  | dec fd fa fb fc t _ => exact finishDecode_keeps s fd _ t (·.status) fun _ _ => rfl
  | _ => rfl

end Completed

/-! ### The bytes outside the operand that is stored to -/

theorem FillsStoreRange.read_outside {i : Instr} {s : State} {bytes : List Byte}
    (fills : FillsStoreRange i s bytes) (hmem : s.mem.wf) {c : Nat}
    (hc : c < (storeRange i s).1 ∨ (storeRange i s).1 + (storeRange i s).2 ≤ c) :
    (s.mem.writeBytes (storeRange i s).1 bytes).read c = s.mem.read c := by
  obtain ⟨hlen, hrange⟩ := fills
  rw [← hlen] at hc hrange
  exact Memory.read_writeBytes_outside hmem (hrange.imp_left List.length_eq_zero_iff.1) hc

theorem Completes.read_outside {s u : State} {i : Instr} (h : Completes s i u) (hinv : Inv s) {c : Nat}
    (hc : c < (storeRange i s).1 ∨ (storeRange i s).1 + (storeRange i s).2 ≤ c) :
    u.mem.read c = s.mem.read c := by
  cases h with
  | store _ fills | storeReg _ _ fills _ => exact (fills hinv).read_outside hinv.mem hc
  | dec fd fa fb fc t fills =>
    exact (finishDecode_keeps s fd _ t (·.mem.read c) fun _ _ => rfl).trans <|
      (fills hinv).read_outside hinv.mem hc
  | _ => rfl

/-! ### Every command, however it ends -/

section Commands

variable {s t : State} {i : Instr} (h : exec i s = .next t)

include h

/-- What error entry, a decode failure and the advance of `pc` keep, a command keeps if it does when it
completes. -/
theorem exec_keeps {α : Type} (f : State → α) (hadvance : ∀ s, f s.advance = f s)
    (herror : ∀ s c, f (s.errorEntry c) = f s) (hfail : ∀ s r, f (s.decodeFail r) = f s)
    (hdone : ∀ u, Completes s i u → f u = f s) : f t = f s := by
  obtain ⟨u, hu, rfl⟩ | ⟨c, rfl⟩ | ⟨r, -, rfl⟩ := exec_cases h
  · exact (hadvance u).trans (hdone u hu)
  · exact herror s c
  · exact (hadvance _).trans (hfail s r)

theorem exec_reg_eq {r : RIdx} (hr : r ∉ destR i) : t.reg r = s.reg r :=
  exec_keeps h (·.reg r) (fun _ => rfl) (fun _ _ => rfl) (fun _ _ => rfl) fun _ hu => hu.reg_eq hr

theorem exec_poly_eq {p : PIdx} (hp : p ∉ destP i) : t.poly p = s.poly p :=
  exec_keeps h (·.poly p) (fun _ => rfl) (fun _ _ => rfl) (fun _ _ => rfl) fun _ hu => hu.poly_eq hp

theorem exec_mem_eq (hi : stores i = false) : t.mem = s.mem :=
  exec_keeps h (·.mem) (fun _ => rfl) (fun _ _ => rfl) (fun _ _ => rfl) fun _ hu => hu.mem_eq hi

theorem exec_read_outside (hinv : Inv s) {c : Nat}
    (hc : c < (storeRange i s).1 ∨ (storeRange i s).1 + (storeRange i s).2 ≤ c) :
    t.mem.read c = s.mem.read c :=
  exec_keeps h (·.mem.read c) (fun _ => rfl) (fun _ _ => rfl) (fun _ _ => rfl) fun _ hu =>
    hu.read_outside hinv hc

theorem exec_surroundings_eq : t.ctrl = s.ctrl ∧ t.dmem0 = s.dmem0 ∧ t.inputs = s.inputs ∧
    t.hostData = s.hostData ∧ t.freeCount = s.freeCount := by
  have hkeeps : surroundings t = surroundings s :=
    exec_keeps h surroundings (fun _ => rfl) (fun _ _ => rfl) (fun _ _ => rfl) fun _ hu =>
      hu.surroundings_eq
  simpa only [surroundings, Prod.mk.injEq] using hkeeps

theorem exec_coder_eq (hfinit : ∀ imm, i ≠ .finit imm) (hcinit : ∀ fa fb, i ≠ .cinit fa fb) :
    t.coder = s.coder := by
  refine exec_keeps h (·.coder) (fun _ => rfl) (fun _ _ => rfl) (fun _ _ => rfl) fun u hu => ?_
  obtain e | ⟨imm, e, -⟩ | ⟨fa, fb, e, -⟩ := hu.coder_cases
  · exact e
  · exact absurd e (hfinit imm)
  · exact absurd e (hcinit fa fb)

/-- A command that raises no error keeps the error record, and `STATUS` unless it is `END`. -/
theorem exec_status_of_no_error (herr : t.status.err = false) :
    (i ≠ .endRun → t.status = s.status) ∧ t.cause = s.cause ∧ t.epc = s.epc ∧ t.info = s.info := by
  obtain ⟨u, hu, rfl⟩ | ⟨c, rfl⟩ | ⟨r, -, rfl⟩ := exec_cases h
  · exact ⟨hu.status_eq, by simpa [errorRecord] using hu.errorRecord_eq⟩
  · cases herr
  · exact ⟨fun _ => rfl, rfl, rfl, rfl⟩

end Commands

/-! ### The flags -/

theorem eq_kes_of_mem_reportReasons {i : Instr} {r : DFReason} (hi : stores i = false)
    (hr : r ∈ reportReasons i) : ∃ fd fa fc, i = .kes fd fa fc := by
  cases i with
  | kes fd fa fc => exact ⟨fd, fa, fc, rfl⟩
  | dec | chien | corr => cases hi
  | _ => exact absurd hr List.not_mem_nil

theorem exec_flags_of_not_stores {i : Instr} {s t : State} (hi : stores i = false) (h : exec i s = .next t) :
    (i ≠ .clrf → (∀ fd fa, i ≠ .synd fd fa) → (∀ fd fa fc, i ≠ .kes fd fa fc) → t.flags = s.flags) ∧
      (∀ fd fa, i = .synd fd fa → t.flags = { s.flags with z := t.flags.z }) ∧
      ∀ fd fa fc, i = .kes fd fa fc → t.flags.z = s.flags.z := by
  obtain e | ⟨rfl, -⟩ | ⟨fd, fa, z, rfl, e⟩ | ⟨r, hr, -, e⟩ := exec_flags_cases h
  · rw [e]
    exact ⟨fun _ _ _ => rfl, fun _ _ _ => rfl, fun _ _ _ _ => rfl⟩
  · exact ⟨fun hne => absurd rfl hne, nofun, nofun⟩
  · rw [e]
    exact ⟨fun _ hne => absurd rfl (hne fd fa), fun _ _ _ => rfl, nofun⟩
  · obtain ⟨fd, fa, fc, rfl⟩ := eq_kes_of_mem_reportReasons hi hr
    rw [e]
    exact ⟨fun _ _ hne => absurd rfl (hne fd fa fc), nofun, fun _ _ _ _ => rfl⟩

theorem exec_flags_of_stores {i : Instr} {s t : State} (hi : stores i = true) (h : exec i s = .next t) :
    t.flags.z = s.flags.z ∧ (mayFailDecoding i = false → t.flags = s.flags) := by
  obtain e | ⟨rfl, -⟩ | ⟨fd, fa, z, rfl, -⟩ | ⟨r, hr, -, e⟩ := exec_flags_cases h
  · rw [e]
    exact ⟨rfl, fun _ => rfl⟩
  · cases hi
  · cases hi
  · exact ⟨by rw [e], fun hno => by cases (mayFailDecoding_of_mem hr).symm.trans hno⟩

/-! ### The statements -/

/-- Settles O27: what such a command writes when it completes leaves the rest alone, and so do its errors
and its decode failures. -/
theorem frameOfCommandsThatStoreNothing : Obligations.FrameOfCommandsThatStoreNothing := by
  intro i s t hi h
  obtain ⟨hctrl, hdmem0, hinputs, hdata, hcount⟩ := exec_surroundings_eq h
  obtain ⟨hflags, hsynd, hkes⟩ := exec_flags_of_not_stores hi h
  exact ⟨fun r => exec_reg_eq h, fun p => exec_poly_eq h, fun a => by rw [exec_mem_eq h hi], hctrl, hdmem0,
    hinputs, hdata, hcount, hflags, hsynd, hkes, fun hfinit => exec_field_of_ne_finit hfinit h,
    exec_coder_eq h, fun _ => exec_status_of_no_error h⟩

theorem destP_of_stores {i : Instr} (hi : stores i = true) : destP i = [] := by
  cases i <;> cases hi <;> rfl

theorem ne_of_stores {i j : Instr} (hi : stores i = true) (hj : stores j = false) : i ≠ j := by
  rintro rfl
  cases hi.symm.trans hj

/-- Settles O28: the bytes that are stored fill the operand, and no such command writes the rest. -/
theorem frameOfStoringCommands : Obligations.FrameOfStoringCommands := by
  intro i s t hinv hi h
  have hfinit (imm : Half) : i ≠ .finit imm := ne_of_stores hi rfl
  have hcinit (fa fb : RIdx) : i ≠ .cinit fa fb := ne_of_stores hi rfl
  have hpolys : t.polys = s.polys :=
    State.polys_ext fun p => exec_poly_eq h (by simp [destP_of_stores hi])
  obtain ⟨hctrl, hdmem0, hinputs, hdata, hcount⟩ := exec_surroundings_eq h
  obtain ⟨hz, hflags⟩ := exec_flags_of_stores hi h
  exact ⟨fun a n c hrange hc => exec_read_outside h hinv (by rwa [hrange]), fun r => exec_reg_eq h, hpolys,
    exec_field_of_ne_finit hfinit h, exec_coder_eq h hfinit hcinit, hctrl, hdmem0, hinputs, hdata, hcount, hz,
    hflags, fun _ herr => (exec_status_of_no_error h herr).imp_left fun hstatus =>
      hstatus (ne_of_stores hi rfl)⟩

end Sys2Proof.Proofs
end

section
/-! SUPPORT. Control (40_control.md): which turn a step is, how a run starts, and how every command ends. -/

namespace Sys2Proof.Proofs

open Sys2Proof.Machine Sys2Proof.Safety

/-! ### How a command ends (40_control.md R118, R119) -/

theorem exec_total (i : Instr) (s : State) : ∃ t, exec i s = .next t := by
  obtain ⟨x, e, -⟩ := commandEnds i s
  rw [e]
  exact command_total s x

section Completed

variable {s u : State} {i : Instr}

theorem Completes.pc_eq (h : Completes s i u) : u.pc = s.pc := by
  cases h with
  | dec fd fa fb fc t _ => exact finishDecode_keeps s fd _ t (·.pc) fun _ _ => rfl
  | _ => rfl

/-- Not even `END` writes `ERR`, which `Completes.status_eq` leaves out. -/
theorem Completes.err_eq (h : Completes s i u) : u.status.err = s.status.err := by
  cases h with
  | dec fd fa fb fc t _ => exact finishDecode_keeps s fd _ t (·.status.err) fun _ _ => rfl
  | _ => rfl

/-- `END` ends the run (40_control.md R114). -/
theorem Completes.run_done_of_endRun (h : Completes s .endRun u) :
    u.status.run = false ∧ u.status.done = true := by
  cases h with
  | endRun => exact ⟨rfl, rfl⟩
  | reg dest | poly dest | polys dest => cases dest
  | store isStore | storeReg isStore => cases isStore

end Completed

/-- Settles O7: a command that completes keeps `pc` and the error record up to the advance, a decode failure
writes flags only, and all else is error entry. -/
theorem commandsAdvanceOrRaise : Obligations.CommandsAdvanceOrRaise := by
  intro i s
  obtain ⟨t, h⟩ := exec_total i s
  refine ⟨t, h, ?_⟩
  obtain ⟨u, hu, rfl⟩ | ⟨c, rfl⟩ | ⟨r, hr, rfl⟩ := exec_cases h
  · obtain ⟨hcause, hepc, hinfo⟩ : u.cause = s.cause ∧ u.epc = s.epc ∧ u.info = s.info := by
      simpa [errorRecord] using hu.errorRecord_eq
    exact .inl ⟨congrArg (· + 4) hu.pc_eq, hcause, hepc, hinfo, hu.err_eq,
      fun hi => (hi ▸ hu).run_done_of_endRun, hu.status_eq⟩
  · exact .inr ⟨c, rfl⟩
  · have hne : i ≠ .endRun := by
      rintro rfl
      exact List.not_mem_nil hr
    exact .inl ⟨rfl, rfl, rfl, rfl, rfl, fun hi => absurd hi hne, fun _ => rfl⟩

/-- Settles O29: none of the four makes a check, so each completes with the writes of its rule. -/
theorem controlCommandsComplete : Obligations.ControlCommandsComplete := fun s =>
  ⟨rfl, rfl, fun fd imm => ⟨(s.setReg fd imm).advance, rfl, s.reg_setReg_same fd imm,
    fun _ => s.reg_setReg_ne imm, rfl⟩, rfl⟩

/-! ### Whose turn it is (40_control.md R112, 70_reset_and_hazards.md R334) -/

theorem decodeBytes_four (b0 b1 b2 b3 : Byte) (rest : List Byte) :
    decodeBytes (b0 :: b1 :: b2 :: b3 :: rest) = (decode (wordOfBytes b0 b1 b2 b3)).map (·, rest) := by
  rw [decodeBytes]
  cases decode (wordOfBytes b0 b1 b2 b3) <;> rfl

section Turn

variable {s : State}

/-- The word that is fetched is the four bytes at `pc` (20_memory.md R62). -/
theorem decode_fetchWord {i : Instr} (h : decodeBytes (s.loadBytes s.pc.toNat 4) = .ok (i, [])) :
    decode (fetchWord s) = .ok i := by
  have hbytes : (decode (fetchWord s)).map (·, []) = .ok (i, []) :=
    (decodeBytes_four _ _ _ _ []).symm.trans h
  cases hdec : decode (fetchWord s) with
  | ok j =>
    rw [hdec] at hbytes
    cases hbytes
    rfl
  | error e =>
    rw [hdec] at hbytes
    cases hbytes

theorem sequencerStep_of_run {i : Instr} (hrun : s.status.run = true) (hi : decode (fetchWord s) = .ok i) :
    sequencerStep s = exec i s := by
  rw [sequencerStep, if_pos hrun, runCommand, hi]

theorem sequencerStep_of_idle (hidle : s.status.run = false) : sequencerStep s = .next s := by
  simp [sequencerStep, hidle]

theorem step_of_nil (hin : s.inputs = []) : step s = sequencerStep s := by
  rw [step, nextEvent, hin]

theorem step_of_sequencer {rest : List Event} (hin : s.inputs = .sequencer :: rest) :
    step s = sequencerStep { s with inputs := rest } := by
  rw [step, nextEvent, hin]

theorem step_of_host {a : HostAccess} {rest : List Event} (hin : s.inputs = .host a :: rest) :
    step s = .next (hostAccess { s with inputs := rest } a) := by
  rw [step, nextEvent, hin]

theorem step_of_reset {rest : List Event} (hin : s.inputs = .reset :: rest) :
    step s = .next (resetMachine { s with inputs := rest }) := by
  rw [step, nextEvent, hin]

end Turn

/-- Settles O6: the head of the queue says whose turn it is, and the sequencer's turn runs what the fetched
word decodes to. -/
theorem stepRunsTheDecodedCommand : Obligations.StepRunsTheDecodedCommand := by
  refine fun s => ⟨fun i hrun hbytes => ?_, fun hidle => ?_, fun a rest => step_of_host,
    fun rest => step_of_reset⟩
  · have hi := decode_fetchWord hbytes
    exact ⟨fun hin => (step_of_nil hin).trans (sequencerStep_of_run hrun hi),
      fun rest hin => (step_of_sequencer hin).trans
        (sequencerStep_of_run (s := { s with inputs := rest }) hrun hi)⟩
  · exact ⟨fun hin => (step_of_nil hin).trans (sequencerStep_of_idle hidle),
      fun rest hin => (step_of_sequencer hin).trans
        (sequencerStep_of_idle (s := { s with inputs := rest }) hidle)⟩

/-! ### How a run starts (40_control.md R110) -/

section Go

variable (s : State) (v : Word)

theorem writeCtrl_ctrl : (writeCtrl s v).ctrl = { ieDone := v.getLsbD 1, ieErr := v.getLsbD 2 } := by
  unfold writeCtrl
  split <;> rfl

variable {s v}

theorem writeCtrl_of_go (hgo : v.getLsbD 0 = true) (hidle : s.status.run = false)
    (herr : s.status.err = false) :
    writeCtrl s v = { s with
      ctrl := { ieDone := v.getLsbD 1, ieErr := v.getLsbD 2 }
      status := { s.status with run := true, done := false } } :=
  if_pos ⟨hgo, hidle, herr⟩

/-- `GO` is ignored when it is not written, in a run, and after an error. -/
theorem writeCtrl_of_ignored (h : v.getLsbD 0 = false ∨ s.status.run = true ∨ s.status.err = true) :
    writeCtrl s v = { s with ctrl := { ieDone := v.getLsbD 1, ieErr := v.getLsbD 2 } } := by
  refine if_neg fun ⟨hgo, hidle, herr⟩ => ?_
  obtain h | h | h := h
  · exact Bool.false_ne_true (h.symm.trans hgo)
  · exact Bool.false_ne_true (hidle.symm.trans h)
  · exact Bool.false_ne_true (herr.symm.trans h)

end Go

/-- Settles O17: the write reaches `CTRL`, whose three conditions on `GO` the two clauses divide. -/
theorem goStartsARun : Obligations.GoStartsARun := by
  intro s v t
  have ht : t = writeCtrl s v := write_of_register v targetOf_ctrl
  have hctrl : t.ctrl = { ieDone := v.getLsbD 1, ieErr := v.getLsbD 2 } := ht ▸ writeCtrl_ctrl s v
  rw [hctrl]
  exact ⟨rfl, fun hgo hidle herr => ht.trans (writeCtrl_of_go hgo hidle herr),
    fun h => ht.trans (writeCtrl_of_ignored h)⟩

end Sys2Proof.Proofs
end

section
/-! SUPPORT. The laws of a valid field (41_field.md R139): one fact about `gf_mul`, `gf_inv` and `gf_log` each,
from the tables' meaning as powers of `α`. Distributivity comes from the product without tables, which is
linear. -/

namespace Sys2Proof.Proofs

open Sys2Proof.Machine Sys2Proof.Safety

/-- The product without tables is linear in its right factor. -/
theorem carrylessMul_xor_right (prim : BitVec 9) (a b c : Byte) (n : Nat) :
    carrylessMul prim a (b ^^^ c) n = carrylessMul prim a b n ^^^ carrylessMul prim a c n := by
  induction n generalizing a with
  | zero => simp [carrylessMul]
  | succ n ih =>
    simp only [carrylessMul, ih, gfDouble_xor]
    cases a.getLsbD 0
    · simp
    · simp only [if_true]
      ac_rfl

theorem gfMul_comm (F : Field) (a b : Byte) : gfMul F a b = gfMul F b a := by
  simp only [gfMul, or_comm, Nat.add_comm]

@[simp] theorem gfMul_zero_left (F : Field) (a : Byte) : gfMul F 0#8 a = 0#8 := if_pos (.inl rfl)

@[simp] theorem gfMul_zero_right (F : Field) (a : Byte) : gfMul F a 0#8 = 0#8 := if_pos (.inr rfl)

theorem gfInv_zero (F : Field) : gfInv F 0 = raise .inv0 := if_pos rfl

theorem gfLog_zero (F : Field) : gfLog F 0 = raise .log0 := if_pos rfl

section ValidField

variable {F : Field} (h : FieldValid F)
include h

theorem gfMul_one_left (a : Byte) : gfMul F 1 a = a := by
  rw [gfMul_comm, gfMul_eq_carrylessMul h]
  exact carrylessMul_one_right F.prim le_rfl a a.isLt

/-- Among non-zero bytes exponents add; a zero factor makes both products 0. -/
theorem gfMul_assoc (a b c : Byte) : gfMul F (gfMul F a b) c = gfMul F a (gfMul F b c) := by
  by_cases ha : a = 0
  · simp [ha]
  by_cases hb : b = 0
  · simp [hb]
  by_cases hc : c = 0
  · simp [hc]
  obtain ⟨i, -, rfl⟩ := exists_alphaPow h.primitive ha
  obtain ⟨j, -, rfl⟩ := exists_alphaPow h.primitive hb
  obtain ⟨k, -, rfl⟩ := exists_alphaPow h.primitive hc
  simp only [gfMul_alphaPow_any h, Nat.add_assoc]

theorem gfMul_gfAdd (a b c : Byte) : gfMul F a (gfAdd b c) = gfAdd (gfMul F a b) (gfMul F a c) := by
  simp only [gfMul_eq_carrylessMul h, gfAdd, carrylessMul_xor_right]

/-- The inverse of `α^i` is `α^(255 - i)`, and `α^255 = 1`. -/
theorem exists_gfInv {a : Byte} (ha : a ≠ 0) : ∃ v, gfInv F a = .ok v ∧ gfMul F a v = 1 := by
  obtain ⟨i, hi, rfl⟩ := exists_alphaPow h.primitive ha
  refine ⟨alphaPow F.prim (255 - i), ?_, ?_⟩
  · rw [gfInv, if_neg ha, logEntry_alphaPow h hi, gfExp_eq_alphaPow h (by omega)]
  · rw [gfMul_alphaPow_any h, Nat.add_sub_cancel' hi.le, alphaPow_255 h.primitive]

theorem gfLog_alphaPow {i : Nat} (hi : i < 255) : gfLog F (alphaPow F.prim i) = .ok i := by
  rw [gfLog, if_neg (alphaPow_ne_zero h.primitive i), logEntry_alphaPow h hi]

/-- `α` is the byte 2. -/
theorem gfPow_two (n : Nat) : gfPow F 2 n = alphaPow F.prim n := by
  have hα : alphaPow F.prim 1 = 2 := gfDouble_of_lt F.prim 1 (by decide)
  induction n with
  | zero => rfl
  | succ n ih => rw [gfPow, ih, ← hα, gfMul_alphaPow_any h]

end ValidField

/-- Settles O36: the laws one by one; exponentials and logarithms undo each other because both go through
the powers of `α`. -/
theorem fieldLaws : Obligations.FieldLaws := by
  intro F h
  refine ⟨⟨gfMul_comm F, gfMul_assoc h, gfMul_one_left h, gfMul_zero_left F⟩, fun a => exists_gfInv h,
    fun i hi => ?_, fun a ha => ?_, gfMul_gfAdd h⟩
  · rw [gfExp_eq_alphaPow h (hi.trans (by decide)), gfLog_alphaPow h hi]
  · obtain ⟨i, hi, rfl⟩ := exists_alphaPow h.primitive ha
    exact ⟨i, gfLog_alphaPow h hi, gfExp_eq_alphaPow h (hi.trans (by decide))⟩

end Sys2Proof.Proofs
end

section
/-! SUPPORT. The field commands (41_field.md R145, R146, R148 to R150): how each ends, by the checks it makes,
and what `FINIT` builds. -/

namespace Sys2Proof.Proofs

open Sys2Proof.Machine Sys2Proof.Safety

/-! ### `GFINV`, `GFEXP`, `GFLOG` (41_field.md R148, R149, R150) -/

section Operand

variable {s : State} (hok : s.field.fieldOk = true) (fd fa : RIdx)
include hok

/-- `GFINV` ends as `gf_inv` of its operand does. -/
theorem exec_gfinv_of_fieldOk : exec (.gfinv fd fa) s =
    command s ((gfInv s.field (s.elem fa)).map fun v => s.setReg fd (zext16 v)) := by
  change execGfinv fd fa s = _
  rw [execGfinv, requireField_of_ok hok]
  rfl

theorem exec_gfexp_of_fieldOk : exec (.gfexp fd fa) s =
    .next (s.setReg fd (zext16 (gfExp s.field (s.elem fa).toNat))).advance := by
  change execGfexp fd fa s = _
  rw [execGfexp, requireField_of_ok hok]
  rfl

/-- `GFLOG` ends as `gf_log` of its operand does. -/
theorem exec_gflog_of_fieldOk : exec (.gflog fd fa) s =
    command s ((gfLog s.field (s.elem fa)).map fun l => s.setReg fd (BitVec.ofNat 16 l)) := by
  change execGflog fd fa s = _
  rw [execGflog, requireField_of_ok hok]
  rfl

end Operand

/-- Settles O35: with a constructed field each command ends as its function does, whose value R139's laws and
the powers of `α` describe. -/
theorem gfinvGfexpAndGflogComplete : Obligations.GfinvGfexpAndGflogComplete := by
  intro s fd fa hinv hok
  have h := hinv.field hok
  rw [exec_gfinv_of_fieldOk hok, exec_gfexp_of_fieldOk hok, exec_gflog_of_fieldOk hok]
  refine ⟨fun ha => ?_, fun ha => ?_, ⟨_, rfl, ?_⟩, fun ha => ?_, fun ha => ?_⟩
  · obtain ⟨v, hv, hone⟩ := exists_gfInv h ha
    exact ⟨v, by rw [hv]; rfl, by rw [← gfMul_eq_carrylessMul h, hone]⟩
  · rw [ha, gfInv_zero]
    rfl
  · rw [gfExp_eq_alphaPow h (s.elem fa).isLt, gfPow_two h]
  · obtain ⟨i, hi, e⟩ := exists_alphaPow h.primitive ha
    exact ⟨⟨i, hi⟩, by rw [← e, gfLog_alphaPow h hi]; rfl, by rw [gfPow_two h, e]⟩
  · rw [ha, gfLog_zero]
    rfl

/-! ### `FINIT` (41_field.md R131, R132, R133, R145) -/

/-- Check (2) of R132 in the words of the statements. -/
theorem nodup_take_buildExp_iff (prim : BitVec 9) :
    ((buildExp prim).toList.take 255).Nodup ↔ isPrimitive prim = true := by
  rw [buildExp_toList, powersFrom_take _ 255 256 _ (by decide), isPrimitive_iff]

section Finit

variable {imm : Half}

theorem exec_finit_of_degree (s : State) (hdeg : (imm.extractLsb' 0 9).getLsbD 8 = false) :
    exec (.finit imm) s = .next (s.errorEntry (.config .degree)) :=
  congrArg (command s) (if_pos hdeg)

theorem exec_finit_of_not_primitive (s : State) (hdeg : (imm.extractLsb' 0 9).getLsbD 8 = true)
    (hprim : isPrimitive (imm.extractLsb' 0 9) = false) :
    exec (.finit imm) s = .next (s.errorEntry (.config .notPrimitive)) :=
  congrArg (command s) ((if_neg (ne_false_of_eq_true hdeg)).trans (if_pos hprim))

theorem exec_finit_of_primitive (s : State) (hdeg : (imm.extractLsb' 0 9).getLsbD 8 = true)
    (hprim : isPrimitive (imm.extractLsb' 0 9) = true) :
    exec (.finit imm) s = .next (s.installField (imm.extractLsb' 0 9) (imm.getLsbD 9)).advance :=
  congrArg (command s) ((if_neg (ne_false_of_eq_true hdeg)).trans (if_neg (ne_false_of_eq_true hprim)))

end Finit

section Tables

variable {F : Field} (h : FieldValid F)
include h

/-- The entries of `EXP` under their own indices, the wraparound entry included. -/
theorem exp_getElem {i : Nat} (hi : i < 256) : F.exp[i] = alphaPow F.prim i := by
  simpa only [gfExp, Nat.mod_eq_of_lt hi] using gfExp_eq_alphaPow h hi

/-- `LOG[0]` is set last (41_field.md R133). -/
theorem log_zero : F.log[0] = 0 := by simp [h.log, buildLog]

end Tables

/-- Settles O30: the field that `FINIT` installs is valid, so its tables hold the powers of `α` and their
exponents. -/
theorem finitBuildsTheField : Obligations.FinitBuildsTheField := by
  intro s imm hdeg hnodup
  have hprim := (nodup_take_buildExp_iff _).1 hnodup
  refine ⟨_, exec_finit_of_primitive s hdeg hprim, rfl, rfl, rfl, rfl, ?_⟩
  have h : FieldValid (s.installField (imm.extractLsb' 0 9) (imm.getLsbD 9)).advance.field :=
    ⟨hdeg, hprim, rfl, rfl⟩
  generalize (s.installField (imm.extractLsb' 0 9) (imm.getLsbD 9)).advance.field = F at h
  refine ⟨exp_getElem h (by decide), ?_, fun i => ?_, fun i => ?_, log_zero h, fun a ha => ?_⟩
  · rw [exp_getElem h, alphaPow_255 h.primitive]
  · rw [exp_getElem h, exp_getElem h, alphaPow_succ]
  · rw [exp_getElem h, logEntry_alphaPow h i.isLt]
  · obtain ⟨i, hi, e⟩ := exists_alphaPow h.primitive ha
    exact ⟨⟨i, hi⟩, by rw [exp_getElem h, e]⟩

/-- Settles O31: either failing check raises its own sub-cause, check (1) first. -/
theorem finitRejectsBadMasks : Obligations.FinitRejectsBadMasks := by
  refine fun s imm => ⟨fun hdeg => ⟨exec_finit_of_degree s hdeg, rfl⟩, fun hdeg hdup => ⟨?_, rfl⟩⟩
  rw [nodup_take_buildExp_iff, Bool.not_eq_true] at hdup
  exact exec_finit_of_not_primitive s hdeg hdup

/-- The masks of the primitive polynomials of degree 8 (41_field.md R132). -/
def primitiveMasks : List (BitVec 9) :=
  [0x11D, 0x12B, 0x12D, 0x14D, 0x15F, 0x163, 0x165, 0x169, 0x171, 0x187, 0x18D, 0x1A9, 0x1C3, 0x1CF, 0x1E7,
    0x1F5]

/-- The one enumeration of O32: the powers of `α` modulo each of the 128 odd masks of degree 8. -/
theorem isPrimitive_iff_of_odd : ∀ prim : BitVec 9, prim.getLsbD 8 = true → prim.getLsbD 0 = true →
    (isPrimitive prim = true ↔ prim ∈ primitiveMasks) := by decide +kernel

/-- Settles O32: an even mask fails check (2), and the odd ones are enumerated. -/
theorem sixteenMasksArePrimitive : Obligations.SixteenMasksArePrimitive := by
  intro prim
  change _ ↔ prim ∈ primitiveMasks
  have hbits : ∀ p ∈ primitiveMasks, p.getLsbD 8 = true ∧ p.getLsbD 0 = true := by simp [primitiveMasks]
  constructor
  · rintro ⟨hdeg, hprim⟩
    exact (isPrimitive_iff_of_odd prim hdeg (getLsbD_zero_of_isPrimitive hprim)).1 hprim
  · intro hmem
    obtain ⟨hdeg, hodd⟩ := hbits prim hmem
    exact ⟨hdeg, (isPrimitive_iff_of_odd prim hdeg hodd).2 hmem⟩

/-! ### `GFADD` (41_field.md R134, R146) -/

theorem getLsbD_zext16 (v : Byte) (i : Nat) : (zext16 v).getLsbD i = v.getLsbD i := by
  simp only [zext16, BitVec.getLsbD_setWidth, Bool.and_eq_right_iff_imp, decide_eq_true_eq]
  intro hbit
  have := BitVec.lt_of_getLsbD hbit
  omega

theorem getLsbD_elem (s : State) (r : RIdx) {i : Nat} (hi : i < 8) :
    (s.elem r).getLsbD i = (s.reg r).getLsbD i := by
  simp [State.elem, hi]

/-- Settles O33: no check stands before the sum, whose bits are those of the two elements. -/
theorem gfaddXorsLowBytes : Obligations.GfaddXorsLowBytes := by
  intro s fd fa fb
  have hreg (v : Half) : (s.setReg fd v).advance.reg fd = v := s.reg_setReg_same fd v
  refine ⟨_, rfl, fun i hi => ?_, fun i hi => ?_, fun r => s.reg_setReg_ne _, rfl⟩
  · rw [hreg, getLsbD_zext16, gfAdd, BitVec.getLsbD_xor, getLsbD_elem s fa hi, getLsbD_elem s fb hi]
  · rw [hreg, getLsbD_zext16, BitVec.getLsbD_of_ge _ i hi]

end Sys2Proof.Proofs
end

section
/-! SUPPORT. What the laws of a valid field (41_field.md R139) say of XOR, products and powers. -/

namespace Sys2Proof.Proofs

open Sys2Proof.Machine Sys2Proof.Safety

section ValidField

variable {F : Field} (h : FieldValid F)
include h

theorem gfMul_one_right (a : Byte) : gfMul F a 1#8 = a := by rw [gfMul_comm]; exact gfMul_one_left h a

theorem gfMul_xor_right (a b c : Byte) : gfMul F a (b ^^^ c) = gfMul F a b ^^^ gfMul F a c :=
  gfMul_gfAdd h a b c

theorem gfMul_xor_left (a b c : Byte) : gfMul F (a ^^^ b) c = gfMul F a c ^^^ gfMul F b c := by
  simp only [gfMul_comm F _ c, gfMul_xor_right h]

theorem gfMul_ne_zero {a b : Byte} (ha : a ≠ 0) (hb : b ≠ 0) : gfMul F a b ≠ 0 := by
  obtain ⟨i, -, rfl⟩ := exists_alphaPow h.primitive ha
  obtain ⟨j, -, rfl⟩ := exists_alphaPow h.primitive hb
  rw [gfMul_alphaPow_any h]
  exact alphaPow_ne_zero h.primitive _

theorem gfPow_add (x : Byte) (m n : Nat) : gfPow F x (m + n) = gfMul F (gfPow F x m) (gfPow F x n) := by
  induction n with
  | zero => simp [gfPow, gfMul_one_right h]
  | succ n ih => rw [Nat.add_succ, gfPow, ih, gfPow, gfMul_assoc h]

end ValidField

end Sys2Proof.Proofs
end

section
/-! SUPPORT. Polynomials by their coefficients (42_polynomial.md R160–R170): the coefficients of what each
polynomial function builds, and that they determine a polynomial value. -/

namespace Sys2Proof.Proofs

open Sys2Proof.Machine Sys2Proof.Safety

/-! ### XOR sums -/

@[simp] theorem xorRange_zero (f : Nat → Byte) : xorRange 0 f = 0 := rfl

theorem xorSum_append (l m : List Byte) : xorSum (l ++ m) = xorSum l ^^^ xorSum m := by
  induction l with
  | nil => simp [xorSum]
  | cons c l ih => simp [xorSum, ih, BitVec.xor_assoc]

theorem xorRange_succ (n : Nat) (f : Nat → Byte) : xorRange (n + 1) f = xorRange n f ^^^ f n := by
  simp [xorRange, List.range_succ, xorSum_append, xorSum]

theorem xorRange_congr {n : Nat} {f g : Nat → Byte} (h : ∀ i < n, f i = g i) :
    xorRange n f = xorRange n g :=
  congrArg xorSum (List.map_congr_left fun i hi => h i (List.mem_range.1 hi))

theorem xorRange_eq_zero {n : Nat} {f : Nat → Byte} (h : ∀ i, f i = 0) : xorRange n f = 0 := by
  induction n with
  | zero => rfl
  | succ n ih => rw [xorRange_succ, ih, h, BitVec.xor_self]; rfl

/-- Four summands in pairs, paired the other way. -/
theorem xor_xor_comm (a b c d : Byte) : (a ^^^ b) ^^^ (c ^^^ d) = (a ^^^ c) ^^^ (b ^^^ d) := by ac_rfl

theorem xorRange_xor (n : Nat) (f g : Nat → Byte) :
    xorRange n (fun i => f i ^^^ g i) = xorRange n f ^^^ xorRange n g := by
  induction n with
  | zero => simp
  | succ n ih => simp only [xorRange_succ, ih, xor_xor_comm]

/-- A sum with one term. -/
theorem xorRange_single (n k : Nat) (f : Nat → Byte) :
    xorRange n (fun i => if i = k then f i else 0) = if k < n then f k else 0 := by
  induction n with
  | zero => simp
  | succ n ih =>
    rw [xorRange_succ, ih]
    by_cases hk : n = k
    · simp [hk]
    · have hlt : k < n + 1 ↔ k < n := by omega
      simp [hk, hlt]

/-! ### Coefficients of lists -/

@[simp] theorem coefAt_nil (j : Nat) : coefAt [] j = 0 := by simp [coefAt]

theorem coefAt_cons (c : Byte) (cs : List Byte) (j : Nat) :
    coefAt (c :: cs) j = if j = cs.length then c else coefAt cs j := by
  simp only [coefAt_eq_reverse, List.reverse_cons, List.getD_eq_getElem?_getD, List.getElem?_append,
    List.length_reverse]
  rcases Nat.lt_trichotomy j cs.length with hlt | rfl | hgt
  · rw [if_pos hlt, if_neg hlt.ne]
  · simp
  · rw [if_neg hgt.not_gt, if_neg hgt.ne', List.getElem?_eq_none (by simp; omega),
      List.getElem?_eq_none (by simpa using hgt.le)]

theorem coefAt_of_length_le {p : List Byte} {j : Nat} (h : p.length ≤ j) : coefAt p j = 0 := by
  rw [coefAt_eq_reverse]
  exact List.getD_eq_default _ _ (by simpa using h)

theorem coefAt_of_lt {p : Poly} {j : Nat} (hj : j < p.length) : coefAt p j = p[p.length - 1 - j] := by
  have hle : j ≤ deg p := Nat.le_sub_one_of_lt hj
  rw [coefAt, if_pos hle]
  exact List.getD_eq_getElem _ _ _

@[simp] theorem coefAt_zeroPoly (j : Nat) : coefAt zeroPoly j = 0 := by simp [zeroPoly, coefAt_cons]

theorem coefAt_normalize_eq (cs : List Byte) (j : Nat) : coefAt (normalize cs) j = coefAt cs j := by
  rw [coefAt_normalize, coefAt_eq_reverse]

theorem coefAt_zeros_append (n : Nat) (p : List Byte) (j : Nat) : coefAt (zeros n ++ p) j = coefAt p j := by
  rw [← coefAt_normalize_eq, normalize_zeros_append, coefAt_normalize_eq]

@[simp] theorem coefAt_zeros (n j : Nat) : coefAt (zeros n) j = 0 := by
  simpa using coefAt_zeros_append n [] j

/-- Appended zeros move the coefficients up. -/
theorem coefAt_append_zeros (p : List Byte) (d j : Nat) :
    coefAt (p ++ zeros d) j = if j < d then 0 else coefAt p (j - d) := by
  induction p with
  | nil => simp
  | cons c p ih =>
    rw [List.cons_append, coefAt_cons, ih, coefAt_cons, List.length_append, zeros_length]
    rcases Nat.lt_or_ge j d with hj | hj
    · rw [if_pos hj, if_pos hj, if_neg (by omega)]
    · have hiff : j = p.length + d ↔ j - d = p.length := by omega
      simp only [hiff, if_neg hj.not_gt]

theorem coefAt_map {f : Byte → Byte} (hf : f 0 = 0) (p : List Byte) (j : Nat) :
    coefAt (p.map f) j = f (coefAt p j) := by
  induction p with
  | nil => simpa using hf.symm
  | cons c p ih => rw [List.map_cons, coefAt_cons, coefAt_cons, List.length_map, ih, apply_ite f]

theorem coefAt_zipWith_xor {p q : List Byte} (h : p.length = q.length) (j : Nat) :
    coefAt (List.zipWith (· ^^^ ·) p q) j = coefAt p j ^^^ coefAt q j := by
  induction p generalizing q with
  | nil => simp [List.length_eq_zero_iff.1 h.symm]
  | cons a p ih =>
    cases q with
    | nil => simp at h
    | cons b q =>
      have hlen : p.length = q.length := by simpa using h
      rw [List.zipWith_cons_cons, coefAt_cons, coefAt_cons, coefAt_cons, ih hlen, List.length_zipWith,
        ← hlen, Nat.min_self]
      split <;> rfl

/-! ### Coefficients of the polynomial functions -/

theorem coefAt_polyAdd (p q : Poly) (j : Nat) : coefAt (polyAdd p q) j = coefAt p j ^^^ coefAt q j := by
  have hlen : (padLeft (max p.length q.length) p).length = (padLeft (max p.length q.length) q).length := by
    rw [padLeft_length (Nat.le_max_left _ _), padLeft_length (Nat.le_max_right _ _)]
  rw [polyAdd, coefAt_normalize_eq, coefAt_zipWith_xor hlen]
  simp only [padLeft, coefAt_zeros_append]

theorem coefAt_monomial (d : Nat) (c : Byte) (i : Nat) : coefAt (monomial d c) i = if i = d then c else 0 := by
  unfold monomial
  split
  · next hc => simp [hc]
  · simp [coefAt_cons]

theorem coefAt_polyShift (F : Field) (p : Poly) (d : Nat) (c : Byte) (j : Nat) :
    coefAt (polyShift F p d c) j = if j < d then 0 else gfMul F (coefAt p (j - d)) c := by
  unfold polyShift
  split
  · next hc => simp [hc]
  · rw [coefAt_normalize_eq, coefAt_append_zeros, coefAt_map (gfMul_zero_left F c)]

theorem coefAt_polyScale {F : Field} (h : FieldValid F) (p : Poly) (s : Byte) (j : Nat) :
    coefAt (polyScale F p s) j = gfMul F (coefAt p j) s := by
  unfold polyScale
  split
  · next hs => simp [hs]
  · split
    · next hs => rw [hs, gfMul_comm, gfMul_one_left h]
    · rw [coefAt_normalize_eq, coefAt_map (gfMul_zero_left F s)]

/-- The row of a leading coefficient is as long as the rows below it. -/
theorem convolve_row_length (F : Field) (a : Byte) (p : List Byte) {q : List Byte} (hq : q ≠ []) :
    (q.map (gfMul F a) ++ zeros p.length).length = (0 :: convolve F p q).length := by
  have := List.length_pos_iff.2 hq
  simp only [List.length_append, List.length_map, zeros_length, List.length_cons, convolve_length]
  omega

/-- Row by row, each product of two coefficients is added where their degrees say. -/
theorem coefAt_convolve (F : Field) (p : List Byte) {q : List Byte} (hq : q ≠ []) (j : Nat) :
    coefAt (convolve F p q) j = xorRange (j + 1) fun i => gfMul F (coefAt p i) (coefAt q (j - i)) := by
  induction p with
  | nil => rw [convolve, coefAt_zeros, xorRange_eq_zero fun i => by simp]
  | cons a p ih =>
    have hrow (i : Nat) : gfMul F (coefAt (a :: p) i) (coefAt q (j - i)) =
        gfMul F (coefAt p i) (coefAt q (j - i)) ^^^
          (if i = p.length then gfMul F a (coefAt q (j - i)) else 0) := by
      rw [coefAt_cons]
      split
      · next hi => simp [hi, coefAt_of_length_le]
      · simp
    simp only [hrow, xorRange_xor, ← ih, xorRange_single]
    rw [convolve, coefAt_zipWith_xor (convolve_row_length F a p hq), coefAt_append_zeros,
      coefAt_map (gfMul_zero_right F a), BitVec.xor_comm]
    have hzero : coefAt (0 :: convolve F p q) j = coefAt (convolve F p q) j := coefAt_zeros_append 1 _ j
    rw [hzero]
    simp only [Nat.lt_succ_iff, ← Nat.not_lt, ite_not]

theorem coefAt_polyMul (F : Field) (p : Poly) {q : Poly} (hq : q ≠ []) (j : Nat) :
    coefAt (polyMul F p q) j = xorRange (j + 1) fun i => gfMul F (coefAt p i) (coefAt q (j - i)) := by
  unfold polyMul
  split
  · next hz =>
    have hterm (i : Nat) : gfMul F (coefAt p i) (coefAt q (j - i)) = 0 := by
      rcases hz with rfl | rfl <;> simp
    rw [coefAt_zeroPoly, xorRange_eq_zero hterm]
  · rw [coefAt_normalize_eq, coefAt_convolve F p hq]

/-! ### Equality of polynomial values -/

/-- Lists of one length with the same coefficients are the same. -/
theorem eq_of_coefAt_of_length {l m : List Byte} (hlen : l.length = m.length)
    (h : ∀ j, coefAt l j = coefAt m j) : l = m := by
  refine List.reverse_injective (List.ext_getElem (by simpa using hlen) fun j hl hm => ?_)
  have hj := h j
  rwa [coefAt_eq_reverse, coefAt_eq_reverse, List.getD_eq_getElem _ _ hl, List.getD_eq_getElem _ _ hm] at hj

/-- The coefficients determine a polynomial value: padded to one length, two with the same coefficients are
the same list. -/
theorem isValue_ext {p q : Poly} (hp : IsValue p) (hq : IsValue q)
    (h : ∀ j, coefAt p j = coefAt q j) : p = q := by
  have hpad : padLeft (max p.length q.length) p = padLeft (max p.length q.length) q := by
    refine eq_of_coefAt_of_length ?_ fun j => ?_
    · rw [padLeft_length (Nat.le_max_left _ _), padLeft_length (Nat.le_max_right _ _)]
    · rw [padLeft, padLeft, coefAt_zeros_append, coefAt_zeros_append, h]
  rw [← normalize_padLeft hp (max p.length q.length), hpad, normalize_padLeft hq]

end Sys2Proof.Proofs
end

section
/-! SUPPORT. The laws of the polynomial functions in a valid field (42_polynomial.md R171), coefficient by
coefficient, and the bounds on the two loops of the model (log entries 6 and 7). -/

namespace Sys2Proof.Proofs

open Sys2Proof.Machine Sys2Proof.Safety

theorem ne_nil_of_isValue {p : Poly} (hp : IsValue p) : p ≠ [] := by
  rintro rfl
  exact absurd hp (by decide)

theorem isValue_polyAdd (p q : Poly) : IsValue (polyAdd p q) := normalize_form _

theorem isValue_polyMul (F : Field) (p q : Poly) : IsValue (polyMul F p q) :=
  (degLe_polyMul F le_rfl le_rfl).form

theorem isValue_polyShift (F : Field) (p : Poly) (d : Nat) (c : Byte) : IsValue (polyShift F p d c) :=
  (degLe_polyShift F c le_rfl).form

/-! ### Addition and multiplication (42_polynomial.md R171 (a), (b)) -/

theorem polyAdd_polyAdd_self {p : Poly} (hp : IsValue p) (q : Poly) : polyAdd (polyAdd p q) q = p :=
  isValue_ext (isValue_polyAdd _ _) hp fun j => by
    simp only [coefAt_polyAdd, BitVec.xor_assoc, BitVec.xor_self, BitVec.xor_zero]

section ValidField

variable {F : Field} (h : FieldValid F)
include h

theorem polyMul_polyAdd_right (r p : Poly) {q : Poly} (hp : p ≠ []) (hq : q ≠ []) :
    polyMul F r (polyAdd p q) = polyAdd (polyMul F r p) (polyMul F r q) :=
  isValue_ext (isValue_polyMul _ _ _) (isValue_polyAdd _ _) fun j => by
    simp only [coefAt_polyAdd, coefAt_polyMul F r hp, coefAt_polyMul F r hq,
      coefAt_polyMul F r (ne_nil_of_isValue (isValue_polyAdd p q)), gfMul_xor_right h, xorRange_xor]

theorem polyMul_polyAdd_left (p q : Poly) {r : Poly} (hr : r ≠ []) :
    polyMul F (polyAdd p q) r = polyAdd (polyMul F p r) (polyMul F q r) :=
  isValue_ext (isValue_polyMul _ _ _) (isValue_polyAdd _ _) fun j => by
    simp only [coefAt_polyAdd, coefAt_polyMul F _ hr, gfMul_xor_left h, xorRange_xor]

/-! ### Division (42_polynomial.md R171 (c)) -/

omit h in
/-- Multiplying by a monomial scales and shifts. -/
theorem polyMul_monomial (F : Field) (d : Nat) (c : Byte) {b : Poly} (hb : b ≠ []) :
    polyMul F (monomial d c) b = polyShift F b d c :=
  isValue_ext (isValue_polyMul _ _ _) (isValue_polyShift _ _ _ _) fun j => by
    have hterm (i : Nat) : gfMul F (coefAt (monomial d c) i) (coefAt b (j - i)) =
        if i = d then gfMul F c (coefAt b (j - i)) else 0 := by
      rw [coefAt_monomial]
      split <;> simp
    rw [coefAt_polyMul F _ hb, coefAt_polyShift, gfMul_comm F _ c]
    simp only [hterm, xorRange_single, Nat.lt_succ_iff, ← Nat.not_lt, ite_not]

/-- A pass adds to the quotient what it takes from the remainder. -/
theorem divPass_keeps (q r m : Poly) {b : Poly} (hb : b ≠ []) :
    polyAdd (polyMul F (polyAdd q m) b) (polyAdd r (polyMul F m b)) = polyAdd (polyMul F q b) r := by
  rw [polyMul_polyAdd_left h q m hb]
  refine isValue_ext (isValue_polyAdd _ _) (isValue_polyAdd _ _) fun j => ?_
  simp only [coefAt_polyAdd]
  rw [xor_xor_comm, BitVec.xor_self, BitVec.xor_zero]

theorem divLoop_keeps {a b : Poly} (hb : b ≠ []) (u : Byte) (fuel : Nat) {q r : Poly}
    (ha : polyAdd (polyMul F q b) r = a) :
    polyAdd (polyMul F (divLoop F b u fuel q r).1 b) (divLoop F b u fuel q r).2 = a := by
  refine divLoop_induction (P := fun q r => polyAdd (polyMul F q b) r = a) (fun q r ha _ _ => ?_) fuel ha
  rw [← polyMul_monomial F _ _ hb, divPass_keeps h q r _ hb, ha]

/-- Long division by a polynomial other than `Zero` completes, with the division law. -/
theorem exists_polyDiv {a b : Poly} (ha : IsValue a) (hb : IsValue b) (hb0 : b ≠ zeroPoly) :
    ∃ q r, polyDiv F a b = .ok (q, r) ∧ DegLe (deg a) q ∧ DegLe (deg a) r ∧
      a = polyAdd (polyMul F q b) r ∧ (r = zeroPoly ∨ deg r < deg b) := by
  obtain ⟨u, hu, -⟩ := exists_gfInv h (hb.resolve_left hb0)
  have hdiv : polyDiv F a b = .ok (divLoop F b u a.length zeroPoly a) := by
    rw [polyDiv, if_neg hb0, lead, hu]
    rfl
  obtain ⟨hq, hr⟩ := (polyDiv_ends (rs := []) F a b).of_ok hdiv ha
  refine ⟨_, _, hdiv, hq.mono (Nat.sub_le _ _), hr, (divLoop_keeps h (ne_nil_of_isValue hb) u _ ?_).symm,
    (polyDiv_remainder (rs := []) h ha hb).of_ok hdiv⟩
  refine isValue_ext (isValue_polyAdd _ _) ha fun j => ?_
  simp [coefAt_polyAdd, polyMul]

end ValidField

/-- Settles O37: sums and products by their coefficients, the division law as what every pass of the loop keeps. -/
theorem polynomialLaws : Obligations.PolynomialLaws := by
  intro F p q r h hp hq hr
  refine ⟨polyAdd_polyAdd_self hp q, polyMul_polyAdd_right h r p (ne_nil_of_isValue hp) (ne_nil_of_isValue hq),
    polyMul_polyAdd_left h p q (ne_nil_of_isValue hr), fun hq0 => ?_⟩
  obtain ⟨quot, rem, hdiv, -, -, hlaw⟩ := exists_polyDiv h hp hq hq0
  exact ⟨quot, rem, hdiv, hlaw⟩

/-! ### More passes (log entries 6 and 7) -/

theorem divLoop_of_isZero (F : Field) (b : Poly) (u : Byte) (n : Nat) (q : Poly) {r : Poly} (hr : isZero r) :
    divLoop F b u n q r = (q, r) := by
  cases n <;> simp [divLoop, hr]

/-- Any two bounds that the remainder's length does not exceed allow all the passes there are. -/
theorem divLoop_eq_of_length_le {F : Field} (h : FieldValid F) {b : Poly} {u : Byte} (hb : IsValue b)
    (hb0 : ¬ isZero b) (hu : gfInv F (lead b) = .ok u) {m n : Nat} {q r : Poly} (hr : IsValue r)
    (hm : isZero r ∨ r.length ≤ m) (hn : isZero r ∨ r.length ≤ n) :
    divLoop F b u m q r = divLoop F b u n q r := by
  induction m generalizing n q r with
  | zero =>
    have hz := hm.resolve_right (by simpa using ne_nil_of_isValue hr)
    rw [divLoop_of_isZero _ _ _ _ _ hz, divLoop_of_isZero _ _ _ _ _ hz]
  | succ m ih =>
    cases n with
    | zero =>
      have hz := hn.resolve_right (by simpa using ne_nil_of_isValue hr)
      rw [divLoop_of_isZero _ _ _ _ _ hz, divLoop_of_isZero _ _ _ _ _ hz]
    | succ n =>
      simp only [divLoop]
      split
      · next hpass =>
        have hlt := divPass_length_lt h hb hb0 hr hpass.2 hu hpass.1
        have hm' := hm.resolve_left hpass.2
        have hn' := hn.resolve_left hpass.2
        exact ih (isValue_polyAdd _ _) (hlt.imp_right fun _ => by omega) (hlt.imp_right fun _ => by omega)
      · rfl

/-- More passes than the degree of the remainder allow all the passes there are: each lowers it or fails. -/
theorem euclidLoop_eq_of_deg_lt (F : Field) (e : Nat) {m n : Nat} (rLast r tLast t : Poly) (hm : deg r < m)
    (hn : deg r < n) : euclidLoop F e m rLast r tLast t = euclidLoop F e n rLast r tLast t := by
  induction m generalizing n rLast r tLast t with
  | zero => omega
  | succ m ih =>
    obtain ⟨n, rfl⟩ : ∃ n', n = n' + 1 := ⟨n - 1, by omega⟩
    simp only [euclidLoop]
    split
    · split
      · rfl
      · cases polyDiv F rLast r with
        | error e => rfl
        | ok qr =>
          simp only [ok_bind]
          split
          · rfl
          · exact ih _ _ _ _ (by omega) (by omega)
    · rfl

/-- Settles O38: a pass of either loop shortens the remainder or ends the loop, so its length is bound enough. -/
theorem morePassesChangeNothing : Obligations.MorePassesChangeNothing := by
  refine ⟨fun F a b u n h ha hb hu hn => ?_, fun F e n sp rLast tLast t hsp hn => ?_⟩
  · have hb0 : ¬ isZero b := by
      rintro rfl
      exact hb rfl
    exact divLoop_eq_of_length_le h (.inr hb) hb0 hu ha (.inr hn) (.inr le_rfl)
  · have hdeg : deg sp < sp.length := Nat.sub_lt (List.length_pos_iff.2 hsp) Nat.one_pos
    exact euclidLoop_eq_of_deg_lt F e rLast sp tLast t (hdeg.trans_le hn) hdeg

end Sys2Proof.Proofs
end

section
/-! SUPPORT. The value of a polynomial at a point (42_polynomial.md R164): Horner's rule is linear, gives the
sum of the terms, and takes products to products; so the generator has its roots (R176). -/

namespace Sys2Proof.Proofs

open Sys2Proof.Machine Sys2Proof.Safety

section ValidField

variable {F : Field} (h : FieldValid F)
include h

/-! ### Horner's rule -/

omit h in
/-- From 0 the rule starts with the first coefficient. -/
theorem hornerFrom_zero (x c : Byte) (cs : List Byte) :
    hornerFrom F x 0 (c :: cs) = hornerFrom F x c cs := by
  simp [hornerFrom]

/-- The value the loop starts from is multiplied once per coefficient left. -/
theorem hornerFrom_eq (x r : Byte) (cs : List Byte) :
    hornerFrom F x r cs = gfMul F r (gfPow F x cs.length) ^^^ hornerFrom F x 0 cs := by
  induction cs generalizing r with
  | nil => simp [hornerFrom, gfPow, gfMul_one_right h]
  | cons c cs ih =>
    have hpow : gfMul F (gfMul F x r) (gfPow F x cs.length) = gfMul F r (gfPow F x (cs.length + 1)) := by
      rw [gfPow, gfMul_comm F x, gfMul_assoc h, gfMul_comm F x]
    rw [hornerFrom, ih, hornerFrom_zero, ih c, gfMul_xor_left h, hpow, BitVec.xor_assoc]
    rfl

/-- A leading coefficient adds its term. -/
theorem hornerFrom_zero_cons (x c : Byte) (cs : List Byte) :
    hornerFrom F x 0 (c :: cs) = gfMul F c (gfPow F x cs.length) ^^^ hornerFrom F x 0 cs := by
  rw [hornerFrom_zero, hornerFrom_eq h]

theorem hornerFrom_zipWith_xor (x : Byte) {p q : List Byte} (hlen : p.length = q.length) :
    hornerFrom F x 0 (List.zipWith (· ^^^ ·) p q) = hornerFrom F x 0 p ^^^ hornerFrom F x 0 q := by
  induction p generalizing q with
  | nil => simp [List.length_eq_zero_iff.1 hlen.symm, hornerFrom]
  | cons a p ih =>
    cases q with
    | nil => simp at hlen
    | cons b q =>
      have hlen' : p.length = q.length := by simpa using hlen
      have hzip : (List.zipWith (· ^^^ ·) p q).length = p.length := by simp [hlen']
      rw [List.zipWith_cons_cons, hornerFrom_zero_cons h, hornerFrom_zero_cons h, hornerFrom_zero_cons h,
        ih hlen', hzip, ← hlen', gfMul_xor_left h, xor_xor_comm]

theorem hornerFrom_map_gfMul (x a : Byte) (p : List Byte) :
    hornerFrom F x 0 (p.map (gfMul F a)) = gfMul F a (hornerFrom F x 0 p) := by
  induction p with
  | nil => simp [hornerFrom]
  | cons c p ih =>
    rw [List.map_cons, hornerFrom_zero_cons h, hornerFrom_zero_cons h, ih, List.length_map,
      gfMul_assoc h, gfMul_xor_right h]

omit h in
@[simp] theorem hornerFrom_zeros (x : Byte) (n : Nat) : hornerFrom F x 0#8 (zeros n) = 0#8 := by
  induction n with
  | zero => rfl
  | succ n ih => exact (hornerFrom_zero x 0 (zeros n)).trans ih

theorem hornerFrom_append_zeros (x : Byte) (p : List Byte) (n : Nat) :
    hornerFrom F x 0 (p ++ zeros n) = gfMul F (hornerFrom F x 0 p) (gfPow F x n) := by
  induction p with
  | nil => simp [hornerFrom]
  | cons c p ih =>
    rw [List.cons_append, hornerFrom_zero_cons h, hornerFrom_zero_cons h, ih, List.length_append,
      zeros_length, gfPow_add h, ← gfMul_assoc h, gfMul_xor_left h]

omit h in
theorem hornerFrom_normalize (x : Byte) (cs : List Byte) :
    hornerFrom F x 0 (normalize cs) = hornerFrom F x 0 cs := by
  induction cs with
  | nil => exact hornerFrom_zero x 0 []
  | cons c cs ih =>
    by_cases hc : c = 0
    · rw [hc, normalize_zero_cons, ih, hornerFrom_zero]
    · rw [normalize_cons_of_ne hc]

theorem hornerFrom_convolve (x : Byte) (p : List Byte) {q : List Byte} (hq : q ≠ []) :
    hornerFrom F x 0 (convolve F p q) = gfMul F (hornerFrom F x 0 p) (hornerFrom F x 0 q) := by
  induction p with
  | nil => simp [convolve, hornerFrom]
  | cons a p ih =>
    rw [convolve, hornerFrom_zipWith_xor h x (convolve_row_length F a p hq), hornerFrom_append_zeros h,
      hornerFrom_map_gfMul h, hornerFrom_zero, ih, hornerFrom_zero_cons h, gfMul_xor_left h,
      gfMul_assoc h, gfMul_assoc h, gfMul_comm F (hornerFrom F x 0 q)]

/-! ### `eval` -/

omit h in
/-- At 0 only the last coefficient counts. -/
theorem hornerFrom_at_zero (r : Byte) (cs : List Byte) : hornerFrom F 0 r cs = cs.getLastD r := by
  induction cs generalizing r with
  | nil => rfl
  | cons c cs ih =>
    have hstep : gfMul F 0 r ^^^ c = c := by simp
    rw [hornerFrom, hstep, ih, List.getLastD_cons]

/-- At 1 the coefficients are summed. -/
theorem hornerFrom_at_one (r : Byte) (cs : List Byte) : hornerFrom F 1 r cs = r ^^^ xorSum cs := by
  induction cs generalizing r with
  | nil => simp [hornerFrom, xorSum]
  | cons c cs ih => rw [hornerFrom, ih, gfMul_one_left h, xorSum, BitVec.xor_assoc]

/-- Both short-circuits of `eval` give what Horner's rule from 0 gives. -/
theorem eval_eq_hornerFrom {p : Poly} (hp : p ≠ []) (x : Byte) : eval F p x = hornerFrom F x 0 p := by
  unfold eval
  split
  · next hx => rw [hx, hornerFrom_at_zero]
  · split
    · next hx =>
      rw [hx, hornerFrom_at_one h]
      exact (BitVec.zero_xor).symm
    · obtain ⟨c, cs, rfl⟩ := List.exists_cons_of_ne_nil hp
      exact (hornerFrom_zero x c cs).symm

theorem hornerFrom_eq_xorRange (x : Byte) (p : List Byte) :
    hornerFrom F x 0 p = xorRange p.length fun j => gfMul F (coefAt p j) (gfPow F x j) := by
  induction p with
  | nil => rfl
  | cons c cs ih =>
    have hlow : ∀ j < cs.length, gfMul F (coefAt (c :: cs) j) (gfPow F x j) =
        gfMul F (coefAt cs j) (gfPow F x j) := fun j hj => by rw [coefAt_cons, if_neg hj.ne]
    rw [hornerFrom_zero_cons h, ih, List.length_cons, xorRange_succ, xorRange_congr hlow, coefAt_cons,
      if_pos rfl, BitVec.xor_comm]

/-- The value is the sum of the terms. -/
theorem eval_eq_xorRange {p : Poly} (hp : p ≠ []) (x : Byte) :
    eval F p x = xorRange p.length fun j => gfMul F (coefAt p j) (gfPow F x j) := by
  rw [eval_eq_hornerFrom h hp, hornerFrom_eq_xorRange h]

theorem eval_polyMul {p q : Poly} (hp : p ≠ []) (hq : q ≠ []) (x : Byte) :
    eval F (polyMul F p q) x = gfMul F (eval F p x) (eval F q x) := by
  rw [eval_eq_hornerFrom h (ne_nil_of_isValue (isValue_polyMul F p q)), eval_eq_hornerFrom h hp,
    eval_eq_hornerFrom h hq]
  unfold polyMul
  split
  · next hz =>
    have hzero : hornerFrom F x 0#8 zeroPoly = 0#8 := hornerFrom_zeros x 1
    obtain rfl | rfl := hz <;> simp [hzero]
  · rw [hornerFrom_normalize, hornerFrom_convolve h x p hq]

/-! ### The generator (42_polynomial.md R176) -/

theorem eval_linear (c x : Byte) : eval F [1, c] x = x ^^^ c := by
  rw [eval_eq_hornerFrom h (by simp)]
  simp [hornerFrom, gfMul_one_right h]

/-- Each of the `d` factors brings its own root. -/
theorem eval_generator {d : Nat} (hd : d ≤ 255) {i : Nat} (hi : i < d) :
    eval F (generator F d) (alphaPow F.prim (i + F.base)) = 0 := by
  induction d with
  | zero => omega
  | succ d ih =>
    have hbase : F.base ≤ 1 := by unfold Field.base; cases F.gb <;> decide
    have hne : generator F d ≠ [] := ne_nil_of_isValue (degLe_generator F d).form
    rw [generator, eval_polyMul h hne (by simp), eval_linear h, gfExp_eq_alphaPow h (by omega)]
    obtain hlt | rfl := Nat.lt_or_eq_of_le (Nat.le_of_lt_succ hi)
    · simp [ih (by omega) hlt]
    · simp

end ValidField

end Sys2Proof.Proofs
end

section
/-! SUPPORT. The polynomial commands other than `PLD` and `PST` (42_polynomial.md R181, R190–R198): how each
ends, by the checks it makes, and what it writes in coefficients. -/

namespace Sys2Proof.Proofs

open Sys2Proof.Machine Sys2Proof.Safety

/-! ### Commands without a check (42_polynomial.md R181, R190, R196, R197) -/

theorem normalize_singleton (c : Byte) : normalize [c] = [c] := by
  by_cases hc : c = 0
  · rw [hc]
    rfl
  · exact normalize_cons_of_ne hc []

/-- Settles O39: none of the three commands has a check before its one write. -/
theorem pconstPdegAndPcoefComplete : Obligations.PconstPdegAndPcoefComplete := by
  intro s fa
  refine ⟨fun fd => ?_, fun fd pa => rfl, fun fd pa => ⟨_, rfl, rfl, fun r => s.reg_setReg_ne _, fun hj => ?_,
    fun hj _ => ?_⟩⟩
  · rw [← normalize_singleton (s.elem fa)]
    rfl
  · rw [← coefAt_of_lt hj]
    exact s.reg_setReg_same fd _
  · rw [coefAt_of_length_le hj]
    exact s.reg_setReg_same fd 0

/-- Settles O40: `PADD` has no check, and a sum is no longer than the longer operand. -/
theorem paddAddsCoefficients : Obligations.PaddAddsCoefficients := by
  intro s fd fa fb hinv
  have hdeg (i : PIdx) := ((normalized_iff_degLe _).1 (hinv.polys i)).deg_le
  exact ⟨_, rfl, (normalized_iff_degLe _).2 (degLe_polyAdd (hdeg fa) (hdeg fb)), coefAt_polyAdd _ _⟩

/-! ### The capacity check (42_polynomial.md R178) -/

section Commands

variable {s : State}

/-- The end of `PMUL` and `PMONO`: the result is written when its degree fits. -/
def storeChecked (s : State) (fd : PIdx) (p : Poly) : Result :=
  command s (checkCapacity p >>= fun _ => .ok (s.setPoly fd p))

theorem storeChecked_of_le (fd : PIdx) {p : Poly} (hp : DegLe Config.maxDegree p) :
    storeChecked s fd p = .next (s.setPoly fd p).advance := by
  rw [storeChecked, checkCapacity_of_le ((normalized_iff_degLe p).2 hp).1]
  rfl

theorem storeChecked_of_gt (fd : PIdx) {p : Poly} (hp : Config.maxDegree < deg p) :
    storeChecked s fd p = .next (s.errorEntry .capacity) := by
  rw [storeChecked, checkCapacity_of_gt (Nat.add_lt_of_lt_sub hp)]
  rfl

/-! ### Commands that require a field, when there is one -/

variable (hok : s.field.fieldOk = true)
include hok

theorem exec_pmul_of_fieldOk (fd fa fb : PIdx) :
    exec (.pmul fd fa fb) s = storeChecked s fd (polyMul s.field (s.poly fa) (s.poly fb)) :=
  congrArg (command s) (requireField_bind_of_ok hok)

theorem exec_pscl_of_fieldOk (fd fa : PIdx) (fb : RIdx) :
    exec (.pscl fd fa fb) s = .next (s.setPoly fd (polyScale s.field (s.poly fa) (s.elem fb))).advance :=
  congrArg (command s) (requireField_bind_of_ok hok)

theorem exec_pmono_of_neg (fd fa : PIdx) {fb : RIdx} (fc : RIdx) (hneg : s.signed fb < 0) :
    exec (.pmono fd fa fb fc) s = .next (s.errorEntry .negDeg) := by
  refine command_of_raise ((requireField_bind_of_ok hok).trans ?_)
  rw [polyMono, if_pos hneg]
  rfl

theorem exec_pmono_of_nonneg (fd fa : PIdx) {fb : RIdx} (fc : RIdx) (hpos : 0 ≤ s.signed fb) :
    exec (.pmono fd fa fb fc) s =
      storeChecked s fd (polyShift s.field (s.poly fa) (s.signed fb).toNat (s.elem fc)) := by
  refine congrArg (command s) ((requireField_bind_of_ok hok).trans ?_)
  rw [polyMono, if_neg hpos.not_gt]
  rfl

theorem exec_pdiv_of_fieldOk (fd fa fb fc : PIdx) :
    exec (.pdiv fd fa fb fc) s =
      command s ((polyDiv s.field (s.poly fa) (s.poly fb)).map fun qr =>
        (s.setPoly fd qr.1).setPoly fc qr.2) := by
  refine congrArg (command s) ((requireField_bind_of_ok hok).trans ?_)
  cases polyDiv s.field (s.poly fa) (s.poly fb) <;> rfl

theorem exec_peval_of_fieldOk (fd : RIdx) (fa : PIdx) (fb : RIdx) :
    exec (.peval fd fa fb) s = .next (s.setReg fd (zext16 (eval s.field (s.poly fa) (s.elem fb)))).advance :=
  congrArg (command s) (requireField_bind_of_ok hok)

theorem exec_pgen_of_le (fd : PIdx) {fa : RIdx} (hd : s.unsigned fa ≤ 255) :
    exec (.pgen fd fa) s = .next (s.setPoly fd (generator s.field (s.unsigned fa))).advance := by
  change execPgen fd fa s = _
  rw [execPgen, requireField_bind_of_ok hok]
  exact congrArg (command s) (if_neg hd.not_gt)

theorem exec_pgen_of_gt (fd : PIdx) {fa : RIdx} (hd : 255 < s.unsigned fa) :
    exec (.pgen fd fa) s = .next (s.errorEntry .capacity) :=
  command_of_raise ((requireField_bind_of_ok hok).trans (if_pos hd))

end Commands

/-! ### Products and shifts of polynomials other than `Zero` -/

section ValidField

variable {F : Field} (h : FieldValid F)
include h

/-- The leading coefficients' product is not 0, so nothing is normalized away. -/
theorem deg_polyMul {p q : Poly} (hp : IsValue p) (hq : IsValue q) (hp0 : ¬ isZero p) (hq0 : ¬ isZero q) :
    deg (polyMul F p q) = deg p + deg q := by
  have hlen := convolve_length F p q
  have hmul : polyMul F p q = normalize (convolve F p q) := if_neg (not_or.2 ⟨hp0, hq0⟩)
  obtain ⟨a, p, rfl, ha⟩ := exists_cons_of_isValue hp hp0
  obtain ⟨b, q, rfl, hb⟩ := exists_cons_of_isValue hq hq0
  have hlead : normalize (convolve F (a :: p) (b :: q)) = convolve F (a :: p) (b :: q) := by
    simp only [convolve, List.map_cons, List.cons_append, List.zipWith_cons_cons]
    exact normalize_cons_of_ne (by simpa using gfMul_ne_zero h ha hb) _
  rw [hmul, hlead]
  simp only [deg, hlen, List.length_cons]
  omega

theorem deg_polyShift {p : Poly} (hp : IsValue p) (hp0 : ¬ isZero p) (d : Nat) {c : Byte} (hc : c ≠ 0) :
    deg (polyShift F p d c) = deg p + d := by
  obtain ⟨a, p, rfl, ha⟩ := exists_cons_of_isValue hp hp0
  rw [polyShift, if_neg hc, List.map_cons, List.cons_append,
    normalize_cons_of_ne (gfMul_ne_zero h ha hc)]
  simp [deg]

end ValidField

/-- Without a coefficient to shift there is no degree to add. -/
theorem polyShift_eq_zeroPoly (F : Field) {p : Poly} (d : Nat) {c : Byte} (h : c = 0 ∨ isZero p) :
    polyShift F p d c = zeroPoly := by
  refine isValue_ext (isValue_polyShift F p d c) (.inl rfl) fun j => ?_
  rw [coefAt_polyShift]
  obtain rfl | rfl := h <;> simp

/-! ### The statements -/

/-- Settles O41: the degree of the product, exact because no product of non-zero bytes is 0, decides the check. -/
theorem pmulConvolves : Obligations.PmulConvolves := by
  intro s fd fa fb hinv hok p q
  have h := hinv.field hok
  have hp := (hinv.polys fa).2
  have hq := (hinv.polys fb).2
  rw [exec_pmul_of_fieldOk hok]
  refine ⟨fun hz => ?_, fun hp0 hq0 hfits => ?_, fun hp0 hq0 hlong => ?_⟩
  · rw [polyMul, if_pos hz, storeChecked_of_le fd (degLe_zeroPoly _)]
  · have hdeg := deg_polyMul h hp hq hp0 hq0
    have hle : DegLe Config.maxDegree (polyMul s.field p q) := ⟨hdeg.trans_le hfits, isValue_polyMul _ _ _⟩
    exact ⟨_, storeChecked_of_le fd hle, hdeg, (normalized_iff_degLe _).2 hle,
      coefAt_polyMul _ _ (ne_nil_of_isValue hq)⟩
  · exact storeChecked_of_gt fd (hlong.trans_eq (deg_polyMul h hp hq hp0 hq0).symm)

/-- Settles O42: scaling never lengthens; a shift adds its degree unless the result is `Zero`. -/
theorem psclAndPmonoScale : Obligations.PsclAndPmonoScale := by
  intro s fd fa fb fc hinv hok
  have h := hinv.field hok
  have hp := (normalized_iff_degLe _).1 (hinv.polys fa)
  refine ⟨⟨_, exec_pscl_of_fieldOk hok fd fa fb, (normalized_iff_degLe _).2 (degLe_polyScale _ _ hp),
    coefAt_polyScale h _ _⟩, exec_pmono_of_neg hok fd fa fc, fun hpos hfits => ?_, fun hpos hc hp0 hlong => ?_⟩
  · have hle : DegLe Config.maxDegree (polyShift s.field (s.poly fa) (s.signed fb).toNat (s.elem fc)) := by
      rcases or_assoc.2 hfits with hz | hdeg
      · rw [polyShift_eq_zeroPoly _ _ hz]
        exact degLe_zeroPoly _
      · exact degLe_polyShift _ _ (show _ ≤ 255 by omega)
    rw [exec_pmono_of_nonneg hok fd fa fc hpos]
    refine ⟨_, storeChecked_of_le fd hle, (normalized_iff_degLe _).2 hle, fun j => ?_⟩
    have hiff : (j : Int) < s.signed fb ↔ j < (s.signed fb).toNat := by omega
    simp only [coefAt_polyShift, hiff]
  · rw [exec_pmono_of_nonneg hok fd fa fc hpos]
    refine storeChecked_of_gt fd ?_
    rw [deg_polyShift h hp.form hp0 _ hc]
    exact show 255 < _ by omega

/-- Settles O43: `PDIV` ends as long division does, which completes with the division law. -/
theorem pdivDivides : Obligations.PdivDivides := by
  intro s fd fa fb fc hinv hok
  have ha := (normalized_iff_degLe _).1 (hinv.polys fa)
  rw [exec_pdiv_of_fieldOk hok]
  refine ⟨fun hb0 => ?_, fun hb0 => ?_⟩
  · obtain ⟨q, r, hdiv, hq, hr, hlaw⟩ := exists_polyDiv (hinv.field hok) ha.form (hinv.polys fb).2 hb0
    rw [hdiv]
    exact ⟨q, r, rfl, (normalized_iff_degLe _).2 (hq.mono ha.deg_le),
      (normalized_iff_degLe _).2 (hr.mono ha.deg_le), hlaw⟩
  · rw [polyDiv, if_pos hb0]
    rfl

/-- Settles O44: Horner's rule gives the sum of the terms, and both short-circuits agree with it. -/
theorem pevalEvaluates : Obligations.PevalEvaluates := by
  intro s fd fa fb hinv hok
  rw [exec_peval_of_fieldOk hok, eval_eq_xorRange (hinv.field hok) (ne_nil_of_isValue (hinv.polys fa).2)]

/-- Settles O45: each factor of the generator adds one degree and one root. -/
theorem pgenHasItsRoots : Obligations.PgenHasItsRoots := by
  intro s fd fa hinv hok
  have h := hinv.field hok
  refine ⟨fun hd => ?_, exec_pgen_of_gt hok fd⟩
  obtain ⟨gs, hg, -⟩ := exists_generator_eq_cons h (s.unsigned fa)
  refine ⟨_, exec_pgen_of_le hok fd hd, deg_generator h _, by rw [hg]; rfl,
    (normalized_iff_degLe _).2 ((degLe_generator _ _).mono hd), fun i hi => ?_⟩
  rw [gfPow_two h, eval_generator h hd hi]

end Sys2Proof.Proofs
end

section
/-! SUPPORT. `CINIT` by the bounds it checks (43_coder.md R211), and the marker block (43_coder.md R217). -/

namespace Sys2Proof.Proofs

open Sys2Proof.Machine Sys2Proof.Safety

/-! ### `CINIT` -/

/-- With a constructed field `CINIT` raises an error by the first bound that is not kept, or completes. -/
theorem exec_cinit_of_fieldOk {s : State} (hok : s.field.fieldOk = true) (fa fb : RIdx) :
    exec (.cinit fa fb) s = .next (
      if s.signed fa < 11 then s.errorEntry (.config .shortBlock)
      else if s.signed fb ≤ 0 then s.errorEntry (.config .noParity)
      else if s.signed fa + s.signed fb > 255 then s.errorEntry (.config .longBlock)
      else (s.installCoder (s.signed fa) (s.signed fb)).advance) := by
  change command s (requireField s >>= _) = _
  rw [requireField_bind_of_ok hok]
  change command s (if s.signed fa < 11 then _ else if s.signed fb ≤ 0 then _ else
    if s.signed fa + s.signed fb > 255 then _ else _) = _
  split_ifs <;> rfl

/-- Settles O48: the bounds are checked in the order of their numbers, and operands inside them fit into the
bytes of `CODERCFG`. -/
theorem cinitConstructsTheCoder : Obligations.CinitConstructsTheCoder := by
  intro s fa fb hok
  dsimp only
  rw [exec_cinit_of_fieldOk hok]
  refine ⟨fun hk he hn => ?_, fun hk => ?_, fun hk he => ?_, fun hk he hn => ?_⟩
  · obtain ⟨hK, hE⟩ := installCoder_lens s hk he hn
    rw [if_neg (by omega), if_neg (by omega), if_neg (by omega)]
    exact ⟨_, rfl, rfl, hK, hE, rfl⟩
  · rw [if_pos hk]
  · rw [if_neg (by omega), if_pos (by omega)]
  · rw [if_neg (by omega), if_neg (by omega), if_pos hn]

/-! ### The marker block -/

/-- Settles O51: the marker comes first and is shorter than any block; seven bits bound each of its bytes. -/
theorem markerBlockFillsTheBlock : Obligations.MarkerBlockFillsTheBlock := by
  rintro C ⟨hK, -⟩
  refine ⟨markerBlock_length hK, List.take_left' markerBytes_length, markerBytes_length, fun i => ?_,
    fun b hb => ?_, fun b hb => ?_⟩
  · rw [markerBlock, List.getElem?_append_left (by simp [markerBytes_length])]
    simp [markerBytes]
  · obtain ⟨i, -, rfl⟩ := List.mem_map.1 hb
    have := (Config.marker i).isLt
    rw [BitVec.toNat_setWidth]
    omega
  · rw [markerBlock, List.drop_left' markerBytes_length] at hb
    exact List.eq_of_mem_replicate hb

end Sys2Proof.Proofs
end

section
/-! SUPPORT. The encoder and the decoder of one block where no key equation has to be solved: an encoded block
is a multiple of the generator, so its syndromes are 0 (43_coder.md R213, R216, R221), and syndromes that are 0
but perhaps the first lead to no correction (43_coder.md R223). -/

namespace Sys2Proof.Proofs

open Sys2Proof.Machine Sys2Proof.Safety

/-! ### Syndromes (44_decoder_stages.md R243, R244) -/

@[simp] theorem syndromes_length (F : Field) (e : Nat) (block : List Byte) : (syndromes F e block).length = e := by
  simp [syndromes]

theorem syndromes_eq_zeros_iff (F : Field) (e : Nat) (block : List Byte) :
    syndromes F e block = zeros e ↔
      ∀ i < e, eval F (normalize block) (gfExp F (i + F.base)) = 0 := by
  simp [syndromes, zeros, List.eq_replicate_iff]

theorem allZero_iff (S : List Byte) : allZero S = true ↔ S = zeros S.length := by
  simp [allZero, zeros, List.eq_replicate_iff]

/-- Syndrome `i` is the coefficient of `x^i`. -/
theorem coefAt_syndPoly (S : List Byte) (i : Nat) : coefAt (syndPoly S) i = S.getD i 0 := by
  rw [syndPoly, coefAt_normalize, List.reverse_reverse]

theorem coefAt_syndPoly_syndromes (F : Field) (e : Nat) (block : List Byte) (i : Nat) :
    coefAt (syndPoly (syndromes F e block)) i =
      if i < e then eval F (normalize block) (gfExp F (i + F.base)) else 0 := by
  rw [coefAt_syndPoly]
  split
  · next hi => rw [List.getD_eq_getElem _ _ (by simpa using hi)]; simp [syndromes]
  · next hi => exact List.getD_eq_default _ _ (by simpa using hi)

theorem syndPoly_zeros (n : Nat) : syndPoly (zeros n) = zeroPoly :=
  isValue_ext (normalize_form _) (.inl rfl) fun i => by
    rw [coefAt_syndPoly, coefAt_zeroPoly, zeros, List.getD_eq_getElem?_getD, List.getElem?_replicate]
    split <;> rfl

theorem deg_syndPoly_lt {F : Field} {e : Nat} (he : 1 ≤ e) (block : List Byte) :
    deg (syndPoly (syndromes F e block)) < e := by
  have hle : DegLe (e - 1) (syndPoly (syndromes F e block)) := degLe_normalize (by simp; omega)
  have := hle.deg_le
  omega

theorem decodeBlock_of_clean {F : Field} {C : Coder} {block : List Byte}
    (h : syndromes F C.parityLen block = zeros C.parityLen) :
    decodeBlock F C block = .ok (block.take C.dataLen) :=
  if_pos ((allZero_iff _).2 (by simpa using h))

/-! ### The encoder (43_coder.md R213) -/

theorem coefAt_append (p q : List Byte) (j : Nat) :
    coefAt (p ++ q) j = if j < q.length then coefAt q j else coefAt p (j - q.length) := by
  simp only [coefAt_eq_reverse, List.reverse_append, List.getD_eq_getElem?_getD, List.getElem?_append,
    List.length_reverse, apply_ite (Option.getD · (0 : Byte))]

section ValidField

variable {F : Field} (h : FieldValid F)
include h

/-- The parity is the remainder of the shifted data, so data and parity together are a multiple of the
generator. -/
theorem exists_encodeBlock {C : Coder} (hE : 1 ≤ C.parityLen) (block : List Byte) :
    ∃ parity q, encodeBlock F C block = .ok (block ++ parity) ∧ parity.length = C.parityLen ∧
      q ≠ [] ∧ normalize (block ++ parity) = polyMul F q (generator F C.parityLen) := by
  have hdeg := deg_generator h C.parityLen
  have hgen : generator F C.parityLen ≠ zeroPoly := fun e => by rw [e] at hdeg; exact absurd hdeg (Nat.ne_of_lt hE)
  obtain ⟨q, r, hdiv, hq, hr, hlaw, hrem⟩ := exists_polyDiv h
    (isValue_polyShift F (normalize block) C.parityLen 1) (degLe_generator F C.parityLen).form hgen
  have hfit : r.length ≤ C.parityLen := by
    rcases hrem with rfl | hrem
    · exact hE
    · rw [hdeg] at hrem
      exact Nat.le_of_pred_lt hrem
  refine ⟨padLeft C.parityLen r, q, ?_, padLeft_length hfit, ne_nil_of_isValue hq.form, ?_⟩
  · rw [encodeBlock, hdiv]
    rfl
  · rw [← polyAdd_polyAdd_self (isValue_polyMul F q _) r, ← hlaw]
    refine isValue_ext (normalize_form _) (isValue_polyAdd _ _) fun j => ?_
    rw [coefAt_normalize_eq, coefAt_append, coefAt_polyAdd, coefAt_polyShift, padLeft_length hfit, padLeft,
      coefAt_zeros_append]
    split
    · simp
    · next hj => simp [gfMul_one_right h, coefAt_normalize_eq, coefAt_of_length_le (hfit.trans (Nat.not_lt.1 hj))]

/-- An encoded block is its data followed by parity that makes every syndrome 0. -/
theorem exists_encodeBlock_clean {C : Coder} (hC : CoderValid C) {block : List Byte}
    (hlen : block.length = C.dataLen) :
    ∃ B, encodeBlock F C block = .ok B ∧ B.length = C.blockLen ∧ B.take C.dataLen = block ∧
      syndromes F C.parityLen B = zeros C.parityLen := by
  obtain ⟨-, hE, hN⟩ := hC
  have hE255 : C.parityLen ≤ 255 := (Nat.le_add_left _ _).trans hN
  obtain ⟨parity, q, henc, hparity, hq, hnorm⟩ := exists_encodeBlock h hE block
  refine ⟨_, henc, by rw [List.length_append, hlen, hparity, Coder.blockLen], List.take_left' hlen,
    (syndromes_eq_zeros_iff _ _ _).2 fun i hi => ?_⟩
  have hbase : F.base ≤ 1 := Bool.toNat_le _
  rw [hnorm, eval_polyMul h hq (ne_nil_of_isValue (degLe_generator F _).form), gfExp_eq_alphaPow h (by omega),
    eval_generator h hE255 hi]
  exact gfMul_zero_right F _

/-! ### Key equations that are solved already (44_decoder_stages.md R245, R246) -/

theorem gfInv_one : gfInv F 1 = .ok 1 := by
  have hlog : F.logEntry 1 = 0 := logEntry_alphaPow h (i := 0) (by decide)
  rw [gfInv, if_neg (by decide), hlog, gfExp_eq_alphaPow h (by decide), alphaPow_255 h.primitive]

omit h in
/-- The loop ends as soon as the remainder is short enough. -/
theorem euclidLoop_of_lt {e : Nat} {r : Poly} (hr : 2 * deg r < e) (fuel : Nat) (rLast tLast t : Poly) :
    euclidLoop F e fuel rLast r tLast t = .ok (t, r) := by
  cases fuel <;> exact if_neg (Nat.not_le.2 hr)

theorem euclid_of_lt {e : Nat} {sp : Poly} (hsp : 2 * deg sp < e) : euclid F e sp = .ok (onePoly, sp) := by
  have hone : coefAt onePoly 0 = 1 := rfl
  rw [euclid, euclidLoop_of_lt hsp, ok_bind]
  simp only [hone, gfInv_one h]
  rfl

omit h in
/-- The Chien search ends as soon as it has as many locations as it looks for (R247). -/
theorem chienFrom_of_le (sigma : Poly) {n : Nat} {locs : List Byte} (hn : n ≤ locs.length) (xs : List Byte) :
    chienFrom F sigma n xs locs = .ok locs := by
  cases xs <;> exact if_neg (Nat.not_lt.2 hn)

/-- A constant error locator has no roots, so nothing is corrected (43_coder.md R223). -/
theorem decodeBlock_of_deg_syndPoly {C : Coder} (hE : 1 ≤ C.parityLen) {block : List Byte}
    (hdeg : deg (syndPoly (syndromes F C.parityLen block)) = 0) :
    decodeBlock F C block = .ok (block.take C.dataLen) := by
  have hchien : chien F onePoly = .ok [] := chienFrom_of_le onePoly (Nat.zero_le _) _
  simp only [decodeBlock, euclid_of_lt h (e := C.parityLen) (by rw [hdeg]; exact hE), ok_bind, hchien]
  exact ite_self _

end ValidField

/-! ### The statements -/

/-- Settles O52: the encoded block is clean, so the decoder returns its first `K` bytes. -/
theorem encodedBlocksDecode : Obligations.EncodedBlocksDecode := by
  intro F C D h hC hlen
  obtain ⟨B, henc, hB, htake, hclean⟩ := exists_encodeBlock_clean h hC hlen
  exact ⟨B, henc, hB, htake, hclean, (decodeBlock_of_clean hclean).trans (congrArg _ htake)⟩

/-- Settles O54: with one syndrome left the syndrome polynomial is a constant. -/
theorem degreeZeroSyndromesAreAccepted : Obligations.DegreeZeroSyndromesAreAccepted := by
  rintro F C B h ⟨-, hE, -⟩ -
  have haccepted (hzero : ∀ i, 1 ≤ i → i < C.parityLen →
      eval F (normalize B) (gfExp F (i + F.base)) = 0) : decodeBlock F C B = .ok (B.take C.dataLen) := by
    refine decodeBlock_of_deg_syndPoly h hE ?_
    have hconst : syndPoly (syndromes F C.parityLen B) = [eval F (normalize B) (gfExp F F.base)] := by
      refine isValue_ext (normalize_form _) ?_ fun i => ?_
      · exact normalize_singleton _ ▸ normalize_form [_]
      · rw [coefAt_syndPoly_syndromes, coefAt_cons, coefAt_nil, List.length_nil]
        cases i with
        | zero => rw [if_pos (Nat.lt_of_lt_of_le Nat.one_pos hE), Nat.zero_add, if_pos rfl]
        | succ i => simpa using hzero (i + 1) (Nat.le_add_left _ _)
    rw [hconst]
    rfl
  exact ⟨haccepted, fun hE1 => haccepted fun i hi hlt => by omega⟩

end Sys2Proof.Proofs
end

section
/-! SUPPORT. Buffers as blocks (43_coder.md R212, R215): a block of a segmentation byte by byte, a block of an
output of blocks of one length, and the block read back from DMEM. With these, `ENC` (43_coder.md R214). -/

namespace Sys2Proof.Proofs

open Sys2Proof.Machine Sys2Proof.Safety

/-! ### Blocks of a buffer -/

/-- A block continues the buffer with zero bytes. -/
theorem blockAt_getD (data : List Byte) {n j : Nat} (b : Nat) (hj : j < n) :
    (blockAt data n b).getD j 0 = data.getD (b * n + j) 0 := by
  simp only [blockAt, zeros, List.getD_eq_getElem?_getD, List.getElem?_append, List.length_take,
    List.length_drop]
  split
  · rw [List.getElem?_take_of_lt hj, List.getElem?_drop]
  · next hlong =>
    rw [List.getElem?_eq_none (l := data) (by omega), List.getElem?_replicate]
    split <;> rfl

section Output

variable {α : Type} {f : α → List Byte} {n : Nat} {l : List α} (hlen : ∀ a ∈ l, (f a).length = n)
include hlen

theorem length_flatMap_of_const : (l.flatMap f).length = l.length * n := by
  have hsum := List.sum_eq_card_nsmul (l.map fun a => (f a).length) n (by simpa using hlen)
  rw [List.length_flatMap, hsum, List.length_map, smul_eq_mul]

/-- Block `i` of an output of blocks of one length. -/
theorem take_drop_flatMap {i : Nat} (hi : i < l.length) : ((l.flatMap f).drop (i * n)).take n = f l[i] := by
  induction l generalizing i with
  | nil => simp at hi
  | cons a l ih =>
    have ha := hlen a (by simp)
    cases i with
    | zero => simp [← ha]
    | succ i =>
      have hdrop : (i + 1) * n = (f a).length + i * n := by rw [ha]; ring
      rw [List.flatMap_cons, hdrop, List.drop_append, List.drop_eq_nil_of_le (Nat.le_add_right _ _),
        Nat.add_sub_cancel_left, List.nil_append, ih (fun b hb => hlen b (by simp [hb])) (by simpa using hi)]
      rfl

end Output

/-! ### Blocks in DMEM -/

/-- Part of a stored sequence, read back. -/
theorem readBytes_writeBytes_part {bs : List Byte} {m : Memory} {a i n : Nat} (h : m.wf)
    (ha : a + bs.length ≤ Config.dmemSize) (hi : i + n ≤ bs.length) :
    (m.writeBytes a bs).readBytes (a + i) n = (bs.drop i).take n := by
  refine List.ext_getElem (by simp; omega) fun j hj _ => ?_
  rw [Memory.readBytes_length] at hj
  rw [Memory.readBytes_getElem, Nat.add_assoc, Memory.read_writeBytes_inside h ha (by omega),
    List.getElem_take, List.getElem_drop]

/-- Block `b` of a stored output of blocks of one length, read back. -/
theorem loadBytes_storeBytes_flatMap {s : State} {dst nb n : Nat} {f : Nat → List Byte} (h : s.mem.wf)
    (hlen : ∀ b, (f b).length = n) (hn : 0 < n) (hrange : InRange dst (nb * n)) {b : Nat} (hb : b < nb) :
    (s.storeBytes dst ((List.range nb).flatMap f)).loadBytes (dst + b * n) n = f b := by
  have hblock : (b + 1) * n ≤ nb * n := Nat.mul_le_mul_right n hb
  have houtlen : ((List.range nb).flatMap f).length = nb * n := by
    rw [length_flatMap_of_const fun a _ => hlen a, List.length_range]
  have hfits := hrange.resolve_left (Nat.mul_pos (by omega) hn).ne'
  rw [Nat.succ_mul] at hblock
  refine (readBytes_writeBytes_part h (by rwa [houtlen]) (by rwa [houtlen])).trans ?_
  rw [take_drop_flatMap (fun a _ => hlen a) (by simpa using hb), List.getElem_range]

/-! ### `ENC` -/

/-- The encoder's output when every block encodes. -/
theorem encodeBlocks_eq {F : Field} {C : Coder} {f : List Byte → List Byte} {blocks : List (List Byte)}
    (h : ∀ b ∈ blocks, encodeBlock F C b = .ok (f b)) : encodeBlocks F C blocks = .ok (blocks.flatMap f) := by
  induction blocks with
  | nil => rfl
  | cons b bs ih =>
    rw [encodeBlocks, h b (by simp), ok_bind, ih fun c hc => h c (by simp [hc])]
    rfl

/-- With its operands in range and apart `ENC` stores what the encoder answers. -/
theorem exec_enc_of_inRange {s : State} (fd : RIdx) {fa fb fc : RIdx} {outlen : Nat} {out : List Byte}
    (hok : s.coder.coderOk = true)
    (houtlen : outlen = blockCount (s.unsigned fb) s.coder.dataLen * s.coder.blockLen)
    (hsrc : InRange (s.unsigned fa) (s.unsigned fb)) (hfits : outlen ≤ 0xFFFF)
    (hdst : InRange (s.unsigned fc) outlen)
    (hapart : ¬ Overlap (s.unsigned fa) (s.unsigned fb) (s.unsigned fc) outlen)
    (hout : encodeBlocks s.field s.coder
      (segments (s.loadBytes (s.unsigned fa) (s.unsigned fb)) s.coder.dataLen) = .ok out) :
    exec (.enc fd fa fb fc) s =
      .next ((s.storeBytes (s.unsigned fc) out).setReg fd (BitVec.ofNat 16 outlen)).advance := by
  subst houtlen
  change command s (requireCoder s >>= _) = _
  rw [requireCoder_bind_of_ok hok]
  change command s (checkRange _ _ >>= _) = _
  rw [checkRange_bind_of_inRange hsrc, if_neg (Nat.not_lt.2 hfits), checkRange_bind_of_inRange hdst,
    checkOverlap_of_not hapart, ok_bind, hout]
  rfl

/-- Settles O49: every block of the segmentation encodes to a clean block that starts with it. -/
theorem encWritesCodewords : Obligations.EncWritesCodewords := by
  intro s fd fa fb fc hinv hok
  dsimp only
  intro hsrc hfits hdst hapart
  obtain ⟨hfield, hC⟩ := hinv.coder hok
  set data := s.loadBytes (s.unsigned fa) (s.unsigned fb) with hdata
  have hlen : data.length = s.unsigned fb := loadBytes_length _ _ _
  choose! enc henc hencLen hencTake hencClean using fun (D : List Byte) (hD : D.length = s.coder.dataLen) =>
    exists_encodeBlock_clean (hinv.field hfield) hC hD
  have hout : encodeBlocks s.field s.coder (segments data s.coder.dataLen) =
      .ok ((List.range (blockCount (s.unsigned fb) s.coder.dataLen)).flatMap
        fun b => enc (blockAt data s.coder.dataLen b)) := by
    rw [encodeBlocks_eq fun D hD => henc D (length_of_mem_segments hD), segments, hlen, List.flatMap_map]
  have hexec := exec_enc_of_inRange fd hok rfl hsrc hfits hdst hapart hout
  refine ⟨_, hexec, rfl, ?_, fun r hr => exec_reg_eq hexec (by simpa [destR] using hr),
    fun c hc => exec_read_outside hexec hinv hc, fun b hb => ?_⟩
  · change (((s.storeBytes _ _).setReg fd _).reg fd).toNat = _
    rw [State.reg_setReg_same, BitVec.toNat_ofNat, Nat.mod_eq_of_lt (by omega)]
  · have hKN : s.coder.dataLen ≤ s.coder.blockLen := Nat.le_add_right _ _
    have hblock := loadBytes_storeBytes_flatMap hinv.mem
      (fun b => hencLen (blockAt data s.coder.dataLen b) blockAt_length) (by omega) hdst hb
    refine ⟨fun j hj => ?_, hblock ▸ hencClean _ blockAt_length⟩
    have hbyte : (enc (blockAt data s.coder.dataLen b)).getD j 0 =
        data.getD (b * s.coder.dataLen + j) 0 := by
      rw [← blockAt_getD data b hj]
      conv_rhs => rw [← hencTake (blockAt data s.coder.dataLen b) blockAt_length]
      simp only [List.getD_eq_getElem?_getD, List.getElem?_take_of_lt hj]
    refine (loadBytes_getD _ _ (hj.trans_le hKN)).symm.trans ((congrArg (·.getD j 0) hblock).trans ?_)
    rw [hbyte]
    split
    · next hin => rw [hdata, loadBytes_getD _ _ hin, Nat.add_assoc]
    · next hout => exact List.getD_eq_default _ _ (by omega)

end Sys2Proof.Proofs
end

section
/-! SUPPORT. The key equation over any field (44_decoder_stages.md R245, R246): locator and evaluator of a set of
errors, the equation they solve modulo `x^e`, and that a solution of low degree is a multiple of them. -/

namespace Sys2Proof.Proofs

open Polynomial

variable {K : Type} [Field K]

/-! ### Locator and evaluator -/

/-- The factor `1 - a·x` for the location `a`. -/
noncomputable def locatorFactor (a : K) : K[X] := 1 - C a * X

@[simp] theorem eval_locatorFactor (a z : K) : (locatorFactor a).eval z = 1 - a * z := by
  simp [locatorFactor]

theorem natDegree_locatorFactor_le (a : K) : (locatorFactor a).natDegree ≤ 1 := by
  unfold locatorFactor
  compute_degree

theorem natDegree_locatorFactor {a : K} (ha : a ≠ 0) : (locatorFactor a).natDegree = 1 := by
  have hcoeff : (locatorFactor a).coeff 1 = -a := by simp [locatorFactor, coeff_one]
  exact le_antisymm (natDegree_locatorFactor_le a) (le_natDegree_of_ne_zero (by simpa [hcoeff] using ha))

theorem locatorFactor_ne_zero (a : K) : locatorFactor a ≠ 0 := by
  intro h
  exact one_ne_zero (α := K) (by simpa [h] using eval_locatorFactor a 0)

/-- A factor is coprime to whatever does not vanish at the inverse of its location. -/
theorem isCoprime_locatorFactor {a : K} (ha : a ≠ 0) {p : K[X]} (hp : p.eval a⁻¹ ≠ 0) :
    IsCoprime (locatorFactor a) p := by
  have hassoc : locatorFactor a = -C a * (X - C a⁻¹) := by
    have : C a * C a⁻¹ = 1 := by rw [← C_mul, mul_inv_cancel₀ ha, C_1]
    simp only [locatorFactor]
    linear_combination -this
  have hunit : IsUnit (-C a) := (isUnit_C.2 ha.isUnit).neg
  rw [hassoc, isCoprime_mul_unit_left_left hunit, (irreducible_X_sub_C _).coprime_iff_not_dvd, dvd_iff_isRoot]
  exact hp

section Errors

variable {ι : Type} [DecidableEq ι] (T : Finset ι) (x y : ι → K) (e : Nat)

/-- The locator of the errors at the locations `x j`: one factor each. -/
noncomputable def locator : K[X] := ∏ j ∈ T, locatorFactor (x j)

/-- The evaluator of the errors with magnitudes `y j` at the locations `x j`. -/
noncomputable def evaluator : K[X] := ∑ j ∈ T, C (y j) * ∏ k ∈ T.erase j, locatorFactor (x k)

/-- The polynomial of the first `e` power sums. -/
noncomputable def powerSums : K[X] := ∑ i ∈ Finset.range e, C (∑ j ∈ T, y j * x j ^ i) * X ^ i

/-- The key equation: each error's power sums are a geometric series, whose factor leaves `1` and a multiple of
`x^e`. -/
theorem exists_locator_mul_powerSums :
    ∃ w, locator T x * powerSums T x y e = evaluator T x y + w * X ^ e := by
  refine ⟨-∑ j ∈ T, C (y j * x j ^ e) * ∏ k ∈ T.erase j, locatorFactor (x k), ?_⟩
  have hsums : powerSums T x y e = ∑ j ∈ T, C (y j) * ∑ i ∈ Finset.range e, (C (x j) * X) ^ i := by
    simp only [powerSums, map_sum, Finset.sum_mul, Finset.mul_sum]
    rw [Finset.sum_comm]
    refine Finset.sum_congr rfl fun j _ => Finset.sum_congr rfl fun i _ => ?_
    rw [C_mul, C_pow, mul_pow, mul_assoc]
  rw [hsums, Finset.mul_sum, evaluator, neg_mul, Finset.sum_mul, ← sub_eq_add_neg, ← Finset.sum_sub_distrib]
  refine Finset.sum_congr rfl fun j hj => ?_
  have hgeom := mul_neg_geom_sum (C (x j) * X) e
  rw [locator, ← Finset.mul_prod_erase T _ hj, locatorFactor, C_mul, C_pow]
  rw [mul_pow] at hgeom
  linear_combination (C (y j) * ∏ k ∈ T.erase j, locatorFactor (x k)) * hgeom

variable {T x}

omit [DecidableEq ι] in
theorem natDegree_locator (hx : ∀ j ∈ T, x j ≠ 0) : (locator T x).natDegree = T.card := by
  rw [locator, natDegree_prod _ _ fun j _ => locatorFactor_ne_zero _,
    Finset.sum_congr rfl fun j hj => natDegree_locatorFactor (hx j hj), Finset.card_eq_sum_ones]

theorem natDegree_evaluator_le : (evaluator T x y).natDegree ≤ T.card - 1 := by
  refine natDegree_sum_le_of_forall_le _ _ fun j hj => (natDegree_C_mul_le _ _).trans ?_
  refine (natDegree_prod_le _ _).trans ((Finset.sum_le_card_nsmul _ _ 1 fun k _ =>
    natDegree_locatorFactor_le _).trans ?_)
  rw [Finset.card_erase_of_mem hj, smul_eq_mul, mul_one]

omit [DecidableEq ι] in
theorem locator_eval_zero : (locator T x).eval 0 = 1 := by simp [locator, eval_prod]

omit [DecidableEq ι] in
/-- The roots of the locator are the inverses of the locations. -/
theorem locator_eval_eq_zero_iff (z : K) : (locator T x).eval z = 0 ↔ ∃ j ∈ T, x j * z = 1 := by
  simp only [locator, eval_prod, Finset.prod_eq_zero_iff, eval_locatorFactor, sub_eq_zero, eq_comm (a := (1 : K))]

/-- At the inverse of a location only its own error counts (44_decoder_stages.md R248). -/
theorem evaluator_eval_inv {j : ι} (hj : j ∈ T) (hx : x j ≠ 0) :
    (evaluator T x y).eval (x j)⁻¹ = y j * ∏ k ∈ T.erase j, (1 - x k * (x j)⁻¹) := by
  rw [evaluator, eval_finsetSum, Finset.sum_eq_single_of_mem j hj fun k _ hk => ?_]
  · simp [eval_prod]
  · have hmem : j ∈ T.erase k := Finset.mem_erase.2 ⟨hk.symm, hj⟩
    simp [eval_prod, ← Finset.mul_prod_erase _ _ hmem, mul_inv_cancel₀ hx]

variable {y}

theorem isCoprime_locator_evaluator (hx : ∀ j ∈ T, x j ≠ 0) (hinj : Set.InjOn x T)
    (hy : ∀ j ∈ T, y j ≠ 0) :
    IsCoprime (locator T x) (evaluator T x y) := by
  refine IsCoprime.prod_left fun j hj => isCoprime_locatorFactor (hx j hj) ?_
  rw [evaluator_eval_inv y hj (hx j hj)]
  refine mul_ne_zero (hy j hj) (Finset.prod_ne_zero_iff.2 fun k hk h => ?_)
  obtain ⟨hkj, hk⟩ := Finset.mem_erase.1 hk
  exact hkj (hinj hk hj (mul_inv_eq_one₀ (hx j hj) |>.1 (sub_eq_zero.1 h).symm))

end Errors

/-! ### Solutions of the key equation -/

/-- A multiple of `x^e` of lower degree is 0. -/
theorem eq_zero_of_eq_mul_X_pow {e : Nat} {p q : K[X]} (h : p = q * X ^ e) (hdeg : p.natDegree < e) : q = 0 := by
  by_contra hq
  rw [h, natDegree_mul_X_pow _ hq] at hdeg
  omega

/-- A solution of low degree, coprime as the Euclidean loop leaves it, is a constant multiple of any other
coprime solution of low degree. -/
theorem exists_const_of_key_equation {e : Nat} {S t r u σ ω w : K[X]} (htr : r = t * S + u * X ^ e)
    (htu : IsCoprime t u) (ht : 2 * t.natDegree ≤ e) (hr : 2 * r.natDegree < e)
    (hσω : σ * S = ω + w * X ^ e) (hcop : IsCoprime σ ω) (hσ : 2 * σ.natDegree ≤ e)
    (hω : 2 * ω.natDegree < e) (hσ0 : σ ≠ 0) :
    ∃ c : K, c ≠ 0 ∧ t = C c * σ ∧ r = C c * ω := by
  have hdiff : t * ω - σ * r = -(t * w + σ * u) * X ^ e := by
    linear_combination -t * hσω + (-σ) * htr
  have hdeg : (t * ω - σ * r).natDegree < e := by
    have h₁ := natDegree_mul_le (p := t) (q := ω)
    have h₂ := natDegree_mul_le (p := σ) (q := r)
    have h₃ := natDegree_sub_le (t * ω) (σ * r)
    omega
  have hzero : t * w + σ * u = 0 := neg_eq_zero.1 (eq_zero_of_eq_mul_X_pow hdiff hdeg)
  have hcross : t * ω = σ * r := by rw [← sub_eq_zero, hdiff, hzero, neg_zero, zero_mul]
  obtain ⟨l, rfl⟩ : σ ∣ t := hcop.dvd_of_dvd_mul_right (Dvd.intro _ hcross.symm)
  have hu : u = l * -w := mul_left_cancel₀ hσ0 (by linear_combination hzero)
  have hunit : IsUnit l := htu.isUnit_of_dvd' (Dvd.intro_left _ rfl) (Dvd.intro _ hu.symm)
  obtain ⟨c, hc, rfl⟩ := Polynomial.isUnit_iff.1 hunit
  exact ⟨c, hc.ne_zero, mul_comm _ _, mul_left_cancel₀ hσ0 (by linear_combination -hcross)⟩

end Sys2Proof.Proofs
end

section
/-! SUPPORT. The bytes of a valid field as the elements of a field in Mathlib's sense (41_field.md R139), and the
machine's polynomials as polynomials over it (42_polynomial.md R160–R171): what `exp` and `log` compute becomes
arithmetic, so Mathlib's facts about degrees, divisibility and roots apply to it. -/

namespace Sys2Proof.Proofs

open Sys2Proof.Machine Sys2Proof.Safety
open Polynomial (C X)

/-! ### The field -/

/-- `φ` takes the bytes of `F` into a field, XOR to sums and `gf_mul` to products. -/
structure Realizes (F : Field) {K : Type} [Field K] (φ : Byte → K) : Prop where
  injective : Function.Injective φ
  one : φ 1 = 1
  xor (a b : Byte) : φ (a ^^^ b) = φ a + φ b
  mul (a b : Byte) : φ (gfMul F a b) = φ a * φ b

/-- The bytes with XOR and the product of a valid field. -/
abbrev byteField {F : Machine.Field} (h : FieldValid F) : Field Byte :=
  @Field.ofMinimalAxioms Byte ⟨(· ^^^ ·)⟩ ⟨gfMul F⟩ ⟨id⟩ ⟨fun a => (gfInv F a).toOption.getD 0⟩ ⟨0⟩ ⟨1⟩
    BitVec.xor_assoc (fun _ => BitVec.zero_xor) (fun _ => BitVec.xor_self) (gfMul_assoc h) (gfMul_comm F)
    (gfMul_one_left h)
    (fun a ha => by
      obtain ⟨v, hv, hmul⟩ := exists_gfInv h ha
      change gfMul F a ((gfInv F a).toOption.getD 0) = 1
      rwa [hv])
    rfl (gfMul_xor_right h) ⟨0, 1, by decide⟩

theorem exists_realizes {F : Machine.Field} (h : FieldValid F) :
    ∃ (K : Type) (_ : Field K) (φ : Byte → K), Realizes F φ :=
  ⟨Byte, byteField h, id, @Realizes.mk F Byte (byteField h) id Function.injective_id rfl
    (fun _ _ => rfl) fun _ _ => rfl⟩

variable {F : Machine.Field} {K : Type} [Field K] {φ : Byte → K}

namespace Realizes

variable (hφ : Realizes F φ)
include hφ

theorem zero : φ 0 = 0 := left_eq_add.1 (hφ.xor 0 0)

theorem eq_zero_iff (a : Byte) : φ a = 0 ↔ a = 0 := by
  rw [← hφ.injective.eq_iff, hφ.zero]

/-- XOR is its own inverse, so the field has characteristic 2. -/
theorem two : (2 : K) = 0 := by
  rw [← one_add_one_eq_two, ← hφ.one, ← hφ.xor, ← hφ.zero]
  rfl

theorem pow (a : Byte) (n : Nat) : φ (gfPow F a n) = φ a ^ n := by
  induction n with
  | zero => simpa [gfPow] using hφ.one
  | succ n ih => rw [gfPow, hφ.mul, ih, pow_succ]

theorem inv (h : FieldValid F) {a v : Byte} (ha : a ≠ 0) (hv : gfInv F a = .ok v) : φ v = (φ a)⁻¹ := by
  obtain ⟨w, hw, hmul⟩ := exists_gfInv h ha
  obtain rfl : w = v := Except.ok.inj (hw.symm.trans hv)
  exact eq_inv_of_mul_eq_one_right (by rw [← hφ.mul, hmul, hφ.one])

theorem xorRange (n : Nat) (f : Nat → Byte) : φ (xorRange n f) = ∑ i ∈ Finset.range n, φ (f i) := by
  induction n with
  | zero => simpa using hφ.zero
  | succ n ih => rw [xorRange_succ, hφ.xor, ih, Finset.sum_range_succ]

theorem alphaPow (h : FieldValid F) (i : Nat) : φ (alphaPow F.prim i) = φ 2 ^ i := by
  rw [← gfPow_two h, hφ.pow]

end Realizes

/-! ### Polynomials -/

/-- The polynomial with the coefficients of a list of bytes. -/
noncomputable def toPoly (φ : Byte → K) (p : Poly) : Polynomial K :=
  ∑ j ∈ Finset.range p.length, Polynomial.monomial j (φ (coefAt p j))

namespace Realizes

section

variable (hφ : Realizes F φ)
include hφ

theorem coeff_toPoly (p : Poly) (j : Nat) : (toPoly φ p).coeff j = φ (coefAt p j) := by
  simp only [toPoly, Polynomial.finsetSum_coeff, Polynomial.coeff_monomial, Finset.sum_ite_eq',
    Finset.mem_range]
  split
  · rfl
  · next hj => rw [coefAt_of_length_le (Nat.not_lt.1 hj), hφ.zero]

theorem toPoly_congr {p q : Poly} (h : ∀ j, coefAt p j = coefAt q j) : toPoly φ p = toPoly φ q :=
  Polynomial.ext fun j => by rw [hφ.coeff_toPoly, hφ.coeff_toPoly, h]

@[simp] theorem toPoly_normalize (p : Poly) : toPoly φ (normalize p) = toPoly φ p :=
  hφ.toPoly_congr (coefAt_normalize_eq p)

@[simp] theorem toPoly_monomial (d : Nat) (c : Byte) :
    toPoly φ (monomial d c) = Polynomial.monomial d (φ c) := by
  ext j
  rw [hφ.coeff_toPoly, coefAt_monomial, Polynomial.coeff_monomial, apply_ite φ, hφ.zero]
  simp only [eq_comm]

@[simp] theorem toPoly_zeroPoly : toPoly φ zeroPoly = 0 := by
  ext j
  rw [hφ.coeff_toPoly, coefAt_zeroPoly, hφ.zero, Polynomial.coeff_zero]

@[simp] theorem toPoly_onePoly : toPoly φ onePoly = 1 := by
  rw [show onePoly = monomial 0 1 from rfl, hφ.toPoly_monomial, hφ.one]
  rfl

@[simp] theorem toPoly_polyAdd (p q : Poly) : toPoly φ (polyAdd p q) = toPoly φ p + toPoly φ q := by
  ext j
  rw [Polynomial.coeff_add, hφ.coeff_toPoly, hφ.coeff_toPoly, hφ.coeff_toPoly, coefAt_polyAdd, hφ.xor]

theorem toPoly_polyMul (p : Poly) {q : Poly} (hq : q ≠ []) :
    toPoly φ (polyMul F p q) = toPoly φ p * toPoly φ q := by
  ext j
  simp only [hφ.coeff_toPoly, coefAt_polyMul F p hq, hφ.xorRange, hφ.mul, Polynomial.coeff_mul,
    Finset.Nat.sum_antidiagonal_eq_sum_range_succ_mk]

theorem toPoly_polyScale (h : FieldValid F) (p : Poly) (s : Byte) :
    toPoly φ (polyScale F p s) = C (φ s) * toPoly φ p := by
  ext j
  rw [Polynomial.coeff_C_mul, hφ.coeff_toPoly, hφ.coeff_toPoly, coefAt_polyScale h, hφ.mul, mul_comm]

theorem eval_toPoly (h : FieldValid F) {p : Poly} (hp : p ≠ []) (x : Byte) :
    φ (eval F p x) = (toPoly φ p).eval (φ x) := by
  rw [eval_eq_xorRange h hp, hφ.xorRange, toPoly, Polynomial.eval_finsetSum]
  exact Finset.sum_congr rfl fun j _ => by rw [Polynomial.eval_monomial, hφ.mul, hφ.pow]

theorem natDegree_toPoly {p : Poly} (hp : IsValue p) : (toPoly φ p).natDegree = deg p := by
  have hle : (toPoly φ p).natDegree ≤ deg p := Polynomial.natDegree_le_iff_coeff_eq_zero.2 fun j hj => by
    rw [hφ.coeff_toPoly, coefAt, if_neg (Nat.not_le.2 hj), hφ.zero]
  obtain rfl | hlead := hp
  · exact le_antisymm hle (Nat.zero_le _)
  · refine le_antisymm hle (Polynomial.le_natDegree_of_ne_zero ?_)
    rw [hφ.coeff_toPoly, Ne, hφ.eq_zero_iff, coefAt, if_pos le_rfl, Nat.sub_self]
    rwa [List.headD_eq_head?_getD, List.head?_eq_getElem?, ← List.getD_eq_getElem?_getD] at hlead

end

end Realizes

end Sys2Proof.Proofs
end

section
/-! SUPPORT. The Euclidean key-equation solver in a valid field (44_decoder_stages.md R245): every pass keeps the
two Bézout equations of the remainders and lowers their degree, so the loop completes, and the solver can only
fail at `t(0) = 0`. -/

namespace Sys2Proof.Proofs

open Sys2Proof.Machine Sys2Proof.Safety
open Polynomial (C X)

variable {F : Machine.Field} {K : Type} [Field K] {φ : Byte → K}

/-- What holds before each pass, beyond the degrees: both remainders are combinations of `S` and `x^e`, with
coprime factors, and the last one is still long. -/
structure Bezout (φ : Byte → K) (e : Nat) (S : Polynomial K) (rLast r tLast t : Poly) : Prop where
  degrees : EuclidInv e rLast r tLast t
  long : e ≤ 2 * deg rLast
  combine : ∃ uLast u : Polynomial K, toPoly φ rLast = toPoly φ tLast * S + uLast * X ^ e ∧
    toPoly φ r = toPoly φ t * S + u * X ^ e ∧ toPoly φ t * uLast + toPoly φ tLast * u = 1

theorem isValue_polyScale (F : Machine.Field) {p : Poly} (s : Byte) (hp : IsValue p) :
    IsValue (polyScale F p s) :=
  (degLe_polyScale F s ⟨le_rfl, hp⟩).form

section Loop

variable (h : FieldValid F) (hφ : Realizes F φ)
include hφ

theorem Bezout.start {e : Nat} {sp : Poly} (hform : IsValue sp) (hdeg : deg sp < e) :
    Bezout φ e (toPoly φ sp) (monomial e 1) sp zeroPoly onePoly := by
  refine ⟨.start hform hdeg, ?_, 1, 0, ?_, ?_, ?_⟩
  · simp [monomial, deg]
    omega
  · rw [hφ.toPoly_monomial, hφ.one, hφ.toPoly_zeroPoly, Polynomial.X_pow_eq_monomial, zero_mul, one_mul, zero_add]
  · simp [hφ.toPoly_onePoly]
  · simp [hφ.toPoly_onePoly, hφ.toPoly_zeroPoly]

theorem Bezout.pass {e : Nat} {S : Polynomial K} {rLast r tLast t q r' : Poly} (hB : Bezout φ e S rLast r tLast t)
    (hlong : e ≤ 2 * deg r) (hq : DegLe (deg rLast - deg r) q) (hr' : DegLe (deg rLast) r')
    (hfalls : deg r' < deg r) (hlaw : rLast = polyAdd (polyMul F q r) r') :
    Bezout φ e S r r' t (polyAdd (polyMul F q t) tLast) := by
  obtain ⟨uLast, u, hrLast, hr, hone⟩ := hB.combine
  have htwo : (2 : Polynomial K) = 0 := by rw [← Polynomial.C_ofNat, hφ.two, Polynomial.C_0]
  have hdiv := congrArg (toPoly φ) hlaw
  rw [hφ.toPoly_polyAdd, hφ.toPoly_polyMul q (ne_nil_of_isValue hB.degrees.r_form)] at hdiv
  refine ⟨hB.degrees.pass hq hr' hfalls, hlong, u, toPoly φ q * u + uLast, hr, ?_, ?_⟩ <;>
    rw [hφ.toPoly_polyAdd, hφ.toPoly_polyMul q (ne_nil_of_isValue hB.degrees.t_form)]
  · linear_combination hrLast - hdiv - toPoly φ q * hr - toPoly φ q * (toPoly φ t * S + u * X ^ e) * htwo
  · linear_combination hone + toPoly φ q * toPoly φ t * u * htwo

include h

/-- With more passes than the degree of the remainder the loop completes. -/
theorem exists_euclidLoop {e : Nat} (he : 1 ≤ e) {S : Polynomial K} {fuel : Nat} {rLast r tLast t : Poly}
    (hB : Bezout φ e S rLast r tLast t) (hfuel : deg r < fuel) :
    ∃ rLast' r' tLast' t', euclidLoop F e fuel rLast r tLast t = .ok (t', r') ∧
      Bezout φ e S rLast' r' tLast' t' ∧ 2 * deg r' < e := by
  induction fuel generalizing rLast r tLast t with
  | zero => omega
  | succ fuel ih =>
    by_cases hshort : 2 * deg r < e
    · exact ⟨_, _, _, _, euclidLoop_of_lt hshort _ _ _ _, hB, hshort⟩
    · have hr0 : ¬ isZero r := by
        rintro rfl
        exact hshort he
      obtain ⟨q, r', hdiv, -, -, hlaw, hrem⟩ := exists_polyDiv h hB.degrees.rLast_le.form hB.degrees.r_form hr0
      obtain ⟨hq, hr'⟩ := (polyDiv_ends (rs := []) F rLast r).of_ok hdiv hB.degrees.rLast_le.form
      have hfalls : deg r' < deg r := hrem.elim (fun hz => by rw [hz]; change 0 < _; omega) id
      have hloop : euclidLoop F e (fuel + 1) rLast r tLast t =
          euclidLoop F e fuel r r' t (polyAdd (polyMul F q t) tLast) := by
        rw [euclidLoop, if_pos (Nat.not_lt.1 hshort), if_neg hr0, hdiv]
        exact if_neg (Nat.not_le.2 hfalls)
      rw [hloop]
      exact ih (hB.pass hφ (Nat.not_lt.1 hshort) hq hr' hfalls hlaw) (by omega)

/-- The solver scales what the loop ends with by `1/t(0)`, or fails when there is no such byte. -/
theorem exists_euclid {e : Nat} {sp : Poly} (hform : IsValue sp) (hdeg : deg sp < e) :
    ∃ rLast r tLast t, Bezout φ e (toPoly φ sp) rLast r tLast t ∧ 2 * deg r < e ∧
      (coefAt t 0 = 0 → euclid F e sp = failDF .kesT0) ∧
      ∀ u, coefAt t 0 ≠ 0 → gfInv F (coefAt t 0) = .ok u →
        euclid F e sp = .ok (polyScale F t u, polyScale F r u) := by
  have hfuel : deg sp < sp.length :=
    Nat.sub_lt (List.length_pos_iff.2 (ne_nil_of_isValue hform)) Nat.one_pos
  obtain ⟨rLast, r, tLast, t, hloop, hB, hshort⟩ := exists_euclidLoop h hφ (by omega)
    (Bezout.start hφ hform hdeg) hfuel
  refine ⟨rLast, r, tLast, t, hB, hshort, fun h0 => ?_, fun u h0 hu => ?_⟩ <;>
    rw [euclid, hloop, ok_bind]
  · exact if_pos h0
  · refine (if_neg h0).trans ?_
    rw [hu]
    rfl

end Loop

end Sys2Proof.Proofs
end

section
/-! SUPPORT. The Chien search, Forney's formula and the correction in a valid field (44_decoder_stages.md
R247–R249): what each answers in closed form, and that none of them raises an error on locations that are
distinct and not 0. -/

namespace Sys2Proof.Proofs

open Sys2Proof.Machine Sys2Proof.Safety

/-! ### Inverses -/

/-- The byte that `gf_inv` answers for a byte other than 0 (41_field.md R136). -/
def inverse (F : Machine.Field) (a : Byte) : Byte := gfExp F (255 - F.logEntry a)

theorem gfInv_of_ne (F : Machine.Field) {a : Byte} (ha : a ≠ 0) : gfInv F a = .ok (inverse F a) := if_neg ha

section Inverse

variable {F : Machine.Field} (h : FieldValid F)
include h

theorem gfMul_inverse {a : Byte} (ha : a ≠ 0) : gfMul F a (inverse F a) = 1 := by
  obtain ⟨v, hv, hmul⟩ := exists_gfInv h ha
  rwa [← Except.ok.inj (hv.symm.trans (gfInv_of_ne F ha))]

theorem inverse_ne_zero {a : Byte} (ha : a ≠ 0) : inverse F a ≠ 0 := by
  intro h0
  have hmul := gfMul_inverse h ha
  rw [h0] at hmul
  exact absurd ((gfMul_zero_right F a).symm.trans hmul) (by decide)

theorem inverse_inverse {a : Byte} (ha : a ≠ 0) : inverse F (inverse F a) = a := by
  have hv := inverse_ne_zero h ha
  calc inverse F (inverse F a)
    _ = gfMul F (gfMul F a (inverse F a)) (inverse F (inverse F a)) := by
      rw [gfMul_inverse h ha, gfMul_one_left h]
    _ = a := by rw [gfMul_assoc h, gfMul_inverse h hv]; exact gfMul_one_right h a

end Inverse

/-! ### The Chien search -/

theorem mem_chienCandidates (x : Byte) : x ∈ chienCandidates ↔ x ≠ 0 := by
  simp only [chienCandidates, List.mem_map, List.mem_range]
  constructor
  · rintro ⟨i, hi, rfl⟩ h0
    have := congrArg BitVec.toNat h0
    simp at this
    omega
  · intro hx
    have hpos : x.toNat ≠ 0 := fun e => hx (BitVec.eq_of_toNat_eq e)
    exact ⟨x.toNat - 1, by omega, by rw [Nat.sub_add_cancel (by omega), BitVec.ofNat_toNat, BitVec.setWidth_eq]⟩

theorem nodup_chienCandidates : chienCandidates.Nodup := by
  refine List.Nodup.map_on (fun i hi j hj e => ?_) List.nodup_range
  rw [List.mem_range] at hi hj
  have := congrArg BitVec.toNat e
  simp at this
  omega

/-- The candidates at which `sigma` vanishes, in the order of the search. -/
def chienRoots (F : Machine.Field) (sigma : Poly) : List Byte :=
  chienCandidates.filter fun x => eval F sigma x = 0

/-- The search gathers the inverses of the roots until it has as many as it looks for. -/
theorem chienFrom_eq (F : Machine.Field) (sigma : Poly) {n : Nat} {xs locs : List Byte}
    (hxs : ∀ x ∈ xs, x ≠ 0) (hlocs : locs.length ≤ n) :
    chienFrom F sigma n xs locs =
      if (locs ++ (xs.filter fun x => eval F sigma x = 0).map (inverse F)).length < n then failDF .chien
      else .ok ((locs ++ (xs.filter fun x => eval F sigma x = 0).map (inverse F)).take n) := by
  induction xs generalizing locs with
  | nil => simp [chienFrom, List.take_of_length_le hlocs]
  | cons x xs ih =>
    have hxs' (y : Byte) (hy : y ∈ xs) : y ≠ 0 := hxs y (by simp [hy])
    rcases Nat.lt_or_ge locs.length n with hlt | hge
    · rw [chienFrom, if_pos hlt]
      by_cases hroot : eval F sigma x = 0
      · rw [if_pos hroot, gfInv_of_ne F (hxs x (by simp)), ok_bind, ih hxs' (by simpa using hlt),
          List.filter_cons_of_pos (by simpa using hroot), List.map_cons, List.append_assoc,
          List.singleton_append]
      · rw [if_neg hroot, ih hxs' hlocs, List.filter_cons_of_neg (by simpa using hroot)]
    · rw [chienFrom_of_le sigma hge, if_neg (by simp; omega), List.take_left' (by omega)]

/-- The search fails when the roots are fewer than the degree (R247). -/
theorem chien_eq (F : Machine.Field) (sigma : Poly) :
    chien F sigma = if (chienRoots F sigma).length < deg sigma then failDF .chien
      else .ok (((chienRoots F sigma).map (inverse F)).take (deg sigma)) := by
  rw [chien, chienFrom_eq F sigma (fun x => (mem_chienCandidates x).1) (Nat.zero_le _), List.nil_append,
    List.length_map]
  rfl

theorem mem_chienRoots {F : Machine.Field} {sigma : Poly} {x : Byte} :
    x ∈ chienRoots F sigma ↔ x ≠ 0 ∧ eval F sigma x = 0 := by
  simp [chienRoots, mem_chienCandidates]

/-- The locations are distinct and not 0. -/
theorem locations_nodup {F : Machine.Field} (h : FieldValid F) (sigma : Poly) :
    ((chienRoots F sigma).map (inverse F)).Nodup ∧ ∀ x ∈ (chienRoots F sigma).map (inverse F), x ≠ 0 := by
  refine ⟨List.Nodup.map_on (fun x hx y hy e => ?_) (nodup_chienCandidates.filter _), fun x hx => ?_⟩
  · rw [← inverse_inverse h (mem_chienRoots.1 hx).1, e, inverse_inverse h (mem_chienRoots.1 hy).1]
  · obtain ⟨y, hy, rfl⟩ := List.mem_map.1 hx
    exact inverse_ne_zero h (mem_chienRoots.1 hy).1

/-! ### Forney's formula -/

section Forney

variable {F : Machine.Field} {K : Type} [Field K] {φ : Byte → K} (hφ : Realizes F φ)
include hφ

theorem Realizes.inverse (h : FieldValid F) {a : Byte} (ha : a ≠ 0) : φ (inverse F a) = (φ a)⁻¹ :=
  hφ.inv h ha (gfInv_of_ne F ha)

theorem Realizes.forneyDen (xinv : Byte) (others : List Byte) :
    φ (forneyDen F xinv others) = (others.map fun y => φ y * φ xinv + 1).prod := by
  have hfold (d : Byte) : φ (others.foldl (fun d y => gfMul F d (gfMul F y xinv ^^^ 1)) d) =
      φ d * (others.map fun y => φ y * φ xinv + 1).prod := by
    induction others generalizing d with
    | nil => simp
    | cons y ys ih =>
      rw [List.foldl_cons, ih, hφ.mul, hφ.xor, hφ.mul, hφ.one, List.map_cons, List.prod_cons, mul_assoc]
  rw [Machine.forneyDen, hfold, hφ.one, one_mul]

/-- The denominator is not 0 when the other locations differ from this one. -/
theorem Realizes.forneyDen_prod_ne_zero {x : Byte} {others : List Byte} (hx : x ≠ 0)
    (hne : ∀ y ∈ others, y ≠ x) :
    (others.map fun y => φ y * (φ x)⁻¹ + 1).prod ≠ 0 := by
  have hx' : φ x ≠ 0 := (hφ.eq_zero_iff x).not.2 hx
  intro h
  obtain ⟨y, hy, hzero⟩ := List.mem_map.1 (List.prod_eq_zero_iff.1 h)
  refine hne y hy (hφ.injective ?_)
  field_simp at hzero
  linear_combination hzero - φ x * hφ.two

/-- At a location of a list of distinct ones Forney's formula gives a magnitude (R248). -/
theorem Realizes.exists_forneyAt (h : FieldValid F) {omega : Poly} (homega : omega ≠ []) {locs : List Byte}
    (hnodup : locs.Nodup) {i : Nat} {x : Byte} (hi : locs[i]? = some x) (hx : x ≠ 0) :
    ∃ m, forneyAt F omega locs i x = .ok m ∧
      φ m * φ x ^ F.base * ((locs.erase x).map fun y => φ y * (φ x)⁻¹ + 1).prod =
        (toPoly φ omega).eval (φ x)⁻¹ := by
  obtain ⟨hlt, rfl⟩ := List.getElem?_eq_some_iff.1 hi
  set x := locs[i]
  have hx' : φ x ≠ 0 := (hφ.eq_zero_iff x).not.2 hx
  have herase : locs.eraseIdx i = locs.erase x := (hnodup.erase_getElem i hlt).symm
  have hden := hφ.forneyDen_prod_ne_zero hx fun y hy => ((hnodup.mem_erase_iff).1 hy).1
  have hφden := hφ.forneyDen (Proofs.inverse F x) (locs.erase x)
  rw [hφ.inverse h hx] at hφden
  have hden' : Machine.forneyDen F (Proofs.inverse F x) (locs.erase x) ≠ 0 := fun e =>
    hden (by rw [← hφden, e, hφ.zero])
  rw [forneyAt, gfInv_of_ne F hx, ok_bind, herase, gfInv_of_ne F hden', ok_bind]
  refine ⟨_, rfl, ?_⟩
  have hbase : F.base = 0 ∨ F.base = 1 := by unfold Field.base; cases F.gb <;> simp
  rcases hbase with hbase | hbase <;>
    simp [hbase, hφ.mul, hφ.inverse h hx, hφ.inverse h hden', hφden, hφ.eval_toPoly h homega, hden, hx']

omit hφ in
theorem forneyFrom_eq_map {omega : Poly} {locs xs : List Byte} {k : Nat} {f : Byte → Byte}
    (hf : ∀ i x, xs[i]? = some x → forneyAt F omega locs (k + i) x = .ok (f x)) :
    forneyFrom F omega locs k xs = .ok (xs.map f) := by
  induction xs generalizing k with
  | nil => rfl
  | cons x xs ih =>
    have hrest := ih (k := k + 1) fun i y hy => by
      rw [Nat.add_right_comm]
      exact hf (i + 1) y (by simpa using hy)
    have hfirst : forneyAt F omega locs k x = .ok (f x) := hf 0 x rfl
    rw [forneyFrom, hfirst, ok_bind, hrest]
    rfl

/-- Forney's formula answers a magnitude for each of distinct locations (R248). -/
theorem Realizes.exists_forney (h : FieldValid F) {omega : Poly} (homega : omega ≠ []) {locs : List Byte}
    (hnodup : locs.Nodup) (hnz : ∀ x ∈ locs, x ≠ 0) :
    ∃ f : Byte → Byte, forney F omega locs = .ok (locs.map f) ∧ ∀ x ∈ locs,
      φ (f x) * φ x ^ F.base * ((locs.erase x).map fun y => φ y * (φ x)⁻¹ + 1).prod =
        (toPoly φ omega).eval (φ x)⁻¹ := by
  have hat (x : Byte) (hx : x ∈ locs) : ∃ m, forneyAt F omega locs (locs.idxOf x) x = .ok m ∧
      φ m * φ x ^ F.base * ((locs.erase x).map fun y => φ y * (φ x)⁻¹ + 1).prod =
        (toPoly φ omega).eval (φ x)⁻¹ :=
    hφ.exists_forneyAt h homega hnodup (List.getElem?_idxOf hx) (hnz x hx)
  choose! f hf hmag using hat
  refine ⟨f, forneyFrom_eq_map fun i x hi => ?_, hmag⟩
  obtain ⟨hlt, rfl⟩ := List.getElem?_eq_some_iff.1 hi
  have hidx : locs.idxOf locs[i] = 0 + i := by rw [hnodup.idxOf_getElem, Nat.zero_add]
  rw [← hidx, hf _ (List.getElem_mem hlt)]

end Forney

/-! ### The correction -/

/-- Locations inside the block have their offsets (R249). -/
theorem positions_eq_map {F : Machine.Field} {n : Nat} {xs : List Byte}
    (hxs : ∀ x ∈ xs, x ≠ 0 ∧ F.logEntry x < n) :
    positions F n xs = .ok (xs.map fun x => n - 1 - F.logEntry x) := by
  induction xs with
  | nil => rfl
  | cons x xs ih =>
    obtain ⟨hx, hlt⟩ := hxs x (by simp)
    have hlog : gfLog F x = .ok (F.logEntry x) := if_neg hx
    rw [positions, hlog, ok_bind, if_neg (by omega), ih fun y hy => hxs y (by simp [hy])]
    rfl

/-- Each byte takes the magnitudes given for its offset, one after another (R249). -/
theorem applyCorrections_getElem (block : List Byte) (cs : List (Nat × Byte)) {p : Nat}
    (hp : p < (applyCorrections block cs).length) :
    (applyCorrections block cs)[p] = block[p]'(by simpa using hp) ^^^
      xorSum ((cs.filter fun c => c.1 = p).map (·.2)) := by
  induction cs generalizing block with
  | nil => simp [applyCorrections, xorSum]
  | cons c cs ih =>
    simp only [applyCorrections]
    rw [ih, List.getElem_modify]
    by_cases hc : c.1 = p
    · rw [if_pos hc, List.filter_cons_of_pos (by simpa using hc), List.map_cons, xorSum, BitVec.xor_assoc]
    · rw [if_neg hc, List.filter_cons_of_neg (by simpa using hc)]

end Sys2Proof.Proofs
end

section
/-! SUPPORT. The correction bound (43_coder.md R221 (c)): the errors of a block as locations and magnitudes, the
syndromes as their power sums, and the decoder's stages one by one, each answering what the errors are. -/

namespace Sys2Proof.Proofs

open Sys2Proof.Machine Sys2Proof.Safety
open Polynomial (C X)

/-! ### Errors -/

/-- The exponents at which an error has a coefficient other than 0. -/
def errorSet (err : List Byte) : Finset Nat := (Finset.range err.length).filter fun j => coefAt err j ≠ 0

theorem mem_errorSet {err : List Byte} {j : Nat} : j ∈ errorSet err ↔ coefAt err j ≠ 0 := by
  simp only [errorSet, Finset.mem_filter, Finset.mem_range, and_iff_right_iff_imp]
  intro hj
  by_contra hge
  exact hj (coefAt_of_length_le (Nat.not_lt.1 hge))

theorem card_errorSet (err : List Byte) : (errorSet err).card = (err.filter fun c => c ≠ 0).length := by
  induction err with
  | nil => rfl
  | cons c cs ih =>
    have hlow : (Finset.range cs.length).filter (fun j => coefAt (c :: cs) j ≠ 0) = errorSet cs :=
      Finset.filter_congr fun j hj => by rw [coefAt_cons, if_neg (Finset.mem_range.1 hj).ne]
    have htop : coefAt (c :: cs) cs.length = c := by rw [coefAt_cons, if_pos rfl]
    rw [errorSet, List.length_cons, Finset.range_add_one, Finset.filter_insert, hlow, htop]
    by_cases hc : c = 0
    · rw [if_neg (not_not.2 hc), ih, List.filter_cons_of_neg (by simpa using hc)]
    · rw [if_pos hc, Finset.card_insert_of_notMem, ih, List.filter_cons_of_pos (by simpa using hc),
        List.length_cons]
      rw [mem_errorSet, coefAt_of_length_le le_rfl]
      exact not_not.2 rfl

/-- Blocks differ where the XOR of their bytes is not 0. -/
theorem card_errorSet_zipWith (B B' : List Byte) :
    (errorSet (List.zipWith (· ^^^ ·) B B')).card = distance B B' := by
  rw [card_errorSet, distance, ← List.map_uncurry_zip_eq_zipWith, List.filter_map, List.length_map]
  congr 2
  funext c
  exact decide_eq_decide.2 (not_congr BitVec.xor_eq_zero_iff)

section Errors

variable {K : Type} [Field K] (φ : Byte → K) (F : Machine.Field) (err : List Byte)

/-- The location of the coefficient of `x^j`: `α^j` (44_decoder_stages.md R249). -/
def location (j : Nat) : K := φ (alphaPow F.prim j)

/-- The magnitude at `x^j`, times the power of its location by which the first syndrome starts. -/
def magnitude (j : Nat) : K := φ (coefAt err j) * location φ F j ^ F.base

variable {φ F err} (h : FieldValid F) (hφ : Realizes F φ)
include h

theorem alphaPow_injOn (hlen : err.length ≤ 255) : Set.InjOn (alphaPow F.prim) (errorSet err) := by
  intro i hi j hj e
  have hlt {k : Nat} (hk : k ∈ errorSet err) : k < 255 :=
    (Finset.mem_range.1 (Finset.mem_filter.1 hk).1).trans_le hlen
  exact alphaPow_inj h.primitive (hlt hi) (hlt hj) e

include hφ

theorem location_ne_zero (j : Nat) : location φ F j ≠ 0 :=
  (hφ.eq_zero_iff _).not.2 (alphaPow_ne_zero h.primitive j)

theorem location_injOn (hlen : err.length ≤ 255) : Set.InjOn (location φ F) (errorSet err) :=
  fun _ hi _ hj e => alphaPow_injOn h hlen hi hj (hφ.injective e)

theorem magnitude_ne_zero {j : Nat} (hj : j ∈ errorSet err) : magnitude φ F err j ≠ 0 :=
  mul_ne_zero ((hφ.eq_zero_iff _).not.2 (mem_errorSet.1 hj)) (pow_ne_zero _ (location_ne_zero h hφ j))

/-- The value of the error at `α^(i+b)` is a power sum. -/
theorem eval_error (i : Nat) :
    (toPoly φ err).eval (φ (alphaPow F.prim (i + F.base))) =
      ∑ j ∈ errorSet err, magnitude φ F err j * location φ F j ^ i := by
  have hpow (j : Nat) : φ (alphaPow F.prim (i + F.base)) ^ j = location φ F j ^ F.base * location φ F j ^ i := by
    rw [location, hφ.alphaPow h, hφ.alphaPow h, ← pow_add, ← pow_mul, ← pow_mul]
    congr 1
    ring
  rw [toPoly, Polynomial.eval_finsetSum, errorSet, Finset.sum_filter]
  refine Finset.sum_congr rfl fun j _ => ?_
  rw [Polynomial.eval_monomial, hpow, magnitude, ← mul_assoc]
  split
  · rfl
  · next hzero => rw [not_not.1 hzero, hφ.zero, zero_mul, zero_mul]

/-- The syndromes of a clean block with errors are the power sums of the errors. -/
theorem toPoly_syndPoly {e : Nat} (he : e ≤ 255) {B B' : List Byte} (hlen : B'.length = B.length)
    (hclean : syndromes F e B = zeros e) (herr : err = List.zipWith (· ^^^ ·) B B') :
    toPoly φ (syndPoly (syndromes F e B')) =
      powerSums (errorSet err) (location φ F) (magnitude φ F err) e := by
  have hsplit : toPoly φ B' = toPoly φ B + toPoly φ err := by
    ext j
    rw [Polynomial.coeff_add, hφ.coeff_toPoly, hφ.coeff_toPoly, hφ.coeff_toPoly, ← hφ.xor, herr,
      coefAt_zipWith_xor hlen.symm, ← BitVec.xor_assoc, BitVec.xor_self, BitVec.zero_xor]
  have hbase : F.base ≤ 1 := Bool.toNat_le _
  have heval (block : List Byte) {i : Nat} (hi : i < e) :
      φ (eval F (normalize block) (gfExp F (i + F.base))) =
        (toPoly φ block).eval (φ (alphaPow F.prim (i + F.base))) := by
    rw [hφ.eval_toPoly h (normalize_ne_nil _), hφ.toPoly_normalize, gfExp_eq_alphaPow h (by omega)]
  ext i
  rw [hφ.coeff_toPoly, coefAt_syndPoly_syndromes, powerSums, Polynomial.finsetSum_coeff]
  simp only [Polynomial.coeff_C_mul_X_pow, Finset.sum_ite_eq, Finset.mem_range]
  split
  · next hi =>
    have hzero := (syndromes_eq_zeros_iff F e B).1 hclean i hi
    rw [heval B' hi, hsplit, Polynomial.eval_add, ← heval B hi, hzero, hφ.zero, zero_add, eval_error h hφ]
  · exact hφ.zero

/-! ### The stages on a block with few errors -/

omit h in
/-- Few errors leave a short locator and a shorter evaluator. -/
theorem exists_const_of_errors {e : Nat} {T : Finset Nat} {x y : Nat → K} (hfew : 2 * T.card ≤ e)
    (hx : ∀ j ∈ T, x j ≠ 0) (hinj : Set.InjOn x T) (hy : ∀ j ∈ T, y j ≠ 0) {rLast r tLast t : Poly}
    (hB : Bezout φ e (powerSums T x y e) rLast r tLast t) (hshort : 2 * deg r < e) :
    ∃ c : K, c ≠ 0 ∧ toPoly φ t = C c * locator T x ∧ toPoly φ r = C c * evaluator T x y := by
  obtain ⟨uLast, u, -, hr, hone⟩ := hB.combine
  obtain ⟨w, hkey⟩ := exists_locator_mul_powerSums T x y e
  have hsum := hB.degrees.t_rLast
  have hlong := hB.long
  refine exists_const_of_key_equation hr ⟨uLast, toPoly φ tLast, by linear_combination hone⟩ ?_ ?_ hkey
    (isCoprime_locator_evaluator hx hinj hy) ?_ ?_ ?_
  · rw [hφ.natDegree_toPoly hB.degrees.t_form]
    omega
  · rwa [hφ.natDegree_toPoly hB.degrees.r_form]
  · rwa [natDegree_locator hx]
  · have := natDegree_evaluator_le (T := T) (x := x) y
    omega
  · intro hzero
    have h1 := locator_eval_zero (T := T) (x := x)
    rw [hzero, Polynomial.eval_zero] at h1
    exact zero_ne_one h1

/-- The key-equation solver finds locator and evaluator. -/
theorem euclid_of_errors {e : Nat} {T : Finset Nat} {x y : Nat → K} (hfew : 2 * T.card ≤ e)
    (hx : ∀ j ∈ T, x j ≠ 0) (hinj : Set.InjOn x T) (hy : ∀ j ∈ T, y j ≠ 0) {sp : Poly} (hform : IsValue sp)
    (hdeg : deg sp < e) (hsp : toPoly φ sp = powerSums T x y e) :
    ∃ sigma omega, euclid F e sp = .ok (sigma, omega) ∧ IsValue sigma ∧ IsValue omega ∧
      toPoly φ sigma = locator T x ∧ toPoly φ omega = evaluator T x y := by
  obtain ⟨rLast, r, tLast, t, hB, hshort, -, hok⟩ := exists_euclid h hφ hform hdeg
  obtain ⟨c, hc, ht, hr⟩ := exists_const_of_errors hφ hfew hx hinj hy (hsp ▸ hB) hshort
  have ht0 : φ (coefAt t 0) = c := by
    rw [← hφ.coeff_toPoly, ht, Polynomial.coeff_C_mul, Polynomial.coeff_zero_eq_eval_zero, locator_eval_zero,
      mul_one]
  have hne : coefAt t 0 ≠ 0 := (hφ.eq_zero_iff _).not.1 (ht0 ▸ hc)
  have hu : C (φ (inverse F (coefAt t 0))) * C c = 1 := by
    rw [hφ.inverse h hne, ht0, ← Polynomial.C_mul, inv_mul_cancel₀ hc, Polynomial.C_1]
  refine ⟨_, _, hok _ hne (gfInv_of_ne F hne), isValue_polyScale F _ hB.degrees.t_form,
    isValue_polyScale F _ hB.degrees.r_form, ?_, ?_⟩
  · rw [hφ.toPoly_polyScale h, ht, ← mul_assoc, hu, one_mul]
  · rw [hφ.toPoly_polyScale h, hr, ← mul_assoc, hu, one_mul]

/-- The Chien search finds the locations of the errors. -/
theorem chien_of_errors {sigma : Poly} (hform : IsValue sigma) (hlen : err.length ≤ 255)
    (hsigma : toPoly φ sigma = locator (errorSet err) (location φ F)) :
    ∃ locs, chien F sigma = .ok locs ∧ locs.Nodup ∧
      locs.toFinset = (errorSet err).image (alphaPow F.prim) := by
  obtain ⟨hnodup, -⟩ := locations_nodup h sigma
  have hmem : ((chienRoots F sigma).map (inverse F)).toFinset = (errorSet err).image (alphaPow F.prim) := by
    ext y
    simp only [List.mem_toFinset, List.mem_map, mem_chienRoots, Finset.mem_image]
    have hroot (z : Byte) : eval F sigma z = 0 ↔ ∃ j ∈ errorSet err, location φ F j * φ z = 1 := by
      rw [← hφ.eq_zero_iff, hφ.eval_toPoly h (ne_nil_of_isValue hform), hsigma, locator_eval_eq_zero_iff]
    constructor
    · rintro ⟨z, ⟨hz, heval⟩, rfl⟩
      obtain ⟨j, hj, hjz⟩ := (hroot z).1 heval
      refine ⟨j, hj, hφ.injective ?_⟩
      rw [hφ.inverse h hz]
      exact eq_inv_of_mul_eq_one_left hjz
    · rintro ⟨j, hj, rfl⟩
      have hne := alphaPow_ne_zero h.primitive j
      refine ⟨inverse F (alphaPow F.prim j), ⟨inverse_ne_zero h hne, (hroot _).2 ⟨j, hj, ?_⟩⟩,
        inverse_inverse h hne⟩
      rw [location, ← hφ.mul, gfMul_inverse h hne, hφ.one]
  have hcard : (chienRoots F sigma).length = deg sigma := by
    rw [← hφ.natDegree_toPoly hform, hsigma, natDegree_locator fun j _ => location_ne_zero h hφ j,
      ← Finset.card_image_of_injOn (alphaPow_injOn h hlen), ← hmem, List.toFinset_card_of_nodup hnodup,
      List.length_map]
  refine ⟨_, ?_, hnodup, hmem⟩
  rw [chien_eq, if_neg (by omega), List.take_of_length_le (by simp [hcard])]

/-- Forney's formula finds the magnitudes of the errors. -/
theorem forney_of_errors {omega : Poly} (hform : IsValue omega) (hlen : err.length ≤ 255)
    (homega : toPoly φ omega = evaluator (errorSet err) (location φ F) (magnitude φ F err)) {locs : List Byte}
    (hnodup : locs.Nodup) (hlocs : locs.toFinset = (errorSet err).image (alphaPow F.prim)) :
    ∃ f : Byte → Byte, forney F omega locs = .ok (locs.map f) ∧
      ∀ j ∈ errorSet err, f (alphaPow F.prim j) = coefAt err j := by
  have hinj := alphaPow_injOn h hlen
  have hmem (y : Byte) : y ∈ locs ↔ ∃ j ∈ errorSet err, alphaPow F.prim j = y := by
    rw [← List.mem_toFinset, hlocs, Finset.mem_image]
  have hnz (y : Byte) (hy : y ∈ locs) : y ≠ 0 := by
    obtain ⟨j, -, rfl⟩ := (hmem y).1 hy
    exact alphaPow_ne_zero h.primitive j
  obtain ⟨f, hf, hmag⟩ := hφ.exists_forney h (ne_nil_of_isValue hform) hnodup hnz
  refine ⟨f, hf, fun j hj => hφ.injective ?_⟩
  have hloc := location_ne_zero h hφ (F := F) j
  have hj' := (hmem _).2 ⟨j, hj, rfl⟩
  have hden := hφ.forneyDen_prod_ne_zero (hnz _ hj') fun y hy => ((hnodup.mem_erase_iff).1 hy).1
  have hothers : (locs.erase (alphaPow F.prim j)).toFinset =
      ((errorSet err).erase j).image (alphaPow F.prim) := by
    ext y
    rw [List.mem_toFinset, hnodup.mem_erase_iff, hmem, Finset.mem_image]
    constructor
    · rintro ⟨hne, k, hk, rfl⟩
      exact ⟨k, Finset.mem_erase.2 ⟨fun e => hne (e ▸ rfl), hk⟩, rfl⟩
    · rintro ⟨k, hk, rfl⟩
      obtain ⟨hkj, hk⟩ := Finset.mem_erase.1 hk
      exact ⟨fun e => hkj (hinj hk hj e), k, hk, rfl⟩
  have hprod : ((locs.erase (alphaPow F.prim j)).map fun y => φ y * (location φ F j)⁻¹ + 1).prod =
      ∏ k ∈ (errorSet err).erase j, (1 - location φ F k * (location φ F j)⁻¹) := by
    rw [← List.prod_toFinset _ (hnodup.erase _), hothers,
      Finset.prod_image (hinj.mono (Finset.erase_subset _ _))]
    refine Finset.prod_congr rfl fun k _ => ?_
    simp only [location]
    linear_combination φ (alphaPow F.prim k) * (φ (alphaPow F.prim j))⁻¹ * hφ.two
  have hat := hmag _ hj'
  rw [homega] at hat
  have hscaled := hat.trans (evaluator_eval_inv (magnitude φ F err) hj hloc)
  rw [← hprod] at hscaled
  exact mul_right_cancel₀ (pow_ne_zero _ hloc) (mul_right_cancel₀ hden hscaled)

omit hφ in
/-- The corrections at the offset of `x^j` are the error there: one magnitude, or none. -/
theorem xorSum_corrections {n : Nat} (hn : n ≤ 255) (hlen : err.length = n) {locs : List Byte}
    (hnodup : locs.Nodup) (hlocs : locs.toFinset = (errorSet err).image (alphaPow F.prim)) {f : Byte → Byte}
    (hf : ∀ j ∈ errorSet err, f (alphaPow F.prim j) = coefAt err j) {j : Nat} (hj : j < n) :
    xorSum ((((locs.map fun y => (n - 1 - F.logEntry y, f y)).filter fun c => c.1 = n - 1 - j)).map (·.2)) =
      coefAt err j := by
  have hmem (y : Byte) : y ∈ locs ↔ ∃ k ∈ errorSet err, alphaPow F.prim k = y := by
    rw [← List.mem_toFinset, hlocs, Finset.mem_image]
  have hlt {k : Nat} (hk : k ∈ errorSet err) : k < n :=
    hlen ▸ Finset.mem_range.1 (Finset.mem_filter.1 hk).1
  have hmatch : locs.filter (fun y => n - 1 - F.logEntry y = n - 1 - j) =
      locs.filter (fun y => y = alphaPow F.prim j) := by
    refine List.filter_congr fun y hy => decide_eq_decide.2 ?_
    obtain ⟨k, hk, rfl⟩ := (hmem y).1 hy
    have hkn := hlt hk
    rw [logEntry_alphaPow h (hkn.trans_le hn)]
    exact ⟨fun e => by rw [show k = j by omega],
      fun e => by rw [alphaPow_inj h.primitive (hkn.trans_le hn) (hj.trans_le hn) e]⟩
  have hfilter : ((locs.map fun y => (n - 1 - F.logEntry y, f y)).filter fun c => c.1 = n - 1 - j).map (·.2) =
      (locs.filter fun y => y = alphaPow F.prim j).map f := by
    rw [List.filter_map, List.map_map, ← hmatch]
    rfl
  rw [hfilter, List.filter_eq, List.map_replicate]
  by_cases hjerr : j ∈ errorSet err
  · rw [List.count_eq_one_of_mem hnodup ((hmem _).2 ⟨j, hjerr, rfl⟩), hf j hjerr]
    exact BitVec.xor_zero
  · have hnot : alphaPow F.prim j ∉ locs := fun hin => by
      obtain ⟨k, hk, e⟩ := (hmem _).1 hin
      exact hjerr (alphaPow_inj h.primitive ((hlt hk).trans_le hn) (hj.trans_le hn) e ▸ hk)
    rw [List.count_eq_zero_of_not_mem hnot]
    exact (not_not.1 (mem_errorSet.not.1 hjerr)).symm

omit hφ in
/-- XORing the magnitudes at the locations undoes the errors. -/
theorem correct_of_errors {B B' : List Byte} (hlen : B'.length = B.length) (hN : B.length ≤ 255)
    (herr : err = List.zipWith (· ^^^ ·) B B') {locs : List Byte} (hnodup : locs.Nodup)
    (hlocs : locs.toFinset = (errorSet err).image (alphaPow F.prim)) {f : Byte → Byte}
    (hf : ∀ j ∈ errorSet err, f (alphaPow F.prim j) = coefAt err j) :
    correct F B.length B' locs (locs.map f) = .ok B := by
  have herrLen : err.length = B.length := by simp [herr, hlen]
  have hpos : positions F B.length locs = .ok (locs.map fun y => B.length - 1 - F.logEntry y) := by
    refine positions_eq_map fun y hy => ?_
    obtain ⟨j, hj, rfl⟩ := Finset.mem_image.1 (hlocs ▸ List.mem_toFinset.2 hy)
    have hlt : j < B.length := herrLen ▸ Finset.mem_range.1 (Finset.mem_filter.1 hj).1
    exact ⟨alphaPow_ne_zero h.primitive j, (logEntry_alphaPow h (hlt.trans_le hN)).trans_lt hlt⟩
  rw [correct, hpos, ok_bind, List.zip_map']
  refine congrArg Except.ok (eq_of_coefAt_of_length (by simp [hlen]) fun j => ?_)
  rcases Nat.lt_or_ge j B.length with hj | hj
  · have hcoef : coefAt err j = coefAt B j ^^^ coefAt B' j := by rw [herr, coefAt_zipWith_xor hlen.symm]
    rw [coefAt_of_lt (by simpa [hlen] using hj), applyCorrections_getElem]
    simp only [applyCorrections_length, hlen]
    rw [xorSum_corrections h hN herrLen hnodup hlocs hf hj, hcoef, coefAt_of_lt (p := B') (hlen ▸ hj)]
    simp only [hlen]
    rw [BitVec.xor_comm, BitVec.xor_assoc, BitVec.xor_self, BitVec.xor_zero]
  · rw [coefAt_of_length_le hj, coefAt_of_length_le (by simpa [hlen] using hj)]

/-- Few errors whose syndromes are all 0 are none. -/
theorem errorSet_eq_empty {e : Nat} (he : 1 ≤ e) (hlen : err.length ≤ 255) (hfew : 2 * (errorSet err).card ≤ e)
    (hzero : powerSums (errorSet err) (location φ F) (magnitude φ F err) e = 0) : errorSet err = ∅ := by
  have hx := fun j (_ : j ∈ errorSet err) => location_ne_zero h hφ (F := F) j
  obtain ⟨w, hkey⟩ := exists_locator_mul_powerSums (errorSet err) (location φ F) (magnitude φ F err) e
  rw [hzero, mul_zero] at hkey
  have hdeg := natDegree_evaluator_le (T := errorSet err) (x := location φ F) (magnitude φ F err)
  have hw : -w = 0 := eq_zero_of_eq_mul_X_pow
    (p := evaluator (errorSet err) (location φ F) (magnitude φ F err)) (e := e)
    (by linear_combination -hkey) (by omega)
  have hcop := isCoprime_locator_evaluator hx (location_injOn h hφ hlen) fun j hj => magnitude_ne_zero h hφ hj
  have heval : evaluator (errorSet err) (location φ F) (magnitude φ F err) = 0 := by
    linear_combination -hkey + X ^ e * hw
  rw [heval, isCoprime_zero_right] at hcop
  rw [← Finset.card_eq_zero, ← natDegree_locator hx, Polynomial.natDegree_eq_zero_of_isUnit hcop]

/-- A clean block with few errors decodes to its data. -/
theorem decodeBlock_of_errors {C : Coder} (hC : CoderValid C) {B B' : List Byte} (hB : B.length = C.blockLen)
    (hlen : B'.length = B.length) (hclean : syndromes F C.parityLen B = zeros C.parityLen)
    (hfew : distance B B' ≤ C.parityLen / 2) : decodeBlock F C B' = .ok (B.take C.dataLen) := by
  obtain ⟨-, hE, hN⟩ := hC
  rw [← hB] at hN
  have hE255 : C.parityLen ≤ 255 := (Nat.le_add_left _ C.dataLen).trans (hB.symm.trans_le hN)
  obtain ⟨err, herr⟩ : ∃ err, err = List.zipWith (· ^^^ ·) B B' := ⟨_, rfl⟩
  have herrLen : err.length ≤ 255 := by simpa [herr, hlen] using hN
  have hcard : 2 * (errorSet err).card ≤ C.parityLen := by
    rw [herr, card_errorSet_zipWith]
    omega
  have hsp := toPoly_syndPoly h hφ hE255 hlen hclean herr
  have hform : IsValue (syndPoly (syndromes F C.parityLen B')) := normalize_form _
  by_cases hS : syndromes F C.parityLen B' = zeros C.parityLen
  · rw [hS, syndPoly_zeros, hφ.toPoly_zeroPoly] at hsp
    have hempty := errorSet_eq_empty h hφ hE herrLen hcard hsp.symm
    have hBB : B' = B := eq_of_coefAt_of_length hlen fun j => by
      have hj : j ∉ errorSet err := hempty ▸ Finset.notMem_empty j
      rw [mem_errorSet, not_not, herr, coefAt_zipWith_xor hlen.symm] at hj
      exact (BitVec.xor_eq_zero_iff.1 hj).symm
    rw [decodeBlock_of_clean hS, hBB]
  · obtain ⟨sigma, omega, heuclid, hsigmaForm, homegaForm, hsigma, homega⟩ := euclid_of_errors h hφ hcard
      (fun j _ => location_ne_zero h hφ j) (location_injOn h hφ herrLen) (fun j hj => magnitude_ne_zero h hφ hj)
      hform (deg_syndPoly_lt hE B') hsp
    obtain ⟨locs, hchien, hnodup, hlocs⟩ := chien_of_errors h hφ hsigmaForm herrLen hsigma
    obtain ⟨f, hforney, hf⟩ := forney_of_errors h hφ homegaForm herrLen homega hnodup hlocs
    have hcorrect := correct_of_errors h hlen hN herr hnodup hlocs hf
    have hnot : ¬ allZero (syndromes F C.parityLen B') = true := fun hz =>
      hS (by simpa using (allZero_iff _).1 hz)
    rw [decodeBlock, if_neg hnot, heuclid, ok_bind]
    simp only [hchien, ok_bind, hforney, ← hB, hcorrect]
    rfl

end Errors

/-- Settles O53: an encoded block is clean, so its errors are what the decoder's stages find. -/
theorem errorsWithinTheBoundAreCorrected : Obligations.ErrorsWithinTheBoundAreCorrected := by
  intro F C D B B' h hC hD henc hlen hfew
  obtain ⟨B₀, henc₀, hB, htake, hclean⟩ := exists_encodeBlock_clean h hC hD
  obtain rfl := Except.ok.inj (henc₀.symm.trans henc)
  obtain ⟨K, _, φ, hφ⟩ := exists_realizes h
  rw [decodeBlock_of_errors h hφ hC hB hlen hclean hfew, htake]

end Sys2Proof.Proofs
end

section
/-! SUPPORT. The decoder on any bytes (43_coder.md R216–R219, R222, R224): in a valid field decoding a block raises
no error, so the loop gathers an output for every block, and `DEC` stores and reports what it gathered. -/

namespace Sys2Proof.Proofs

open Sys2Proof.Machine Sys2Proof.Safety

/-! ### A block raises no error (43_coder.md R224) -/

theorem positions_ne_raise {F : Machine.Field} {n : Nat} {xs : List Byte} (hnz : ∀ x ∈ xs, x ≠ 0) (c : Cause) :
    positions F n xs ≠ .error (.raise c) := by
  induction xs with
  | nil => nofun
  | cons x xs ih =>
    have hlog : gfLog F x = .ok (F.logEntry x) := if_neg (hnz x (by simp))
    rw [positions, hlog, ok_bind]
    split
    · nofun
    · intro e
      obtain e | ⟨ps, -, e⟩ := bind_eq_error.1 e
      · exact ih (fun y hy => hnz y (by simp [hy])) e
      · cases e

theorem correct_ne_raise {F : Machine.Field} {n : Nat} {block locs mags : List Byte} (hnz : ∀ x ∈ locs, x ≠ 0)
    (c : Cause) : correct F n block locs mags ≠ .error (.raise c) := by
  intro e
  obtain e | ⟨ps, -, e⟩ := bind_eq_error.1 e
  · exact positions_ne_raise hnz c e
  · cases e

theorem chien_cases {F : Machine.Field} (h : FieldValid F) (sigma : Poly) :
    chien F sigma = failDF .chien ∨ ∃ locs, chien F sigma = .ok locs ∧ locs.Nodup ∧ ∀ x ∈ locs, x ≠ 0 := by
  obtain ⟨hnodup, hnz⟩ := locations_nodup h sigma
  rw [chien_eq]
  split
  · exact .inl rfl
  · exact .inr ⟨_, rfl, hnodup.sublist (List.take_sublist _ _), fun x hx => hnz x (List.mem_of_mem_take hx)⟩

/-- The solver divides only by polynomials and bytes other than 0, and the search hands on locations that are
distinct and not 0. -/
theorem decodeBlock_ne_raise {F : Machine.Field} (h : FieldValid F) {C : Coder} (hE : 1 ≤ C.parityLen)
    (block : List Byte) (c : Cause) : decodeBlock F C block ≠ .error (.raise c) := by
  obtain ⟨K, _, φ, hφ⟩ := exists_realizes h
  obtain ⟨rLast, r, tLast, t, hB, -, hfail, hok⟩ := exists_euclid h hφ
    (sp := syndPoly (syndromes F C.parityLen block)) (normalize_form _) (deg_syndPoly_lt hE block)
  intro e
  simp only [decodeBlock] at e
  split at e
  · cases e
  · by_cases ht0 : coefAt t 0 = 0
    · rw [hfail ht0] at e
      cases e
    · rw [hok _ ht0 (gfInv_of_ne F ht0), ok_bind] at e
      obtain hchien | ⟨locs, hchien, hnodup, hnz⟩ := chien_cases h (polyScale F t (inverse F (coefAt t 0)))
      · simp only [hchien] at e
        cases e
      · obtain ⟨f, hforney, -⟩ := hφ.exists_forney h
          (ne_nil_of_isValue (isValue_polyScale F (inverse F (coefAt t 0)) hB.degrees.r_form)) hnodup hnz
        simp only [hchien, ok_bind, hforney] at e
        obtain e | ⟨_, -, e⟩ := bind_eq_error.1 e
        · exact correct_ne_raise hnz c e
        · cases e

/-! ### The loop over the blocks (43_coder.md R222) -/

/-- What `DEC` stores for a block. -/
def blockOutput (F : Machine.Field) (C : Coder) (block : List Byte) : List Byte :=
  match decodeBlock F C block with
  | .ok v => v
  | .error _ => markerBlock C

/-- The reason to report after a block. -/
def nextReason (F : Machine.Field) (C : Coder) (last : Option DFReason) (block : List Byte) : Option DFReason :=
  match decodeBlock F C block with
  | .error (.df r) => some r
  | _ => last

theorem nextReason_of_df {F : Machine.Field} {C : Coder} {block : List Byte} {r : DFReason}
    (h : decodeBlock F C block = .error (.df r)) (last : Option DFReason) : nextReason F C last block = some r := by
  rw [nextReason, h]

theorem nextReason_of_isOk {F : Machine.Field} {C : Coder} {block : List Byte}
    (h : (decodeBlock F C block).isOk = true) (last : Option DFReason) : nextReason F C last block = last := by
  unfold nextReason
  split
  · next r e => rw [e] at h; cases h
  · rfl

/-- What the loop ends with when no block raises an error. -/
theorem decodeBlocks_eq {F : Machine.Field} {C : Coder} {blocks : List (List Byte)}
    (hblocks : ∀ b ∈ blocks, ∀ c, decodeBlock F C b ≠ .error (.raise c)) (acc : DecodeTally) :
    decodeBlocks F C blocks acc = .ok {
      out := acc.out ++ blocks.flatMap (blockOutput F C)
      fails := acc.fails + (blocks.filter fun b => !(decodeBlock F C b).isOk).length
      last := blocks.foldl (nextReason F C) acc.last } := by
  induction blocks generalizing acc with
  | nil => simp [decodeBlocks]
  | cons b bs ih =>
    have ih' := ih fun d hd => hblocks d (by simp [hd])
    match hb : decodeBlock F C b with
    | .ok v => simp [decodeBlocks, hb, ih', blockOutput, nextReason, Except.isOk, Except.toBool]
    | .error (.df r) =>
      simp [decodeBlocks, hb, ih', blockOutput, nextReason, Except.isOk, Except.toBool, Nat.add_assoc,
        Nat.add_comm 1]
    | .error (.raise c) => exact absurd hb (hblocks b (by simp) c)

section Report

variable {F : Machine.Field} {C : Coder} {block : Nat → List Byte}

/-- Without a failed block nothing is reported. -/
theorem foldl_nextReason_of_isOk {n : Nat} (hok : ∀ b < n, (decodeBlock F C (block b)).isOk = true) :
    (List.range n).foldl (fun last b => nextReason F C last (block b)) none = none := by
  induction n with
  | zero => rfl
  | succ n ih =>
    rw [List.range_succ, List.foldl_concat, nextReason_of_isOk (hok n (Nat.lt_succ_self n)),
      ih fun b hb => hok b (by omega)]

/-- The highest-numbered failed block is reported. -/
theorem foldl_nextReason_of_df {n b : Nat} {r : DFReason} (hb : b < n)
    (hfail : decodeBlock F C (block b) = .error (.df r))
    (hlast : ∀ c, b < c → c < n → (decodeBlock F C (block c)).isOk = true) :
    (List.range n).foldl (fun last b => nextReason F C last (block b)) none = some r := by
  induction n with
  | zero => omega
  | succ n ih =>
    rw [List.range_succ, List.foldl_concat]
    obtain hlt | rfl := Nat.lt_or_eq_of_le (Nat.le_of_lt_succ hb)
    · rw [nextReason_of_isOk (hlast n hlt (Nat.lt_succ_self n)), ih hlt fun c hbc hc => hlast c hbc (by omega)]
    · exact nextReason_of_df hfail _

end Report

/-! ### `DEC` -/

theorem finishDecode_flags (s : State) (fd : RIdx) (dst : Nat) (t : DecodeTally) :
    (s.finishDecode fd dst t).flags =
      t.last.elim s.flags fun r => { z := s.flags.z, df := true, dfr := r.code } := by
  unfold State.finishDecode
  cases t.last <;> rfl

theorem finishDecode_mem (s : State) (fd : RIdx) (dst : Nat) (t : DecodeTally) :
    (s.finishDecode fd dst t).mem = s.mem.writeBytes dst t.out :=
  finishDecode_keeps s fd dst t (·.mem) fun _ _ => rfl

theorem finishDecode_reg (s : State) (fd : RIdx) (dst : Nat) (t : DecodeTally) :
    (s.finishDecode fd dst t).reg fd = BitVec.ofNat 16 t.fails :=
  (finishDecode_keeps s fd dst t (·.reg fd) fun _ _ => rfl).trans (State.reg_setReg_same _ _ _)

/-- `DEC` writes one `R` register, DMEM and the flags. -/
theorem finishDecode_frame (s : State) (fd : RIdx) (dst : Nat) (t : DecodeTally) :
    (s.finishDecode fd dst t).advance = { s with
      regs := (s.finishDecode fd dst t).regs, mem := (s.finishDecode fd dst t).mem
      flags := (s.finishDecode fd dst t).flags, pc := s.pc + 4 } := by
  unfold State.finishDecode
  cases t.last <;> rfl

/-- With its operands in range and apart `DEC` writes what the loop ends with. -/
theorem exec_dec_of_inRange {s : State} (fd : RIdx) {fa fb fc : RIdx} {outlen : Nat} {t : DecodeTally}
    (hok : s.coder.coderOk = true)
    (houtlen : outlen = blockCount (s.unsigned fb) s.coder.blockLen * s.coder.dataLen)
    (hsrc : InRange (s.unsigned fa) (s.unsigned fb)) (hdst : InRange (s.unsigned fc) outlen)
    (hapart : ¬ Overlap (s.unsigned fa) (s.unsigned fb) (s.unsigned fc) outlen)
    (ht : decodeBlocks s.field s.coder
      (segments (s.loadBytes (s.unsigned fa) (s.unsigned fb)) s.coder.blockLen)
      { out := [], fails := 0, last := none } = .ok t) :
    exec (.dec fd fa fb fc) s = .next (s.finishDecode fd (s.unsigned fc) t).advance := by
  subst houtlen
  change command s (requireCoder s >>= _) = _
  rw [requireCoder_bind_of_ok hok]
  change command s (checkRange _ _ >>= _) = _
  rw [checkRange_bind_of_inRange hsrc, checkRange_bind_of_inRange hdst, checkOverlap_of_not hapart, ok_bind, ht]
  rfl

theorem blockOutput_length {F : Machine.Field} {C : Coder} (hK : 11 ≤ C.dataLen) {block : List Byte}
    (hlen : block.length = C.blockLen) : (blockOutput F C block).length = C.dataLen := by
  unfold blockOutput
  split
  · next v hv => exact decodeBlock_length hlen hv
  · exact markerBlock_length hK

/-- What the loop ends with on a buffer, by the numbers of its blocks. -/
def bufferTally (F : Machine.Field) (C : Coder) (data : List Byte) : DecodeTally where
  out := (List.range (blockCount data.length C.blockLen)).flatMap
    fun b => blockOutput F C (blockAt data C.blockLen b)
  fails := ((List.range (blockCount data.length C.blockLen)).filter
    fun b => !(decodeBlock F C (blockAt data C.blockLen b)).isOk).length
  last := (List.range (blockCount data.length C.blockLen)).foldl
    (fun last b => nextReason F C last (blockAt data C.blockLen b)) none

theorem decodeBlocks_segments {F : Machine.Field} (h : FieldValid F) {C : Coder} (hE : 1 ≤ C.parityLen)
    (data : List Byte) :
    decodeBlocks F C (segments data C.blockLen) { out := [], fails := 0, last := none } =
      .ok (bufferTally F C data) := by
  rw [decodeBlocks_eq fun b _ => decodeBlock_ne_raise h hE b]
  simp only [segments, List.flatMap_map, List.filter_map, List.length_map, List.foldl_map, Nat.zero_add,
    List.nil_append]
  rfl

/-- Settles O50: the loop's tally over the blocks of the segmentation, by their numbers. -/
theorem decDecodesEveryBlock : Obligations.DecDecodesEveryBlock := by
  intro s fd fa fb fc hinv hok
  dsimp only
  intro hsrc hdst hapart
  obtain ⟨hfield, hK, hE, -⟩ := hinv.coder hok
  have h := hinv.field hfield
  have hexec := exec_dec_of_inRange fd hok rfl hsrc hdst hapart
    (decodeBlocks_segments h hE (s.loadBytes (s.unsigned fa) (s.unsigned fb)))
  have hframe := fun c => exec_read_outside hexec hinv (c := c)
  have hlen : s.unsigned fb = (s.loadBytes (s.unsigned fa) (s.unsigned fb)).length := (loadBytes_length _ _ _).symm
  refine ⟨_, hexec, finishDecode_frame _ _ _ _, fun r hr => exec_reg_eq hexec (by simpa [destR] using hr),
    hframe, ?_⟩
  clear hexec hframe hsrc hapart
  generalize s.loadBytes (s.unsigned fa) (s.unsigned fb) = data at hlen ⊢
  rw [hlen] at hdst ⊢
  refine ⟨fun b hb => ?_, ?_, fun hall => ?_, fun b r hb hfail hlast => ?_⟩
  · have hstored := loadBytes_storeBytes_flatMap hinv.mem
      (fun b => blockOutput_length (F := s.field) hK (blockAt_length (data := data) (b := b))) (by omega) hdst hb
    have hblock := (congrArg (·.readBytes (s.unsigned fc + b * s.coder.dataLen) s.coder.dataLen)
      (finishDecode_mem s fd (s.unsigned fc) (bufferTally s.field s.coder data))).trans hstored
    match hres : decodeBlock s.field s.coder (blockAt data s.coder.blockLen b) with
    | .ok v => exact .inl ⟨v, rfl, hblock.trans (by rw [blockOutput, hres])⟩
    | .error (.df r) => exact .inr ⟨r, rfl, hblock.trans (by rw [blockOutput, hres])⟩
    | .error (.raise c) => exact absurd hres (decodeBlock_ne_raise h hE _ c)
  · have hfails := List.length_filter_le
      (fun b => !(decodeBlock s.field s.coder (blockAt data s.coder.blockLen b)).isOk)
      (List.range (blockCount data.length s.coder.blockLen))
    have hcount := Nat.mul_le_mul_left (blockCount data.length s.coder.blockLen) hK
    have hsize : Config.dmemSize = 65536 := rfl
    rw [List.length_range] at hfails
    refine (congrArg BitVec.toNat (finishDecode_reg _ _ _ _)).trans ?_
    rw [BitVec.toNat_ofNat]
    exact Nat.mod_eq_of_lt (hfails.trans_lt (by omega))
  · exact (finishDecode_flags _ _ _ _).trans (by rw [bufferTally, foldl_nextReason_of_isOk hall]; rfl)
  · exact (finishDecode_flags _ _ _ _).trans (by rw [bufferTally, foldl_nextReason_of_df hb hfail hlast]; rfl)

/-! ### What `DEC` reads (43_coder.md R225) -/

theorem bufferTally_out_length (F : Machine.Field) {C : Coder} (hK : 11 ≤ C.dataLen) (data : List Byte) :
    (bufferTally F C data).out.length = blockCount data.length C.blockLen * C.dataLen := by
  rw [bufferTally, length_flatMap_of_const fun b _ => blockOutput_length hK blockAt_length, List.length_range]

/-- A `DEC` that raised no error had its operands in range and apart. -/
theorem ranges_of_exec_dec {s t : State} {fd fa fb fc : RIdx} {outlen : Nat} (hok : s.coder.coderOk = true)
    (houtlen : outlen = blockCount (s.unsigned fb) s.coder.blockLen * s.coder.dataLen)
    (hexec : exec (.dec fd fa fb fc) s = .next t) (herr : t.status.err = false) :
    InRange (s.unsigned fa) (s.unsigned fb) ∧ InRange (s.unsigned fc) outlen ∧
      ¬ Overlap (s.unsigned fa) (s.unsigned fb) (s.unsigned fc) outlen := by
  have hno (c : Cause) (e : exec (.dec fd fa fb fc) s = .next (s.errorEntry c)) : False := by
    obtain rfl := Host.Outcome.next.inj (hexec.symm.trans e)
    cases herr
  obtain ⟨hrange, hover⟩ := exec_dec_checks fd fa fb fc hok houtlen
  have hsrc : InRange (s.unsigned fa) (s.unsigned fb) := by
    by_contra h
    exact hno _ (hrange (.inl h))
  have hdst : InRange (s.unsigned fc) outlen := by
    by_contra h
    exact hno _ (hrange (.inr h))
  exact ⟨hsrc, hdst, fun h => hno _ (hover hsrc hdst h)⟩

/-- The stored output, read back. -/
theorem loadBytes_finishDecode {s : State} (hmem : s.mem.wf) (fd : RIdx) {dst n : Nat} {t : DecodeTally}
    (hrange : InRange dst n) (hlen : t.out.length = n) :
    (s.finishDecode fd dst t).loadBytes dst n = t.out := by
  subst hlen
  exact (congrArg (·.readBytes dst t.out.length) (finishDecode_mem s fd dst t)).trans
    (Memory.readBytes_writeBytes hmem (hrange.imp_left List.length_eq_zero_iff.1))

/-- Settles O60: the tally is a function of the field, the coder and the bytes of the operand. -/
theorem decReadsOnlyItsOperands : Obligations.DecReadsOnlyItsOperands := by
  intro s s' t fd fa fb fc hinv hinv' hok _ hfield hcoder ha hb hc hdata hexec herr
  have hua : s'.unsigned fa = s.unsigned fa := congrArg BitVec.toNat ha
  have hub : s'.unsigned fb = s.unsigned fb := congrArg BitVec.toNat hb
  have huc : s'.unsigned fc = s.unsigned fc := congrArg BitVec.toNat hc
  obtain ⟨hsrc, hdst, hapart⟩ := ranges_of_exec_dec hok rfl hexec herr
  obtain ⟨hfieldOk, hK, hE, -⟩ := hinv.coder hok
  have htally := decodeBlocks_segments (hinv.field hfieldOk) hE (s.loadBytes (s.unsigned fa) (s.unsigned fb))
  have hlen := bufferTally_out_length s.field hK (s.loadBytes (s.unsigned fa) (s.unsigned fb))
  rw [loadBytes_length] at hlen
  obtain rfl := Host.Outcome.next.inj (hexec.symm.trans (exec_dec_of_inRange fd hok rfl hsrc hdst hapart htally))
  have hexec' := exec_dec_of_inRange (s := s') fd (fa := fa) (fb := fb) (fc := fc) (by rwa [hcoder]) rfl
    (by rwa [hua, hub]) (by rwa [huc, hub, hcoder]) (by rwa [hua, hub, huc, hcoder])
    (by rw [hfield, hcoder, hua, hub, hdata]; exact htally)
  rw [huc] at hexec'
  refine ⟨_, hexec', finishDecode_keeps s' fd _ _ (·.status) fun _ _ => rfl,
    (finishDecode_reg s' _ _ _).trans (finishDecode_reg s _ _ _).symm,
    (loadBytes_finishDecode hinv'.mem fd hdst hlen).trans (loadBytes_finishDecode hinv.mem fd hdst hlen).symm, ?_⟩
  have hflags := finishDecode_flags s fd (s.unsigned fc)
    (bufferTally s.field s.coder (s.loadBytes (s.unsigned fa) (s.unsigned fb)))
  have hflags' := finishDecode_flags s' fd (s.unsigned fc)
    (bufferTally s.field s.coder (s.loadBytes (s.unsigned fa) (s.unsigned fb)))
  simp only [State.advance_flags, hflags, hflags']
  cases (bufferTally s.field s.coder (s.loadBytes (s.unsigned fa) (s.unsigned fb))).last with
  | none => exact .inl ⟨rfl, rfl⟩
  | some r => exact .inr ⟨rfl, rfl, rfl⟩

end Sys2Proof.Proofs
end

section
/-! SUPPORT. The decoder's stages as commands (44_decoder_stages.md R250–R254): how each ends once its checks
pass, and what the stage behind it answers, also for operands that no decoder would pass on. -/

namespace Sys2Proof.Proofs

open Sys2Proof.Machine Sys2Proof.Safety
open Polynomial (C X)

/-- A byte of a stored sequence, read back. -/
theorem read_storeBytes_inside {s : State} (hmem : s.mem.wf) {dst i : Nat} {bytes : List Byte}
    (hrange : InRange dst bytes.length) (hi : i < bytes.length) :
    (s.storeBytes dst bytes).mem.read (dst + i) = bytes[i] :=
  Memory.read_writeBytes_inside hmem (hrange.resolve_left (Nat.ne_zero_of_lt hi)) hi

/-! ### `SYND` -/

/-- The flag `Z` tells whether the polynomial is `Zero` (R250). -/
theorem decide_syndPoly_eq_zeroPoly (S : List Byte) : decide (syndPoly S = zeroPoly) = allZero S := by
  rw [Bool.eq_iff_iff, decide_eq_true_iff, allZero_iff]
  refine ⟨fun hzero => List.ext_getElem (by simp) fun i hi _ => ?_, fun hzero => ?_⟩
  · rw [← List.getD_eq_getElem S 0 hi, ← coefAt_syndPoly, hzero, coefAt_zeroPoly]
    simp [zeros]
  · rw [hzero, syndPoly_zeros]

theorem exec_synd_of_inRange {s : State} (fd : PIdx) {fa : RIdx} {p : Poly} (hok : s.coder.coderOk = true)
    (hrange : InRange (s.unsigned fa) s.coder.blockLen)
    (hp : p = syndPoly (syndromes s.field s.coder.parityLen (s.loadBytes (s.unsigned fa) s.coder.blockLen))) :
    exec (.synd fd fa) s = .next ((s.setPoly fd p).setZ (decide (p = zeroPoly))).advance := by
  subst hp
  change command s (requireCoder s >>= _) = _
  rw [requireCoder_bind_of_ok hok]
  change command s (checkRange _ _ >>= _) = _
  rw [checkRange_bind_of_inRange hrange, decide_syndPoly_eq_zeroPoly]
  rfl

/-- Settles O55: each syndrome is a value of the block, and a value is the sum of its terms. -/
theorem syndComputesSyndromes : Obligations.SyndComputesSyndromes := by
  intro s fd fa hinv hok
  dsimp only
  intro hrange
  obtain ⟨hfield, -, hE, hN⟩ := hinv.coder hok
  have h := hinv.field hfield
  have hE255 : s.coder.parityLen ≤ 255 := (Nat.le_add_left _ _).trans hN
  have hbase : s.field.base ≤ 1 := Bool.toNat_le _
  refine ⟨_, exec_synd_of_inRange fd hok hrange rfl,
    (normalized_iff_degLe _).2 ⟨(deg_syndPoly_lt hE _).le.trans hE255, normalize_form _⟩, fun i hi => ?_,
    fun i hi => ?_⟩
  · rw [coefAt_syndPoly_syndromes, if_pos hi, gfExp_eq_alphaPow h (by omega), ← gfPow_two h,
      eval_eq_xorRange h (normalize_ne_nil _)]
  · rw [coefAt_syndPoly_syndromes, if_neg (Nat.not_lt.2 hi)]

/-! ### `KES` -/

theorem exec_kes_of_deg_lt {s : State} (fd : PIdx) {fa : PIdx} (fc : PIdx) (hok : s.coder.coderOk = true)
    (hdeg : deg (s.poly fa) < s.coder.parityLen) :
    exec (.kes fd fa fc) s = command s (euclid s.field s.coder.parityLen (s.poly fa) >>= fun so =>
      .ok ((s.setPoly fd so.1).setPoly fc so.2)) := by
  change command s (requireCoder s >>= _) = _
  rw [requireCoder_bind_of_ok hok]
  exact congrArg (command s) (if_neg (Nat.not_le.2 hdeg))

theorem exec_kes_of_le_deg {s : State} (fd : PIdx) {fa : PIdx} (fc : PIdx) (hok : s.coder.coderOk = true)
    (hdeg : s.coder.parityLen ≤ deg (s.poly fa)) :
    exec (.kes fd fa fc) s = .next (s.errorEntry .operand) :=
  command_of_raise ((requireCoder_bind_of_ok hok).trans (if_pos hdeg))

/-- Below `x^e` scaling a combination of `S` and `x^e` scales the product of `S` with its factor. -/
theorem Realizes.coefAt_polyMul_polyScale {F : Machine.Field} {K : Type} [Field K] {φ : Byte → K}
    (hφ : Realizes F φ) (h : FieldValid F) {e : Nat} {t r S : Poly} (hS : S ≠ []) {u : Polynomial K}
    (hr : toPoly φ r = toPoly φ t * toPoly φ S + u * X ^ e) (v : Byte) {j : Nat} (hj : j < e) :
    coefAt (polyMul F (polyScale F t v) S) j = coefAt (polyScale F r v) j := by
  have hsplit : toPoly φ (polyScale F r v) =
      toPoly φ (polyMul F (polyScale F t v) S) + (C (φ v) * u) * X ^ e := by
    rw [hφ.toPoly_polyScale h, hφ.toPoly_polyMul _ hS, hφ.toPoly_polyScale h, hr]
    ring
  refine hφ.injective ?_
  rw [← hφ.coeff_toPoly, ← hφ.coeff_toPoly, hsplit, Polynomial.coeff_add, Polynomial.coeff_mul_X_pow',
    if_neg (Nat.not_le.2 hj), add_zero]

/-- The solver solves the key equation or fails with `DF(3)` (R246). -/
theorem euclid_cases {F : Machine.Field} (h : FieldValid F) {e : Nat} {S : Poly} (hform : IsValue S)
    (hdeg : deg S < e) :
    euclid F e S = failDF .kesT0 ∨ ∃ sigma omega, euclid F e S = .ok (sigma, omega) ∧ coefAt sigma 0 = 1 ∧
      (∀ j < e, coefAt (polyMul F sigma S) j = coefAt omega j) ∧ 2 * deg omega < e := by
  obtain ⟨K, _, φ, hφ⟩ := exists_realizes h
  obtain ⟨rLast, r, tLast, t, hB, hshort, hfail, hok⟩ := exists_euclid h hφ hform hdeg
  obtain ⟨-, u, -, hr, -⟩ := hB.combine
  by_cases ht0 : coefAt t 0 = 0
  · exact .inl (hfail ht0)
  · refine .inr ⟨_, _, hok _ ht0 (gfInv_of_ne F ht0), ?_,
      fun j hj => hφ.coefAt_polyMul_polyScale h (ne_nil_of_isValue hform) hr _ hj, ?_⟩
    · rw [coefAt_polyScale h, gfMul_inverse h ht0]
    · have := (degLe_polyScale F (inverse F (coefAt t 0)) ⟨le_rfl, hB.degrees.r_form⟩).deg_le
      omega

/-- Settles O56: the Bézout equation of the last remainder, scaled, is the key equation. -/
theorem kesSolvesTheKeyEquation : Obligations.KesSolvesTheKeyEquation := by
  intro s fd fa fc hinv hok
  obtain ⟨hfield, -, hE, hN⟩ := hinv.coder hok
  have h := hinv.field hfield
  have hform := (hinv.polys fa).2
  refine ⟨fun hdeg => ?_, fun hdeg => ?_, exec_kes_of_le_deg fd fc hok⟩
  · have hexec := exec_kes_of_deg_lt fd fc hok hdeg
    obtain hfail | ⟨sigma, omega, hsolved, hone, hkey, hshort⟩ := euclid_cases h hform hdeg
    · exact .inr (by rw [hexec, hfail]; rfl)
    · have hE255 : s.coder.parityLen ≤ 255 := (Nat.le_add_left _ _).trans hN
      obtain ⟨hsigma, homega⟩ := (euclid_ends _ _ _).of_ok hsolved hform hdeg
      exact .inl ⟨sigma, omega, by rw [hexec, hsolved]; rfl, (normalized_iff_degLe _).2 (hsigma.mono hE255),
        (normalized_iff_degLe _).2 (homega.mono hE255), hone, hkey, .inl hshort⟩
  · rw [exec_kes_of_deg_lt fd fc hok (by omega), euclid_of_lt h hdeg]
    rfl

/-! ### `CHIEN` -/

theorem exec_chien_of_inRange {s : State} (fd : RIdx) {fa : PIdx} {fc : RIdx} (hok : s.field.fieldOk = true)
    (hrange : InRange (s.unsigned fc) (deg (s.poly fa))) :
    exec (.chien fd fa fc) s = command s (chien s.field (s.poly fa) >>= fun locs =>
      .ok ((s.storeBytes (s.unsigned fc) locs).setReg fd (BitVec.ofNat 16 (deg (s.poly fa))))) := by
  change command s (requireField s >>= _) = _
  rw [requireField_bind_of_ok hok]
  change command s (checkRange _ _ >>= _) = _
  rw [checkRange_bind_of_inRange hrange]
  rfl

/-- Settles O57: the search answers the inverses of the first roots, or fails when there are too few. -/
theorem chienFindsTheRoots : Obligations.ChienFindsTheRoots := by
  intro s fd fa fc hinv hok
  dsimp only
  intro hrange
  have h := hinv.field hok
  have hn : deg (s.poly fa) ≤ 255 := ((normalized_iff_degLe _).1 (hinv.polys fa)).deg_le
  have hexec := exec_chien_of_inRange fd hok hrange
  rw [chien_eq] at hexec
  refine ⟨fun (hroots : deg (s.poly fa) ≤ (chienRoots s.field (s.poly fa)).length) => ?_,
    fun (hroots : (chienRoots s.field (s.poly fa)).length < deg (s.poly fa)) => by
      rw [hexec, if_pos hroots]; rfl⟩
  rw [if_neg (Nat.not_lt.2 hroots), ok_bind, command_ok] at hexec
  set locs := ((chienRoots s.field (s.poly fa)).map (inverse s.field)).take (deg (s.poly fa)) with hlocs
  have hlen : locs.length = deg (s.poly fa) := by simpa [hlocs] using hroots
  refine ⟨_, hexec, rfl, ?_, fun r hr => exec_reg_eq hexec (by simpa [destR] using hr),
    fun c hc => exec_read_outside hexec hinv hc, fun i hi => ?_⟩
  · refine (congrArg BitVec.toNat (State.reg_setReg_same _ _ _)).trans ?_
    rw [BitVec.toNat_ofNat, Nat.mod_eq_of_lt (by omega)]
  · have hi' : i < (chienRoots s.field (s.poly fa)).length := hi.trans_le hroots
    have hstored := read_storeBytes_inside hinv.mem (hlen.symm ▸ hrange) (hi.trans_eq hlen.symm)
    refine (congrArg (gfMul _ _) hstored).trans ?_
    simp only [hlocs, List.getElem_take, List.getElem_map]
    exact (congrArg (gfMul _ · _) (List.getD_eq_getElem _ _ hi')).trans
      (gfMul_inverse h (mem_chienRoots.1 (List.getElem_mem hi')).1)

/-! ### `FORNEY` -/

theorem exec_forney_of_inRange {s : State} {fd : RIdx} (fa : PIdx) {fb fc : RIdx} (hok : s.field.fieldOk = true)
    (hloc : InRange (s.unsigned fb) (s.unsigned fc)) (hdst : InRange (s.unsigned fd) (s.unsigned fc))
    (hapart : ¬ Overlap (s.unsigned fb) (s.unsigned fc) (s.unsigned fd) (s.unsigned fc)) :
    exec (.forney fd fa fb fc) s = command s
      (forney s.field (s.poly fa) (s.loadBytes (s.unsigned fb) (s.unsigned fc)) >>= fun mags =>
        .ok (s.storeBytes (s.unsigned fd) mags)) := by
  change command s (requireField s >>= _) = _
  rw [requireField_bind_of_ok hok]
  change command s (checkRange _ _ >>= _) = _
  rw [checkRange_bind_of_inRange hloc, checkRange_bind_of_inRange hdst, checkOverlap_of_not hapart, ok_bind]
  rfl

/-- Forney's formula at one location raises `INV0`, or location and denominator are not 0. -/
theorem forneyAt_cases (F : Machine.Field) (omega : Poly) (locs : List Byte) (i : Nat) (x : Byte) :
    forneyAt F omega locs i x = raise .inv0 ∨
      (∃ m, forneyAt F omega locs i x = .ok m) ∧ x ≠ 0 ∧ forneyDen F (inverse F x) (locs.eraseIdx i) ≠ 0 := by
  by_cases hx : x = 0
  · rw [forneyAt, hx, gfInv_zero]
    exact .inl rfl
  · rw [forneyAt, gfInv_of_ne F hx, ok_bind]
    by_cases hden : forneyDen F (inverse F x) (locs.eraseIdx i) = 0
    · rw [hden, gfInv_zero]
      exact .inl rfl
    · rw [gfInv_of_ne F hden]
      exact .inr ⟨⟨_, rfl⟩, hx, hden⟩

/-- The formula raises no error but `INV0`, and raises none only if it needs no inverse of 0. -/
theorem forneyFrom_cases (F : Machine.Field) (omega : Poly) (locs : List Byte) (k : Nat) (xs : List Byte) :
    forneyFrom F omega locs k xs = raise .inv0 ∨
      (∃ ms, forneyFrom F omega locs k xs = .ok ms) ∧ ∀ i x, xs[i]? = some x →
        x ≠ 0 ∧ forneyDen F (inverse F x) (locs.eraseIdx (k + i)) ≠ 0 := by
  induction xs generalizing k with
  | nil => exact .inr ⟨⟨_, rfl⟩, by simp⟩
  | cons x xs ih =>
    rw [forneyFrom]
    obtain hat | ⟨⟨m, hat⟩, hfirst⟩ := forneyAt_cases F omega locs k x
    · rw [hat]
      exact .inl rfl
    · rw [hat, ok_bind]
      obtain hrest | ⟨⟨ms, hrest⟩, hothers⟩ := ih (k + 1)
      · rw [hrest]
        exact .inl rfl
      · rw [hrest]
        refine .inr ⟨⟨_, rfl⟩, fun i y hi => ?_⟩
        cases i with
        | zero =>
          obtain rfl : x = y := by simpa using hi
          exact hfirst
        | succ i =>
          rw [← Nat.succ_add_eq_add_succ]
          exact hothers i y (by simpa using hi)

/-- Another location equal to `x` makes the denominator at `x` 0 (R248). -/
theorem Realizes.forneyDen_eq_zero {F : Machine.Field} {K : Type} [Field K] {φ : Byte → K}
    (hφ : Realizes F φ) (h : FieldValid F) {x : Byte} (hx : x ≠ 0) {others : List Byte} (hmem : x ∈ others) :
    Machine.forneyDen F (Proofs.inverse F x) others = 0 := by
  have hfactor : φ x * (φ x)⁻¹ + 1 = 0 := by
    rw [mul_inv_cancel₀ ((hφ.eq_zero_iff x).not.2 hx), one_add_one_eq_two, hφ.two]
  rw [← hφ.eq_zero_iff, hφ.forneyDen, hφ.inverse h hx]
  exact List.prod_eq_zero (List.mem_map.2 ⟨x, hmem, hfactor⟩)

theorem forney_of_zero_or_equal {F : Machine.Field} (h : FieldValid F) (omega : Poly) {locs : List Byte}
    (hbad : (∃ x ∈ locs, x = 0) ∨ ¬ locs.Nodup) : forney F omega locs = raise .inv0 := by
  obtain ⟨K, _, φ, hφ⟩ := exists_realizes h
  obtain hraise | ⟨-, hgood⟩ := forneyFrom_cases F omega locs 0 locs
  · exact hraise
  · obtain ⟨x, hx, rfl⟩ | hdup := hbad
    · exact absurd rfl (hgood _ _ (List.getElem?_idxOf hx)).1
    · refine absurd (List.nodup_iff_getElem?_ne_getElem?.2 fun i j hij hj heq => ?_) hdup
      have hi : i < locs.length := hij.trans hj
      obtain ⟨hnz, hden⟩ := hgood i _ (List.getElem?_eq_getElem hi)
      rw [Nat.zero_add] at hden
      refine hden (hφ.forneyDen_eq_zero h hnz (List.mem_eraseIdx_iff_getElem?.2 ⟨j, hij.ne', ?_⟩))
      rw [← heq, List.getElem?_eq_getElem hi]

/-- Forney's equation in bytes: what `forney` answers at a location of a list of distinct ones. -/
theorem exists_forney_magnitudes {F : Machine.Field} (h : FieldValid F) {omega : Poly} (homega : omega ≠ [])
    {locs : List Byte} (hnodup : locs.Nodup) (hnz : ∀ x ∈ locs, x ≠ 0) :
    ∃ f : Byte → Byte, forney F omega locs = .ok (locs.map f) ∧
      ∀ (i : Nat) (x xinv : Byte), locs[i]? = some x → gfMul F x xinv = 1 →
        gfMul F (gfMul F (f x) (gfPow F x F.base)) (forneyDen F xinv (locs.eraseIdx i)) = eval F omega xinv := by
  obtain ⟨K, _, φ, hφ⟩ := exists_realizes h
  obtain ⟨f, hf, hmag⟩ := hφ.exists_forney h homega hnodup hnz
  refine ⟨f, hf, fun i x xinv hi hinv => hφ.injective ?_⟩
  obtain ⟨hlt, rfl⟩ := List.getElem?_eq_some_iff.1 hi
  have hxinv : φ xinv = (φ locs[i])⁻¹ := eq_inv_of_mul_eq_one_right (by rw [← hφ.mul, hinv, hφ.one])
  rw [hφ.mul, hφ.mul, hφ.pow, hφ.forneyDen, hφ.eval_toPoly h homega, hxinv, ← hnodup.erase_getElem i hlt,
    hmag _ (List.getElem_mem hlt)]

/-- Settles O58: the magnitudes solve Forney's equation, and an inverse of 0 is asked for exactly when a
location is 0 or stands twice. -/
theorem forneyComputesMagnitudes : Obligations.ForneyComputesMagnitudes := by
  intro s fd fa fb fc hinv hok
  dsimp only
  intro hloc hdst hapart
  have h := hinv.field hok
  have hexec := exec_forney_of_inRange fa hok hloc hdst hapart
  refine ⟨fun hnz hnodup => ?_, fun hbad => by rw [hexec, forney_of_zero_or_equal h _ hbad]; rfl⟩
  obtain ⟨f, hf, hmag⟩ := exists_forney_magnitudes h (ne_nil_of_isValue (hinv.polys fa).2) hnodup hnz
  rw [hf, ok_bind, command_ok] at hexec
  refine ⟨_, hexec, rfl, fun c hc => exec_read_outside hexec hinv hc, fun i x xinv hi hxinv => ?_⟩
  obtain ⟨hlt, rfl⟩ := List.getElem?_eq_some_iff.1 hi
  have hstored := read_storeBytes_inside hinv.mem
    (bytes := (s.loadBytes (s.unsigned fb) (s.unsigned fc)).map f) (by simpa using hdst) (by simpa using hlt)
  rw [List.getElem_map] at hstored
  rw [← hmag i _ xinv hi hxinv, ← hstored]
  rfl

/-! ### `CORR` -/

theorem exec_corr_of_inRange {s : State} {fd fa fb fc : RIdx} (hok : s.coder.coderOk = true)
    (hblk : InRange (s.unsigned fd) s.coder.blockLen) (hloc : InRange (s.unsigned fa) (s.unsigned fc))
    (hmag : InRange (s.unsigned fb) (s.unsigned fc))
    (hlocApart : ¬ Overlap (s.unsigned fa) (s.unsigned fc) (s.unsigned fd) s.coder.blockLen)
    (hmagApart : ¬ Overlap (s.unsigned fb) (s.unsigned fc) (s.unsigned fd) s.coder.blockLen) :
    exec (.corr fd fa fb fc) s = command s
      (correct s.field s.coder.blockLen (s.loadBytes (s.unsigned fd) s.coder.blockLen)
        (s.loadBytes (s.unsigned fa) (s.unsigned fc)) (s.loadBytes (s.unsigned fb) (s.unsigned fc)) >>= fun fixed =>
        .ok (s.storeBytes (s.unsigned fd) fixed)) := by
  change command s (requireCoder s >>= _) = _
  rw [requireCoder_bind_of_ok hok]
  change command s (checkRange _ _ >>= _) = _
  rw [checkRange_bind_of_inRange hblk, checkRange_bind_of_inRange hloc, checkRange_bind_of_inRange hmag,
    checkOverlap_of_not hlocApart, ok_bind, checkOverlap_of_not hmagApart, ok_bind]
  rfl

theorem gfLog_of_ne (F : Machine.Field) {a : Byte} (ha : a ≠ 0) : gfLog F a = .ok (F.logEntry a) := if_neg ha

/-- After locations inside the block the offsets of the others stop as they do by themselves (R249). -/
theorem positions_append {F : Machine.Field} {n : Nat} {xs ys : List Byte} {e : Stop}
    (hxs : ∀ x ∈ xs, x ≠ 0 ∧ F.logEntry x < n) (hys : positions F n ys = .error e) :
    positions F n (xs ++ ys) = .error e := by
  induction xs with
  | nil => exact hys
  | cons x xs ih =>
    obtain ⟨hx, hlt⟩ := hxs x (by simp)
    rw [List.cons_append, positions, gfLog_of_ne F hx, ok_bind, if_neg (by omega),
      ih fun y hy => hxs y (by simp [hy])]
    rfl

theorem positions_zero_cons (F : Machine.Field) (n : Nat) (xs : List Byte) :
    positions F n (0 :: xs) = .error (.raise .log0) := by
  rw [positions, gfLog_zero]
  rfl

theorem positions_cons_of_le {F : Machine.Field} {n : Nat} {x : Byte} (hx : x ≠ 0) (hle : n ≤ F.logEntry x)
    (xs : List Byte) : positions F n (x :: xs) = .error (.df .corr) := by
  rw [positions, gfLog_of_ne F hx, ok_bind, if_pos (by omega)]
  rfl

section Locations

variable {F : Machine.Field} (h : FieldValid F) {n : Nat} (hn : n ≤ 255)
include h hn

/-- A location inside a block of `n` bytes is a byte other than 0 with a logarithm below `n`. -/
theorem exists_gfPow_two_iff {x : Byte} : (∃ j, j < n ∧ gfPow F 2 j = x) ↔ x ≠ 0 ∧ F.logEntry x < n := by
  constructor
  · rintro ⟨j, hj, rfl⟩
    rw [gfPow_two h, logEntry_alphaPow h (hj.trans_le hn)]
    exact ⟨alphaPow_ne_zero h.primitive j, hj⟩
  · rintro ⟨hx, hlog⟩
    obtain ⟨j, hj, rfl⟩ := exists_alphaPow h.primitive hx
    rw [logEntry_alphaPow h hj] at hlog
    exact ⟨j, hlog, gfPow_two h j⟩

/-- The offset of a location inside the block is that of `x^j` exactly when the location is `α^j`. -/
theorem offset_eq_iff {x : Byte} (hx : ∃ k, k < n ∧ gfPow F 2 k = x) {j : Nat} (hj : j < n) :
    n - 1 - F.logEntry x = n - 1 - j ↔ x = gfPow F 2 j := by
  obtain ⟨k, hk, rfl⟩ := hx
  rw [gfPow_two h, gfPow_two h, logEntry_alphaPow h (hk.trans_le hn)]
  exact ⟨fun e => by rw [show k = j by omega],
    fun e => by rw [alphaPow_inj h.primitive (hk.trans_le hn) (hj.trans_le hn) e]⟩

/-- With every location inside the block the byte of `x^j` takes the magnitudes given at `α^j` (R249). -/
theorem exists_correct {block locs : List Byte} (mags : List Byte) (hlen : block.length = n)
    (hlocs : ∀ x ∈ locs, ∃ j, j < n ∧ gfPow F 2 j = x) :
    ∃ fixed, correct F n block locs mags = .ok fixed ∧ fixed.length = n ∧
      ∀ j < n, fixed.getD (n - 1 - j) 0 = block.getD (n - 1 - j) 0 ^^^
        xorSum (((locs.zip mags).filter fun c => c.1 = gfPow F 2 j).map (·.2)) := by
  refine ⟨applyCorrections block ((locs.map fun x => n - 1 - F.logEntry x).zip mags), ?_, by simp [hlen],
    fun j hj => ?_⟩
  · rw [correct, positions_eq_map fun x hx => (exists_gfPow_two_iff h hn).1 (hlocs x hx)]
    rfl
  · have hp : n - 1 - j < block.length := by omega
    have hmatch : ((locs.zip mags).filter fun c => n - 1 - F.logEntry c.1 = n - 1 - j) =
        (locs.zip mags).filter fun c => c.1 = gfPow F 2 j :=
      List.filter_congr fun c hc =>
        decide_eq_decide.2 (offset_eq_iff h hn (hlocs c.1 (List.of_mem_zip hc).1) hj)
    rw [List.getD_eq_getElem _ _ (by simpa using hp), List.getD_eq_getElem _ _ hp, applyCorrections_getElem,
      ← hmatch, List.zip_map_left, List.filter_map, List.map_map]
    rfl

/-- The first location outside the block decides how the correction ends (R249). -/
theorem correct_of_outside {locs : List Byte} {i : Nat} {x : Byte} (hi : locs[i]? = some x)
    (hbefore : ∀ y ∈ locs.take i, ∃ j, j < n ∧ gfPow F 2 j = y) (block mags : List Byte) :
    (x = 0 → correct F n block locs mags = .error (.raise .log0)) ∧
    (x ≠ 0 → (∀ j, j < n → gfPow F 2 j ≠ x) → correct F n block locs mags = .error (.df .corr)) := by
  have hinside (y : Byte) (hy : y ∈ locs.take i) := (exists_gfPow_two_iff h hn).1 (hbefore y hy)
  obtain ⟨hlt, rfl⟩ := List.getElem?_eq_some_iff.1 hi
  have hsplit : locs = locs.take i ++ locs[i] :: locs.drop (i + 1) := by
    rw [← List.drop_eq_getElem_cons hlt, List.take_append_drop]
  have hstop {e : Stop} (he : positions F n (locs[i] :: locs.drop (i + 1)) = .error e) :
      correct F n block locs mags = .error e := by
    have hpos := positions_append hinside he
    rw [← hsplit] at hpos
    rw [correct, hpos]
    rfl
  refine ⟨fun hx => hstop ?_, fun hx hout => hstop (positions_cons_of_le hx (Nat.not_lt.1 fun hlog => ?_) _)⟩
  · rw [hx, positions_zero_cons]
  · obtain ⟨j, hj, e⟩ := (exists_gfPow_two_iff h hn).2 ⟨hx, hlog⟩
    exact hout j hj e

end Locations

/-- Settles O59: offsets and powers of `α` inside the block determine each other, and the offsets are formed
in list order before any byte changes. -/
theorem corrXorsMagnitudes : Obligations.CorrXorsMagnitudes := by
  intro s fd fa fb fc hinv hok
  dsimp only
  intro hblk hloc hmag hlocApart hmagApart
  obtain ⟨hfield, -, -, hN⟩ := hinv.coder hok
  have h := hinv.field hfield
  have hexec := exec_corr_of_inRange hok hblk hloc hmag hlocApart hmagApart
  refine ⟨fun hin => ?_, fun i x hi hbefore => ?_⟩
  · obtain ⟨fixed, hfixed, hlen, hbytes⟩ := exists_correct h hN
      (s.loadBytes (s.unsigned fb) (s.unsigned fc)) (loadBytes_length s (s.unsigned fd) s.coder.blockLen) hin
    rw [hfixed, ok_bind, command_ok] at hexec
    refine ⟨_, hexec, rfl, fun c hc => exec_read_outside hexec hinv hc, fun j hj => ?_⟩
    have hp : s.coder.blockLen - 1 - j < fixed.length := by omega
    have hstored := read_storeBytes_inside hinv.mem (hlen.symm ▸ hblk) hp
    rw [← loadBytes_getD s _ (hp.trans_eq hlen), ← hbytes j hj, List.getD_eq_getElem _ _ hp, ← hstored]
    rfl
  · obtain ⟨hzero, hout⟩ := correct_of_outside h hN hi hbefore
      (s.loadBytes (s.unsigned fd) s.coder.blockLen) (s.loadBytes (s.unsigned fb) (s.unsigned fc))
    exact ⟨fun hx => by rw [hexec, hzero hx]; rfl, fun hx hno => by rw [hexec, hout hx hno]; rfl⟩

end Sys2Proof.Proofs
end

section
/-! SUPPORT. The causes a command may raise (60_exceptions.md R286): a triple for computations that may stop early,
with one rule per shared operation, and each command put together from the rules. It is the counterpart of `Ends`,
which tracks the decode failures. -/

namespace Sys2Proof.Proofs

open Sys2Proof.Machine Sys2Proof.Safety

/-- A value of the computation meets `P`, and an error it raises has its cause in `cs`. -/
def Raises {α : Type} (P : α → Prop) (cs : List Cause) : Except Stop α → Prop
  | .ok a => P a
  | .error (.raise c) => c ∈ cs
  | .error (.df _) => True

section Rules

variable {α β : Type} {P : α → Prop} {R : β → Prop} {cs : List Cause} {x y : Except Stop α}

@[simp] theorem raises_ok (a : α) : Raises P cs (.ok a) ↔ P a := Iff.rfl

@[simp] theorem raises_raise (c : Cause) : Raises P cs (raise c) ↔ c ∈ cs := Iff.rfl

@[simp] theorem raises_failDF (r : DFReason) : Raises P cs (failDF r) := trivial

theorem Raises.of_ok {a : α} (h : Raises P cs x) (e : x = .ok a) : P a := by rwa [e] at h

theorem Raises.cause_mem {c : Cause} (h : Raises P cs x) (e : x = .error (.raise c)) : c ∈ cs := by rwa [e] at h

/-- In sequence: the second part starts from what the first one promises. -/
theorem Raises.bind {f : α → Except Stop β} (h : Raises P cs x) (hf : ∀ a, P a → Raises R cs (f a)) :
    Raises R cs (x >>= f) := by
  match x with
  | .ok a => exact hf a h
  | .error (.raise _) => exact h
  | .error (.df _) => trivial

theorem Raises.ite {p : Prop} [Decidable p] (hx : p → Raises P cs x) (hy : ¬ p → Raises P cs y) :
    Raises P cs (if p then x else y) := by
  split
  · exact hx ‹_›
  · exact hy ‹_›

/-- A check raises its own cause, or leaves the rest to what follows. -/
theorem Raises.check {p : Prop} [Decidable p] {c : Cause} (hy : ¬ p → Raises P cs y)
    (hc : c ∈ cs := by simp [possibleCauses]) : Raises P cs (if p then raise c else y) :=
  .ite (fun _ => hc) hy

end Rules

/-! ### The checks and the field functions -/

section Operations

variable {cs : List Cause}

theorem requireField_raises (s : State) (hc : .notConfigured ∈ cs := by simp [possibleCauses]) :
    Raises (fun _ => s.field.fieldOk = true) cs (requireField s) := by
  obtain ⟨h, e⟩ | ⟨-, e⟩ := requireField_cases s
  · rwa [e]
  · rwa [e]

theorem requireCoder_raises (s : State) (hc : .notConfigured ∈ cs := by simp [possibleCauses]) :
    Raises (fun _ => s.coder.coderOk = true) cs (requireCoder s) := by
  obtain ⟨h, e⟩ | ⟨-, e⟩ := requireCoder_cases s
  · rwa [e]
  · rwa [e]

theorem checkRange_raises (a n : Nat) (hc : .memRange ∈ cs := by simp [possibleCauses]) :
    Raises (fun _ => True) cs (checkRange a n) :=
  .ite (fun _ => trivial) fun _ => hc

theorem checkOverlap_raises (a n b m : Nat) (hc : .overlap ∈ cs := by simp [possibleCauses]) :
    Raises (fun _ => True) cs (checkOverlap a n b m) :=
  .check (fun _ => trivial) hc

theorem checkCapacity_raises (p : Poly) (hc : .capacity ∈ cs := by simp [possibleCauses]) :
    Raises (fun _ => True) cs (checkCapacity p) :=
  .check (fun _ => trivial) hc

theorem gfInv_raises (F : Machine.Field) (a : Byte) (hc : .inv0 ∈ cs := by simp [possibleCauses]) :
    Raises (fun _ => True) cs (gfInv F a) :=
  .check (fun _ => trivial) hc

theorem gfLog_raises (F : Machine.Field) (a : Byte) (hc : .log0 ∈ cs := by simp [possibleCauses]) :
    Raises (fun _ => True) cs (gfLog F a) :=
  .check (fun _ => trivial) hc

theorem polyMono_raises (F : Machine.Field) (p : Poly) (d : Int) (c : Byte)
    (hc : .negDeg ∈ cs := by simp [possibleCauses]) : Raises (fun _ => True) cs (polyMono F p d c) :=
  .check (fun _ => trivial) hc

/-- Only `Zero` has no leading coefficient to invert, so division raises no `INV0`. -/
theorem polyDiv_raises (F : Machine.Field) (a : Poly) {b : Poly} (hb : IsValue b)
    (hc : .div0 ∈ cs := by simp [possibleCauses]) : Raises (fun _ => True) cs (polyDiv F a b) := by
  refine .check (fun hzero => ?_) hc
  have hlead : lead b ≠ 0 := hb.resolve_left hzero
  rw [gfInv_of_ne F hlead]
  trivial

/-! ### The coder and the decoder's stages (43_coder.md R224) -/

/-- The encoder divides by the generator, which is monic. -/
theorem encodeBlocks_raises {F : Machine.Field} (h : FieldValid F) {C : Coder} (hE : 1 ≤ C.parityLen)
    (blocks : List (List Byte)) : Raises (fun _ => True) cs (encodeBlocks F C blocks) := by
  induction blocks with
  | nil => trivial
  | cons b bs ih =>
    obtain ⟨parity, q, hout, -⟩ := exists_encodeBlock h hE b
    rw [encodeBlocks, hout, ok_bind]
    exact ih.bind fun _ _ => trivial

theorem euclid_raises {F : Machine.Field} (h : FieldValid F) {e : Nat} {sp : Poly} (hform : IsValue sp)
    (hdeg : deg sp < e) : Raises (fun _ => True) cs (euclid F e sp) := by
  obtain hfail | ⟨sigma, omega, hsolved, -⟩ := euclid_cases h hform hdeg
  · simp [hfail]
  · simp [hsolved]

theorem chien_raises {F : Machine.Field} (h : FieldValid F) (sigma : Poly) :
    Raises (fun _ => True) cs (chien F sigma) := by
  obtain hfail | ⟨locs, hfound, -⟩ := chien_cases h sigma
  · simp [hfail]
  · simp [hfound]

theorem forney_raises (F : Machine.Field) (omega : Poly) (locs : List Byte)
    (hc : .inv0 ∈ cs := by simp [possibleCauses]) : Raises (fun _ => True) cs (forney F omega locs) := by
  obtain hraise | ⟨⟨mags, hmags⟩, -⟩ := forneyFrom_cases F omega locs 0 locs
  · rwa [forney, hraise]
  · simp [forney, hmags]

theorem positions_raises (F : Machine.Field) (n : Nat) (locs : List Byte) (hc : .log0 ∈ cs) :
    Raises (fun _ => True) cs (positions F n locs) := by
  induction locs with
  | nil => trivial
  | cons x xs ih =>
    exact (gfLog_raises F x hc).bind fun _ _ => .ite (fun _ => trivial) fun _ => ih.bind fun _ _ => trivial

theorem correct_raises (F : Machine.Field) (n : Nat) (block locs mags : List Byte)
    (hc : .log0 ∈ cs := by simp [possibleCauses]) : Raises (fun _ => True) cs (correct F n block locs mags) :=
  (positions_raises F n locs hc).bind fun _ _ => trivial

end Operations

/-! ### Every command -/

/-- `i` at `s` is a computation that keeps `ERR` when it completes, and raises only causes of its row. -/
def RaisesListed (i : Instr) (s : State) : Prop :=
  ∃ x, exec i s = command s x ∧ Raises (fun u => u.status.err = s.status.err) (possibleCauses i) x

/-- The checks of `CINIT` in their order (43_coder.md R211). -/
theorem raisesListed_cinit (fa fb : RIdx) (s : State) : RaisesListed (.cinit fa fb) s :=
  ⟨_, rfl, (requireField_raises s).bind fun _ _ =>
    .check fun _ => .check fun _ => .check fun _ => rfl⟩

section Reachable

variable {s : State} (hinv : Inv s)
include hinv

/-- A constructed coder has a valid field, and `E` is not 0 (43_coder.md R210). -/
theorem fieldValid_of_coderOk (hok : s.coder.coderOk = true) :
    FieldValid s.field ∧ 1 ≤ s.coder.parityLen := by
  obtain ⟨hfield, -, hE, -⟩ := hinv.coder hok
  exact ⟨hinv.field hfield, hE⟩

theorem raisesListed_enc (fd fa fb fc : RIdx) : RaisesListed (.enc fd fa fb fc) s := by
  refine ⟨_, rfl, (requireCoder_raises s).bind fun _ hok => (checkRange_raises _ _).bind fun _ _ =>
    .check fun _ => (checkRange_raises _ _).bind fun _ _ =>
    (checkOverlap_raises _ _ _ _).bind fun _ _ => ?_⟩
  obtain ⟨hfield, hE⟩ := fieldValid_of_coderOk hinv hok
  exact (encodeBlocks_raises hfield hE _).bind fun _ _ => rfl

theorem raisesListed_dec (fd fa fb fc : RIdx) : RaisesListed (.dec fd fa fb fc) s := by
  refine ⟨_, rfl, (requireCoder_raises s).bind fun _ hok => (checkRange_raises _ _).bind fun _ _ =>
    (checkRange_raises _ _).bind fun _ _ => (checkOverlap_raises _ _ _ _).bind fun _ _ => ?_⟩
  obtain ⟨hfield, hE⟩ := fieldValid_of_coderOk hinv hok
  rw [decodeBlocks_segments hfield hE]
  exact finishDecode_keeps s fd _ _ (·.status.err) fun _ _ => rfl

theorem raisesListed_kes (fd fa fc : PIdx) : RaisesListed (.kes fd fa fc) s := by
  refine ⟨_, rfl, (requireCoder_raises s).bind fun _ hok => .check fun hdeg => ?_⟩
  obtain ⟨hfield, -⟩ := fieldValid_of_coderOk hinv hok
  exact (euclid_raises hfield (hinv.polys fa).2 (Nat.lt_of_not_le hdeg)).bind fun _ _ => rfl

theorem raisesListed (i : Instr) : RaisesListed i s := by
  cases i with
  | endRun | nop | li _ _ | clrf | gfadd _ _ _ | pconst _ _ | padd _ _ _ | pdeg _ _ | pcoef _ _ _ =>
    exact ⟨.ok _, rfl, rfl⟩
  | gfmul _ _ _ | gfexp _ _ | pscl _ _ _ | peval _ _ _ =>
    exact ⟨_, rfl, (requireField_raises s).bind fun _ _ => rfl⟩
  | finit imm =>
    exact ⟨_, rfl, .check fun _ => .check fun _ => rfl⟩
  | gfinv fd fa =>
    exact ⟨_, rfl, (requireField_raises s).bind fun _ _ => (gfInv_raises _ _).bind fun _ _ => rfl⟩
  | gflog fd fa =>
    exact ⟨_, rfl, (requireField_raises s).bind fun _ _ => (gfLog_raises _ _).bind fun _ _ => rfl⟩
  | pld fd fa fb =>
    exact ⟨_, rfl, (checkRange_raises _ _).bind fun _ _ => (checkCapacity_raises _).bind fun _ _ => rfl⟩
  | pst fa fb fc =>
    exact ⟨_, rfl, .check fun _ => (checkRange_raises _ _).bind fun _ _ => rfl⟩
  | pmul fd fa fb =>
    exact ⟨_, rfl, (requireField_raises s).bind fun _ _ => (checkCapacity_raises _).bind fun _ _ => rfl⟩
  | pmono fd fa fb fc =>
    exact ⟨_, rfl, (requireField_raises s).bind fun _ _ => (polyMono_raises _ _ _ _).bind fun _ _ =>
      (checkCapacity_raises _).bind fun _ _ => rfl⟩
  | pdiv fd fa fb fc =>
    exact ⟨_, rfl, (requireField_raises s).bind fun _ _ =>
      (polyDiv_raises _ _ (hinv.polys fb).2).bind fun _ _ => rfl⟩
  | pgen fd fa =>
    exact ⟨_, rfl, (requireField_raises s).bind fun _ _ => .check fun _ => rfl⟩
  | cinit fa fb => exact raisesListed_cinit fa fb s
  | enc fd fa fb fc => exact raisesListed_enc hinv fd fa fb fc
  | dec fd fa fb fc => exact raisesListed_dec hinv fd fa fb fc
  | synd fd fa =>
    exact ⟨_, rfl, (requireCoder_raises s).bind fun _ _ => (checkRange_raises _ _).bind fun _ _ => rfl⟩
  | kes fd fa fc => exact raisesListed_kes hinv fd fa fc
  | chien fd fa fc =>
    exact ⟨_, rfl, (requireField_raises s).bind fun _ hok => (checkRange_raises _ _).bind fun _ _ =>
      (chien_raises (hinv.field hok) _).bind fun _ _ => rfl⟩
  | forney fd fa fb fc =>
    exact ⟨_, rfl, (requireField_raises s).bind fun _ _ => (checkRange_raises _ _).bind fun _ _ =>
      (checkRange_raises _ _).bind fun _ _ => (checkOverlap_raises _ _ _ _).bind fun _ _ =>
      (forney_raises _ _ _).bind fun _ _ => rfl⟩
  | corr fd fa fb fc =>
    exact ⟨_, rfl, (requireCoder_raises s).bind fun _ _ => (checkRange_raises _ _).bind fun _ _ =>
      (checkRange_raises _ _).bind fun _ _ => (checkRange_raises _ _).bind fun _ _ =>
      (checkOverlap_raises _ _ _ _).bind fun _ _ => (checkOverlap_raises _ _ _ _).bind fun _ _ =>
      (correct_raises _ _ _ _ _).bind fun _ _ => rfl⟩

end Reachable

/-- Settles O9: `ERR` is set by error entry alone, and the computation of the command raises only listed causes. -/
theorem commandsRaiseOnlyListedCauses : Obligations.CommandsRaiseOnlyListedCauses := by
  intro i s t hinv hno h herr
  obtain ⟨x, e, hx⟩ := raisesListed hinv i
  obtain ⟨u, hu, rfl⟩ | ⟨c, hc, rfl⟩ | ⟨r, -, rfl⟩ := command_cases (e.symm.trans h)
  · simp [hx.of_ok hu, hno] at herr
  · exact ⟨c, hx.cause_mem hc, rfl⟩
  · simp [hno] at herr

end Sys2Proof.Proofs
end

section
/-! SUPPORT. The error record and the interrupt request (60_exceptions.md R280–R288, R300): what error entry leaves,
which steps lead to it, and what the host's accesses keep. -/

namespace Sys2Proof.Proofs

open Sys2Proof.Machine Sys2Proof.Safety

/-! ### Error entry (60_exceptions.md R281) -/

/-- A command that sets `ERR` has entered the error, whatever else it was computing. -/
theorem exec_errorEntry_of_err {i : Instr} {s t : State} (h : exec i s = .next t) (hno : s.status.err = false)
    (herr : t.status.err = true) : ∃ c, t = s.errorEntry c := by
  obtain ⟨u, hu, rfl⟩ | hraised | ⟨r, -, rfl⟩ := exec_cases h
  · simp [hu.err_eq, hno] at herr
  · exact hraised
  · simp [hno] at herr

theorem sequencerStep_errorEntry_of_err {s t : State} (h : sequencerStep s = .next t)
    (hno : s.status.err = false) (herr : t.status.err = true) : ∃ c, t = s.errorEntry c := by
  obtain ⟨i, -, -, hexec⟩ | hillegal | rfl := sequencerStep_cases h
  · exact exec_errorEntry_of_err hexec hno herr
  · exact ⟨_, hillegal⟩
  · simp [hno] at herr

/-- Only `CONFIG` has sub-causes (60_exceptions.md R282). -/
theorem Cause.code_of_sub_ne_zero {c : Cause} (h : c.sub ≠ 0) : c.code = 0x02 := by
  cases c with
  | config sub => rfl
  | _ => exact absurd rfl h

theorem errorEntry_cause_of_numbers {c : Cause} {code sub : Byte} (h : c.code = code ∧ c.sub = sub) :
    c.code = code ∧ c.sub = sub ∧ ∀ s : State, (s.errorEntry c).cause = { code := code, sub := sub } := by
  obtain ⟨rfl, rfl⟩ := h
  exact ⟨rfl, rfl, fun _ => rfl⟩

/-- Settles O8: a step that sets `ERR` is error entry, whose record holds the numbers of the cause. -/
theorem errorsArePrecise : Obligations.ErrorsArePrecise := by
  refine ⟨fun s t hin _ hno h herr => ?_, fun p hp => errorEntry_cause_of_numbers ?_⟩
  · obtain ⟨c, rfl⟩ := sequencerStep_errorEntry_of_err ((step_of_nil hin).symm.trans h) hno herr
    exact ⟨c, rfl, Cause.code_of_sub_ne_zero⟩
  · revert p
    decide

/-- Settles O10: the check for the field or the coder comes before everything else the command does. -/
theorem unconfiguredCommandsRaise : Obligations.UnconfiguredCommandsRaise := fun _ _ => exec_of_unconfigured

/-! ### The host (60_exceptions.md R288) -/

/-- What no host access writes. -/
def hostReadOnly (s : State) : Half × Word × Machine.Field × Coder × Vector Poly 8 × Memory × List Event :=
  (s.epc, s.info, s.field, s.coder, s.polys, s.dmem0, s.inputs)

/-- From `s` to `t` no error is raised: `ERR` and `CAUSE` are at most cleared. -/
structure NoErrorRaised (s t : State) : Prop where
  err : t.status.err = true → s.status.err = true
  cause : t.cause = s.cause ∨ t.cause = { code := 0, sub := 0 }
  rest : hostReadOnly t = hostReadOnly s

theorem hostRead_noErrorRaised (s : State) (addr : BitVec 17) (width : AccessWidth) :
    NoErrorRaised s (hostRead s addr width) := by
  obtain ⟨v, e⟩ | ⟨-, n, e⟩ := hostRead_cases s addr width
  · exact e ▸ ⟨id, .inl rfl, rfl⟩
  · exact e ▸ ⟨id, .inl rfl, rfl⟩

/-- `GO` leaves `ERR` as it is (40_control.md R110). -/
theorem writeCtrl_noErrorRaised (s : State) (v : Word) : NoErrorRaised s (writeCtrl s v) := by
  unfold writeCtrl
  split
  · exact ⟨id, .inl rfl, rfl⟩
  · exact ⟨id, .inl rfl, rfl⟩

/-- A 1 in bit 2 clears `ERR` and `CAUSE` (10_state.md R24). -/
theorem writeStatus_noErrorRaised (s : State) (v : Word) : NoErrorRaised s (writeStatus s v) where
  err h := (Bool.and_eq_true_iff.1 h).1
  cause := by
    unfold writeStatus
    split
    · exact .inr rfl
    · exact .inl rfl
  rest := rfl

theorem hostWrite_noErrorRaised (s : State) (addr : BitVec 17) (width : AccessWidth) (v : Word) :
    NoErrorRaised s (hostWrite s addr width v) := by
  obtain e | ⟨-, e⟩ | e | e | ⟨-, ⟨a, bytes, -, e⟩ | e | e | ⟨i, e⟩⟩ := hostWrite_cases s addr width v <;>
    rw [e]
  · exact ⟨id, .inl rfl, rfl⟩
  · exact ⟨id, .inl rfl, rfl⟩
  · exact writeCtrl_noErrorRaised s v
  · exact writeStatus_noErrorRaised s v
  all_goals exact ⟨id, .inl rfl, rfl⟩

theorem hostAccess_noErrorRaised (s : State) (a : HostAccess) : NoErrorRaised s (hostAccess s a) := by
  cases a with
  | read addr width => exact hostRead_noErrorRaised s addr width
  | write addr width v => exact hostWrite_noErrorRaised s addr width v

/-- Settles O22: a read replies, a write of `STATUS` clears, and the other writes touch neither `ERR` nor what only
commands write. -/
theorem hostAccessRaisesNoError : Obligations.HostAccessRaisesNoError := by
  intro s a
  obtain ⟨herr, hcause, hrest⟩ := hostAccess_noErrorRaised s a
  simp only [hostReadOnly, Prod.mk.injEq] at hrest
  exact ⟨herr, hcause, hrest⟩

/-! ### The interrupt request (60_exceptions.md R300) -/

theorem irq_of_done {s : State} (hdone : s.status.done = true) (hie : s.ctrl.ieDone = true) : s.irq = true := by
  simp [State.irq, hdone, hie]

theorem irq_of_err {s : State} (herr : s.status.err = true) (hie : s.ctrl.ieErr = true) : s.irq = true := by
  simp [State.irq, herr, hie]

theorem irq_of_status_clear {s : State} (hdone : s.status.done = false) (herr : s.status.err = false) :
    s.irq = false := by
  simp [State.irq, hdone, herr]

theorem irq_of_disabled {s : State} (hie : s.ctrl = { ieDone := false, ieErr := false }) : s.irq = false := by
  simp [State.irq, hie]

/-- Settles O23: `END` sets `DONE`, error entry sets `ERR`, and the host's writes clear them or their enables. -/
theorem irqFollowsStatusAndEnables : Obligations.IrqFollowsStatusAndEnables := by
  refine fun s => ⟨rfl, fun t h hie => ?_, fun c hie => irq_of_err rfl hie, fun v hdone herr => ?_,
    fun v hdone herr => ?_⟩
  · obtain rfl := Host.Outcome.next.inj h
    exact irq_of_done rfl hie
  · have hwrite := (write_of_register (s := s) v targetOf_status).trans (writeStatus_eq s v)
    rw [hwrite]
    exact irq_of_status_clear (if_pos hdone) (if_pos herr)
  · have hwrite : hostAccess s (.write 0x10000 .word v) = writeCtrl s v := write_of_register v targetOf_ctrl
    exact irq_of_disabled (by rw [hwrite, writeCtrl_ctrl, hdone, herr])

end Sys2Proof.Proofs
end

section
/-! SUPPORT. Reset (70_reset_and_hazards.md R320–R322) and the runs that begin with it: what the reset input
leaves, and that every step of such a run answers a next state. -/

namespace Sys2Proof.Proofs

open Sys2Proof.Machine Sys2Proof.Safety

/-! ### The reset state (70_reset_and_hazards.md R320) -/

@[simp] theorem resetMachine_reg (s : State) (i : RIdx) : (resetMachine s).reg i = 0 := by
  simp [State.reg, resetMachine, State.resetWith]

@[simp] theorem resetMachine_poly (s : State) (i : PIdx) : (resetMachine s).poly i = [0] := by
  simp [State.poly, resetMachine, State.resetWith]

/-- Every register of the host's block reads 0 (10_state.md R21). -/
theorem regWord_resetMachine (s : State) (r : HostReg) : regWord (resetMachine s) r = 0 := by
  cases r with
  | rwin i => simp [regWord]
  | epc | info | reserved => rfl
  | ctrl | status | cause | pc | fieldcfg | codercfg | flags =>
    simp [regWord, ctrlWord, statusWord, causeWord, pcWord, fieldcfgWord, codercfgWord, flagsWord, resetMachine,
      State.resetWith]

/-- DMEM is reset, or, in a run, perhaps not (70_reset_and_hazards.md R321, R322). -/
theorem resetMachine_mem_cases (s : State) :
    (resetMachine s).mem = s.dmem0 ∨ (s.status.run = true ∧ (resetMachine s).mem = s.mem) := by
  by_cases hkeep : s.status.run = true ∧ Config.resetKeepsDmem s.freeCount = true
  · exact .inr ⟨hkeep.1, if_pos hkeep⟩
  · exact .inl (if_neg hkeep)

/-- Out of reset the sequencer idles (10_state.md R34). -/
theorem step_resetMachine_idle (s : State) :
    step { resetMachine s with inputs := [] } = .next { resetMachine s with inputs := [] } :=
  (step_of_nil rfl).trans (sequencerStep_of_idle rfl)

/-- Settles O13: the reset input is taken from the queue and builds the reset state, which is idle. -/
theorem resetLeavesTheResetState : Obligations.ResetLeavesTheResetState := by
  intro s rest hin
  have hword := regWord_resetMachine { s with inputs := rest }
  exact ⟨_, step_of_reset hin, resetMachine_reg _, resetMachine_poly _, rfl, hword .ctrl, hword .status,
    hword .cause, rfl, rfl, hword .flags, hword .fieldcfg, hword .codercfg, rfl,
    resetMachine_mem_cases { s with inputs := rest }, rfl, rfl, step_resetMachine_idle _⟩

theorem start_inv {dmem0 : Memory} (h : dmem0.wf) (events : List Event) : Inv (start dmem0 events) :=
  (resetWith_inv h).withInputs events

/-- Settles O14: `DMEM0` is the only part of the reset state that is not fixed. -/
theorem invariantHoldsAtReset : Obligations.InvariantHoldsAtReset :=
  ⟨resetWith_inv Memory.wf_nil, fun _ events h => start_inv h events⟩

/-! ### Runs -/

/-- The sequencer's turn has an outcome: a command ends (40_control.md R119), an illegal word raises
`ILLEGAL`, and an idle sequencer does nothing. -/
theorem sequencerStep_total (s : State) : ∃ t, sequencerStep s = .next t := by
  unfold sequencerStep runCommand
  split
  · split
    · next i _ => exact exec_total i s
    · exact ⟨_, rfl⟩
  · exact ⟨s, rfl⟩

/-- No step stops with a fault or a refusal. -/
theorem step_total (s : State) : ∃ t, step s = .next t := by
  match hin : s.inputs with
  | [] => exact step_of_nil hin ▸ sequencerStep_total s
  | .sequencer :: rest => exact step_of_sequencer hin ▸ sequencerStep_total { s with inputs := rest }
  | .host _ :: _ => exact ⟨_, step_of_host hin⟩
  | .reset :: _ => exact ⟨_, step_of_reset hin⟩

/-- A run that begins with a step to `t` goes on from `t`. -/
theorem run_succ_of_step {s t : State} (h : step s = .next t) (n : Nat) :
    Host.Core.run Sys2Proof.core (n + 1) s = Host.Core.run Sys2Proof.core n t := by
  have hcore : Sys2Proof.core.step s = .next t := h
  simp only [Host.Core.run, hcore]

/-- From a state that meets the invariants a run never stops, and it keeps them. -/
theorem run_inv {s : State} (h : Inv s) (n : Nat) :
    ∃ t, Host.Core.run Sys2Proof.core n s = .next t ∧ Inv t := by
  induction n generalizing s with
  | zero => exact ⟨s, rfl, h⟩
  | succ n ih =>
    obtain ⟨u, hu⟩ := step_total s
    rw [run_succ_of_step hu]
    exact ih (everyStepKeepsTheInvariant s u h hu)

/-- Settles O16: the reset state meets the invariants, and every step answers and keeps them. -/
theorem everyRunFromResetKeepsTheInvariant : Obligations.EveryRunFromResetKeepsTheInvariant :=
  fun _ events n h => run_inv (start_inv h events) n

end Sys2Proof.Proofs
end
